-- ==== Sys2Proof/Word.lean ====
section
/-! DEFINITION. The words of USBCTL-CORE: a byte of SRAM or of a packet, a 16-bit half, and the 32-bit
register or buffer-descriptor word (`REG_W = 32`, spec R11, R34, R49). Bit 0 is the least significant (R14). -/

namespace Sys2Proof

/-- One byte of the device SRAM or of a packet. -/
abbrev Byte := BitVec 8

/-- A 16-bit value: the `index` and `length` fields of a header (R58), the sixteen bits of a register
that can be anything but zero (R34), the two halves of a descriptor (R49). -/
abbrev Half := BitVec 16

/-- A register or descriptor word, 32 bits (R34, R49). -/
abbrev Word := BitVec 32

end Sys2Proof
end

