-- ==== Sys2Proof/Config.lean ====
section
/-! DEFINITION. What an implementation fixes (the parameters of R11 with the constraints of R345), the value
types CORE exchanges with its collaborators (R27, R58, R59), the constants of R10, and the free values the
spec leaves open: constants without a body, of which nothing can be proved. -/

namespace Sys2Proof

/-- `ExtTok` (R11, R27): the type of opaque completion tokens; the naturals here (log 6). -/
abbrev ExtTok := Nat

/-- `TxTok` (R27): the completion token of a `Tx` result. -/
inductive TxTok where
  | none
  | applyAddress
  | ext (t : ExtTok)
  deriving DecidableEq, Repr, Inhabited

/-- `RxTok` (R27): the completion predicate of an `Rx` result. -/
inductive RxTok where
  | none
  | ext (t : ExtTok)
  deriving DecidableEq, Repr, Inhabited

/-- `SetupHeader` (R58): the six named fields of the SETUP packet. -/
structure SetupHeader where
  requestType : Byte
  request : Byte
  valueLo : Byte
  valueHi : Byte
  index : Half
  length : Half
  deriving DecidableEq, Repr, Inhabited

/-- `SetupResult` (R59). `Rx` stands first, so that the default value of the type is `Rx(0, NONE)`, the error value
(R59, R134: `default_setupResult`). -/
inductive SetupResult where
  | rx (n : Half) (cb : RxTok)
  | tx (data : List Byte) (cb : TxTok)
  deriving DecidableEq, Repr, Inhabited

/-- What a collaborator can answer (R60): a `SetupResult` whose token is absent or opaque, because "a
collaborator can never return `APPLY_ADDRESS`" (R27). -/
inductive Answer where
  | rx (n : Half) (tok : Option ExtTok)
  | tx (data : List Byte) (tok : Option ExtTok)
  deriving DecidableEq, Repr, Inhabited

/-- `GRANULARITY` (R11, R96). -/
inductive Granularity where
  | handler
  | access
  deriving DecidableEq, Repr, Inhabited

namespace Config

/-- `EP0_MPS` (R10): the control endpoint's maximum packet size. -/
def ep0Mps : Nat := 64

/-- `SETUP_LEN` (R10). -/
def setupLen : Nat := 8

/-- `MAX_DATA_LEN` (R11, R132). -/
def maxDataLen : Nat := 65535

/-- `RX_NO_PRED_OK` (R11, R225): an OUT stage armed with no predicate is acknowledged. -/
def rxNoPredOk : Bool := true

/-- `IRQ_MASK` (R43, R257): CTRM, RESETM and SOFM. -/
def irqMask : Half := 0x8600#16

/-- The acknowledgement mask of R242: the positions of SOF and RESET. -/
def ackMask : Half := 0x0600#16

/-- The constraints R345 (1), R11 and R71 put on the three sizes. -/
def legalLayout (sramBytes ep0RxOff ep0TxOff : Nat) : Bool :=
  decide (sramBytes % 4 = 0 ∧ sramBytes ≤ 65536 ∧
    ep0RxOff % 4 = 0 ∧ 64 ≤ ep0RxOff ∧ ep0RxOff + 64 ≤ sramBytes ∧
    ep0TxOff % 4 = 0 ∧ 64 ≤ ep0TxOff ∧ ep0TxOff + 64 ≤ sramBytes ∧
    (ep0RxOff + 64 ≤ ep0TxOff ∨ ep0TxOff + 64 ≤ ep0RxOff))

/-- FREE VALUE (R66, U6): the byte an address inside the three regions of R52 holds after power-on number
`era`, until something writes it. -/
opaque freeBoot (era address : Nat) : Byte

/-- FREE VALUE (R66, R278, R322): the byte an address outside the three regions holds after draw number `era`. -/
opaque freeExt (era address : Nat) : Byte

/-- FREE VALUE (R278, R322): a byte of a descriptor of endpoints 1 to 7 after draw number `era`. -/
opaque freeDesc (era address : Nat) : Byte

/-- FREE VALUE (R322 (d)): the block size a capability gives `BdSetRx` at draw number `era`; an illegal one stands for
no call of it. -/
opaque freeRxSize (era endpoint : Nat) : Nat

/-- FREE VALUE (R95, U7): what CORE reads at an address while `rx_unsettled` is set, at step `tick`. -/
opaque freeRead (tick address : Nat) : Byte

/-- FREE VALUE (R77, U1): the header a misaligned parse gives at step `tick`. -/
opaque freeHeader (tick : Nat) : SetupHeader

/-- FREE VALUE (R41, `CTR_PICK`, U15): which of several pending slots ISTR reports at step `tick`. -/
opaque freePick (tick : Nat) : Nat

/-- FREE VALUE (R60, U14): the answer to a call that returns a result, at step `tick`. -/
opaque freeAnswer (tick call : Nat) : Answer

/-- FREE VALUE (R60, U14): the answer to a call that returns a Boolean, at step `tick`. -/
opaque freeVerdict (tick call : Nat) : Bool

/-- FREE VALUE (R322 (d)): what a capability wrote to its own endpoint register at draw number `era`. -/
opaque freeReg (era endpoint : Nat) : Half

end Config

/-- The parameters of R11 that stay arguments of the model, with the proof that they meet R345. No rule reads
`regAddresses`, `clockHz` or `errataDelay` (R11). -/
structure Params where
  sramBytes : Nat
  ep0RxOff : Nat
  ep0TxOff : Nat
  sramBase : Nat
  regAddresses : List Nat
  clockHz : Nat
  errataDelay : Nat
  granularity : Granularity
  legal : Config.legalLayout sramBytes ep0RxOff ep0TxOff = true
  deriving DecidableEq, Repr

/-- The defaults R11 and spec/92_eei_decisions.md give (log 5). -/
def Params.default : Params where
  sramBytes := 2048
  ep0RxOff := 0x40
  ep0TxOff := 0x80
  sramBase := 0
  regAddresses := []
  clockHz := 0
  errataDelay := 0
  granularity := .handler
  legal := by decide

end Sys2Proof
end

