-- ==== Sys2Proof/Syntax.lean ====
section
/-! DEFINITION. The syntax of the twenty events CORE decodes (R110), one constructor per row of
spec/opcode_table.json. A constructor carries the bits of its format that its row does not fix. -/

namespace Sys2Proof

/-- The three formats CORE decodes (R100, R101, R102). -/
inductive Format where
  | istr
  | cc5
  | setup8
  deriving DecidableEq, Repr

/-- A capability `Cap[1]` to `Cap[7]` (R10), numbered from 0: `k` stands for `Cap[k + 1]`, the capability of
endpoint `k + 1`. -/
abbrev Cap := Fin 7

/-- The decoded events (R110). For an ISTR row the operands are the causes that remain to be served from the same
read and its completion code; for a CC5 row the capability or the bad code; for a SETUP8 row the header's bytes
that the row leaves free. -/
inductive Instr where
  | irqSof (reset ctr : Bool) (code : BitVec 5)
  | irqReset (ctr : Bool) (code : BitVec 5)
  | irqCtr (code : BitVec 5)
  | ctrEp0Tx
  | ctrEp0RxSetup
  | ctrEp0RxOut
  | ctrCapTx (k : Cap)
  | ctrCapRx (k : Cap)
  | ctrUndispatchable (rx : Bool) (low : BitVec 3)
  | getStatus (vlo vhi : Byte) (idx len : Half)
  | setAddress (vlo vhi : Byte) (idx len : Half)
  | getDescriptorDevice (vlo : Byte) (idx len : Half)
  | getDescriptorConfig (vlo : Byte) (idx len : Half)
  | getDescriptorString (vlo : Byte) (idx len : Half)
  | getDescriptorOther (vlo vhi : Byte) (idx len : Half)
  | setConfiguration0 (vhi : Byte) (idx len : Half)
  | setConfiguration1 (vhi : Byte) (idx len : Half)
  | setConfigurationOther (vlo vhi : Byte) (idx len : Half)
  | setInterface (vlo vhi : Byte) (idx len : Half)
  | classDispatch (rt rq vlo vhi : Byte) (idx len : Half)
  deriving DecidableEq, Repr

end Sys2Proof
end

