-- ==== Sys2Proof/WellFormed.lean ====
section
/-! DEFINITION. Which terms of `Instr` stand for an event: the "any other value" rows must not hold a value that
an earlier row of the table takes (R110). -/

namespace Sys2Proof

/-- The five request pairs CORE decodes itself (R110). -/
def standardPair (rt rq : Byte) : Bool :=
  decide ((rt = 0x80#8 ∧ rq = 0x00#8) ∨ (rt = 0x00#8 ∧ rq = 0x05#8) ∨ (rt = 0x80#8 ∧ rq = 0x06#8) ∨
    (rt = 0x00#8 ∧ rq = 0x09#8) ∨ (rt = 0x01#8 ∧ rq = 0x0b#8))

/-- Well-formed events (R110): `GET_DESCRIPTOR_OTHER` holds no type 1, 2 or 3, `SET_CONFIGURATION_OTHER` no value
0 or 1, `CLASS_DISPATCH` none of the five pairs. -/
def Instr.wf (i : Instr) : Bool :=
  match i with
  | .irqSof _ _ _ => true
  | .irqReset _ _ => true
  | .irqCtr _ => true
  | .ctrEp0Tx => true
  | .ctrEp0RxSetup => true
  | .ctrEp0RxOut => true
  | .ctrCapTx _ => true
  | .ctrCapRx _ => true
  | .ctrUndispatchable _ _ => true
  | .getStatus _ _ _ _ => true
  | .setAddress _ _ _ _ => true
  | .getDescriptorDevice _ _ _ => true
  | .getDescriptorConfig _ _ _ => true
  | .getDescriptorString _ _ _ => true
  | .getDescriptorOther _ vhi _ _ => decide (vhi ≠ 1#8 ∧ vhi ≠ 2#8 ∧ vhi ≠ 3#8)
  | .setConfiguration0 _ _ _ => true
  | .setConfiguration1 _ _ _ => true
  | .setConfigurationOther vlo _ _ _ => decide (vlo ≠ 0#8 ∧ vlo ≠ 1#8)
  | .setInterface _ _ _ _ => true
  | .classDispatch rt rq _ _ _ _ => !standardPair rt rq

end Sys2Proof
end

