-- ==== Sys2Proof/Decode.lean ====
section
/-! DEFINITION. Encodings (spec/30_encoding.md): little-endian bytes, the SETUP8 header and its inverse, the ISTR
and CC5 formats, the decoder, the encoder, the opcode table as data, and the host's `decodeTableWord`. -/

namespace Sys2Proof

/-- The `n` low bytes of `v`, the least significant first (R73). -/
def leBytes : Nat → Nat → List Byte
  | 0, _ => []
  | n + 1, v => BitVec.ofNat 8 v :: leBytes n (v / 256)

/-- The unsigned integer whose bytes are `l`, the least significant first (R72). -/
def leSum : List Byte → Nat
  | [] => 0
  | b :: l => b.toNat + 256 * leSum l

/-- The header of eight bytes (R100, R130): `index` and `length` low byte first (R74). -/
def headerOf (b0 b1 b2 b3 b4 b5 b6 b7 : Byte) : SetupHeader where
  requestType := b0
  request := b1
  valueLo := b2
  valueHi := b3
  index := b5 ++ b4
  length := b7 ++ b6

/-- The parse of a byte sequence (R130): its first eight bytes; bytes beyond the eighth are not read; a sequence of
fewer than eight bytes has no header. -/
def parseBytes : List Byte → Option SetupHeader
  | b0 :: b1 :: b2 :: b3 :: b4 :: b5 :: b6 :: b7 :: _ => some (headerOf b0 b1 b2 b3 b4 b5 b6 b7)
  | _ => none

/-- `UnparseSetup` (R131). -/
def SetupHeader.bytes (h : SetupHeader) : List Byte :=
  [h.requestType, h.request, h.valueLo, h.valueHi,
    h.index.extractLsb' 0 8, h.index.extractLsb' 8 8, h.length.extractLsb' 0 8, h.length.extractLsb' 8 8]

/-- The ISTR layout (R40, R102): CTR 15, RESET 10, SOF 9, the completion code 4:0, every other bit zero. -/
def istrWord (sof reset ctr : Bool) (code : BitVec 5) : Half :=
  BitVec.ofBool ctr ++ (0#4 ++ (BitVec.ofBool reset ++ (BitVec.ofBool sof ++ (0#4 ++ code))))

/-- The endpoint number of `Cap[k + 1]`, 1 to 7. -/
def capEp (k : Cap) : Fin 8 := k.succ

/-- The capability of a non-zero endpoint number (R251, R252). -/
def capOf (ep : BitVec 3) : Cap := ⟨ep.toNat - 1, by omega⟩

/-- The low three bits of a completion code of `Cap[k + 1]` (R101). -/
def capBits (k : Cap) : BitVec 3 := BitVec.ofNat 3 (k.val + 1)

/-- What the decoder reads: a format, the bytes as the hardware stores them, and CHEPR[0].SETUP, on which the two
rows of code 16 depend (R110, R181). -/
structure EventWord where
  format : Format
  bytes : List Byte
  setup : Bool
  deriving DecidableEq, Repr

/-- Why a word decodes to no event. -/
inductive Reject where
  /-- an ISTR value with none of the three cause bits (R240: nothing is served) -/
  | noCause
  /-- a completion-code byte with a bit above bit 4: no CC5 value (R101) -/
  | wideCode
  /-- a SETUP packet of fewer than 8 bytes (R112, R184) -/
  | shortSetup
  /-- a register value or a code of another size -/
  | wrongSize
  deriving DecidableEq, Repr

/-- The ISTR rows (R110): the first of SOF, RESET, CTR that is set; the other bits stay operands. -/
def decodeIstr (v : Half) : Except Reject Instr :=
  let code := v.extractLsb' 0 5
  if v.getLsbD 9 then .ok (.irqSof (v.getLsbD 10) (v.getLsbD 15) code)
  else if v.getLsbD 10 then .ok (.irqReset (v.getLsbD 15) code)
  else if v.getLsbD 15 then .ok (.irqCtr code)
  else .error .noCause

/-- The CC5 rows (R101, R110). -/
def decodeCc5 (c : BitVec 5) (setup : Bool) : Instr :=
  let ep := c.extractLsb' 0 3
  let rx := c.getLsbD 4
  if c.getLsbD 3 then .ctrUndispatchable rx ep
  else if ep = 0#3 then
    if rx then (if setup then .ctrEp0RxSetup else .ctrEp0RxOut) else .ctrEp0Tx
  else if rx then .ctrCapRx (capOf ep) else .ctrCapTx (capOf ep)

/-- The SETUP8 rows (R110, R185): both bytes of the pair are compared whole (R111). -/
def decodeHeader (h : SetupHeader) : Instr :=
  if h.requestType = 0x80#8 ∧ h.request = 0x00#8 then .getStatus h.valueLo h.valueHi h.index h.length
  else if h.requestType = 0x00#8 ∧ h.request = 0x05#8 then .setAddress h.valueLo h.valueHi h.index h.length
  else if h.requestType = 0x80#8 ∧ h.request = 0x06#8 then
    if h.valueHi = 1#8 then .getDescriptorDevice h.valueLo h.index h.length
    else if h.valueHi = 2#8 then .getDescriptorConfig h.valueLo h.index h.length
    else if h.valueHi = 3#8 then .getDescriptorString h.valueLo h.index h.length
    else .getDescriptorOther h.valueLo h.valueHi h.index h.length
  else if h.requestType = 0x00#8 ∧ h.request = 0x09#8 then
    if h.valueLo = 0#8 then .setConfiguration0 h.valueHi h.index h.length
    else if h.valueLo = 1#8 then .setConfiguration1 h.valueHi h.index h.length
    else .setConfigurationOther h.valueLo h.valueHi h.index h.length
  else if h.requestType = 0x01#8 ∧ h.request = 0x0b#8 then .setInterface h.valueLo h.valueHi h.index h.length
  else .classDispatch h.requestType h.request h.valueLo h.valueHi h.index h.length

/-- The decoder, total on any bytes; what is no event is rejected by name. Bits of ISTR the spec does not name are
not looked at (the table's masks; log 25). -/
def decode (w : EventWord) : Except Reject Instr :=
  match w.format with
  | .istr =>
    match w.bytes with
    | [b0, b1] => decodeIstr (b1 ++ b0)
    | _ => .error .wrongSize
  | .cc5 =>
    match w.bytes with
    | [b] => if b.extractLsb' 5 3 = 0#3 then .ok (decodeCc5 (b.extractLsb' 0 5) w.setup) else .error .wideCode
    | _ => .error .wrongSize
  | .setup8 =>
    match parseBytes w.bytes with
    | some h => .ok (decodeHeader h)
    | none => .error .shortSetup

/-- The header a SETUP8 event stands for (R110): the bytes its row fixes and its operands. `none` for the other
formats. -/
def Instr.header? : Instr → Option SetupHeader
  | .irqSof _ _ _ => none
  | .irqReset _ _ => none
  | .irqCtr _ => none
  | .ctrEp0Tx => none
  | .ctrEp0RxSetup => none
  | .ctrEp0RxOut => none
  | .ctrCapTx _ => none
  | .ctrCapRx _ => none
  | .ctrUndispatchable _ _ => none
  | .getStatus vlo vhi idx len => some ⟨0x80#8, 0x00#8, vlo, vhi, idx, len⟩
  | .setAddress vlo vhi idx len => some ⟨0x00#8, 0x05#8, vlo, vhi, idx, len⟩
  | .getDescriptorDevice vlo idx len => some ⟨0x80#8, 0x06#8, vlo, 1#8, idx, len⟩
  | .getDescriptorConfig vlo idx len => some ⟨0x80#8, 0x06#8, vlo, 2#8, idx, len⟩
  | .getDescriptorString vlo idx len => some ⟨0x80#8, 0x06#8, vlo, 3#8, idx, len⟩
  | .getDescriptorOther vlo vhi idx len => some ⟨0x80#8, 0x06#8, vlo, vhi, idx, len⟩
  | .setConfiguration0 vhi idx len => some ⟨0x00#8, 0x09#8, 0#8, vhi, idx, len⟩
  | .setConfiguration1 vhi idx len => some ⟨0x00#8, 0x09#8, 1#8, vhi, idx, len⟩
  | .setConfigurationOther vlo vhi idx len => some ⟨0x00#8, 0x09#8, vlo, vhi, idx, len⟩
  | .setInterface vlo vhi idx len => some ⟨0x01#8, 0x0b#8, vlo, vhi, idx, len⟩
  | .classDispatch rt rq vlo vhi idx len => some ⟨rt, rq, vlo, vhi, idx, len⟩

/-- An ISTR value as the decoder reads it: two bytes, the low one first (R72). -/
def istrEvent (v : Half) : EventWord := ⟨.istr, [v.extractLsb' 0 8, v.extractLsb' 8 8], false⟩

/-- A completion code as the decoder reads it, with CHEPR[0].SETUP. -/
def codeEvent (c : BitVec 5) (setup : Bool) : EventWord := ⟨.cc5, [0#3 ++ c], setup⟩

/-- A SETUP packet as the decoder reads it. -/
def headerEvent (h : SetupHeader) : EventWord := ⟨.setup8, h.bytes, false⟩

/-- The encoder, from the tables of R100, R101 and R102. -/
def encode (i : Instr) : EventWord :=
  match i with
  | .irqSof reset ctr code => istrEvent (istrWord true reset ctr code)
  | .irqReset ctr code => istrEvent (istrWord false true ctr code)
  | .irqCtr code => istrEvent (istrWord false false true code)
  | .ctrEp0Tx => codeEvent 0#5 false
  | .ctrEp0RxSetup => codeEvent 16#5 true
  | .ctrEp0RxOut => codeEvent 16#5 false
  | .ctrCapTx k => codeEvent (0#2 ++ capBits k) false
  | .ctrCapRx k => codeEvent (2#2 ++ capBits k) false
  | .ctrUndispatchable rx low => codeEvent (BitVec.ofBool rx ++ (1#1 ++ low)) false
  | .getStatus vlo vhi idx len => headerEvent ⟨0x80#8, 0x00#8, vlo, vhi, idx, len⟩
  | .setAddress vlo vhi idx len => headerEvent ⟨0x00#8, 0x05#8, vlo, vhi, idx, len⟩
  | .getDescriptorDevice vlo idx len => headerEvent ⟨0x80#8, 0x06#8, vlo, 1#8, idx, len⟩
  | .getDescriptorConfig vlo idx len => headerEvent ⟨0x80#8, 0x06#8, vlo, 2#8, idx, len⟩
  | .getDescriptorString vlo idx len => headerEvent ⟨0x80#8, 0x06#8, vlo, 3#8, idx, len⟩
  | .getDescriptorOther vlo vhi idx len => headerEvent ⟨0x80#8, 0x06#8, vlo, vhi, idx, len⟩
  | .setConfiguration0 vhi idx len => headerEvent ⟨0x00#8, 0x09#8, 0#8, vhi, idx, len⟩
  | .setConfiguration1 vhi idx len => headerEvent ⟨0x00#8, 0x09#8, 1#8, vhi, idx, len⟩
  | .setConfigurationOther vlo vhi idx len => headerEvent ⟨0x00#8, 0x09#8, vlo, vhi, idx, len⟩
  | .setInterface vlo vhi idx len => headerEvent ⟨0x01#8, 0x0b#8, vlo, vhi, idx, len⟩
  | .classDispatch rt rq vlo vhi idx len => headerEvent ⟨rt, rq, vlo, vhi, idx, len⟩

/-- The mnemonic of an event in spec/opcode_table.json. -/
def Instr.mnemonic : Instr → String
  | .irqSof _ _ _ => "IRQ_SOF"
  | .irqReset _ _ => "IRQ_RESET"
  | .irqCtr _ => "IRQ_CTR"
  | .ctrEp0Tx => "CTR_EP0_TX"
  | .ctrEp0RxSetup => "CTR_EP0_RX_SETUP"
  | .ctrEp0RxOut => "CTR_EP0_RX_OUT"
  | .ctrCapTx _ => "CTR_CAP_TX"
  | .ctrCapRx _ => "CTR_CAP_RX"
  | .ctrUndispatchable _ _ => "CTR_UNDISPATCHABLE"
  | .getStatus _ _ _ _ => "GET_STATUS"
  | .setAddress _ _ _ _ => "SET_ADDRESS"
  | .getDescriptorDevice _ _ _ => "GET_DESCRIPTOR_DEVICE"
  | .getDescriptorConfig _ _ _ => "GET_DESCRIPTOR_CONFIG"
  | .getDescriptorString _ _ _ => "GET_DESCRIPTOR_STRING"
  | .getDescriptorOther _ _ _ _ => "GET_DESCRIPTOR_OTHER"
  | .setConfiguration0 _ _ _ => "SET_CONFIGURATION_0"
  | .setConfiguration1 _ _ _ => "SET_CONFIGURATION_1"
  | .setConfigurationOther _ _ _ _ => "SET_CONFIGURATION_OTHER"
  | .setInterface _ _ _ _ => "SET_INTERFACE"
  | .classDispatch _ _ _ _ _ _ => "CLASS_DISPATCH"

/-- A row of spec/opcode_table.json: its format, match and mask, and the condition on CHEPR[0].SETUP that the two
rows of code 16 carry. -/
structure TableRow where
  mnemonic : String
  format : Format
  value : BitVec 64
  mask : BitVec 64
  setup : Option Bool
  deriving DecidableEq, Repr

/-- The ISTR and CC5 rows of spec/opcode_table.json, in priority order. -/
def tableInterrupt : List TableRow :=
  [⟨"IRQ_SOF", .istr, 0x0200#64, 0x0200#64, none⟩,
   ⟨"IRQ_RESET", .istr, 0x0400#64, 0x0400#64, none⟩,
   ⟨"IRQ_CTR", .istr, 0x8000#64, 0x8000#64, none⟩,
   ⟨"CTR_EP0_TX", .cc5, 0x00#64, 0x1F#64, none⟩,
   ⟨"CTR_EP0_RX_SETUP", .cc5, 0x10#64, 0x1F#64, some true⟩,
   ⟨"CTR_EP0_RX_OUT", .cc5, 0x10#64, 0x1F#64, some false⟩,
   ⟨"CTR_CAP_TX", .cc5, 0x00#64, 0x18#64, none⟩,
   ⟨"CTR_CAP_RX", .cc5, 0x10#64, 0x18#64, none⟩,
   ⟨"CTR_UNDISPATCHABLE", .cc5, 0x08#64, 0x08#64, none⟩]

/-- The SETUP8 rows of spec/opcode_table.json, in priority order. -/
def tableRequest : List TableRow :=
  [⟨"GET_STATUS", .setup8, 0x0080#64, 0xFFFF#64, none⟩,
   ⟨"SET_ADDRESS", .setup8, 0x0500#64, 0xFFFF#64, none⟩,
   ⟨"GET_DESCRIPTOR_DEVICE", .setup8, 0x01000680#64, 0xFF00FFFF#64, none⟩,
   ⟨"GET_DESCRIPTOR_CONFIG", .setup8, 0x02000680#64, 0xFF00FFFF#64, none⟩,
   ⟨"GET_DESCRIPTOR_STRING", .setup8, 0x03000680#64, 0xFF00FFFF#64, none⟩,
   ⟨"GET_DESCRIPTOR_OTHER", .setup8, 0x0680#64, 0xFFFF#64, none⟩,
   ⟨"SET_CONFIGURATION_0", .setup8, 0x000900#64, 0xFFFFFF#64, none⟩,
   ⟨"SET_CONFIGURATION_1", .setup8, 0x010900#64, 0xFFFFFF#64, none⟩,
   ⟨"SET_CONFIGURATION_OTHER", .setup8, 0x0900#64, 0xFFFF#64, none⟩,
   ⟨"SET_INTERFACE", .setup8, 0x0B01#64, 0xFFFF#64, none⟩,
   ⟨"CLASS_DISPATCH", .setup8, 0x0#64, 0x0#64, none⟩]

/-- Whether a row matches a word of a format, with CHEPR[0].SETUP as given. -/
def TableRow.hits (r : TableRow) (f : Format) (bits : BitVec 64) (setup : Bool) : Bool :=
  decide (r.format = f) && decide (bits &&& r.mask = r.value) &&
    (match r.setup with
     | none => true
     | some b => decide (b = setup))

/-- "Matching is by priority: within a format the first row that matches wins" (R110). -/
def tableMnemonic (f : Format) (bits : BitVec 64) (setup : Bool) : Option String :=
  ((tableInterrupt ++ tableRequest).find? (fun r => r.hits f bits setup)).map TableRow.mnemonic

/-- The format and the byte count of a table row of `nbits` bits. -/
def tableFormat (nbits : Nat) : Option (Format × Nat) :=
  if nbits ≤ 8 then some (.cc5, 1)
  else if nbits ≤ 16 then some (.istr, 2)
  else if nbits ≤ 64 then some (.setup8, 8)
  else none

/-- The bytes of a table word as the hardware stores them, read as a word of its row's format. Code 16 is read with
CHEPR[0].SETUP = 1, the row of higher priority (log 16). -/
def tableEvent (nbits w : Nat) : Option EventWord :=
  (tableFormat nbits).map fun p => ⟨p.1, leBytes p.2 w, true⟩

/-- The instruction the decoder reads from a word of spec/opcode_table.json. -/
def decodeTableWord (nbits w : Nat) : Option Instr :=
  match tableEvent nbits w with
  | none => none
  | some e =>
    match decode e with
    | .ok i => some i
    | .error _ => none

end Sys2Proof
end

