-- ==== Sys2Proof/Machine/State.lean ====
section
/-! DEFINITION. The state of USBCTL-CORE (spec/10_state.md), the environment's input held as plain data
(event-script lines, interleaved link-agent moves, ORACLE lines), the reasons a step can stop, and the state after
power-on reset (R65, R66). INVENTORY.md lists every field with its rule. -/

namespace Sys2Proof.Machine

/-- Why the machine stops with a fault. -/
inductive Fault where
  /-- An access of the link agent touches a byte at or beyond `SRAM_BYTES` (R71: "the spec gives it no meaning";
  spec/93 U16). Raised by `step` on a script line `LINK SETUP`, `LINK OUT` or `LINK IN`. Safe. -/
  | sramRange
  deriving DecidableEq, Repr

/-- Why a step has no meaning. -/
inductive Refusal where
  /-- An instruction that has no meaning yet; raised by `exec` only. Safe. -/
  | notModelled (mnemonic : String)
  /-- An ORACLE line whose `Tx` answer is longer than `MAX_DATA_LEN` (R132, spec/93 U17). Raised by `step` on the
  line. Safe. -/
  | dataTooLong
  /-- An ORACLE line that makes a capability ask for an illegal RX block size (R163, spec/93 U2). Raised by `step` on
  the line. Safe. -/
  | rxBlockSize
  /-- An ORACLE line that makes a collaborator store outside the SRAM (R71), or break the contract of R322 (spec/93 U19,
  U20): a store in the three regions, an operation of the Descriptor Provider, a completion handler that does not clear
  its flag. DESIGN CHOICE (log 12): the spec leaves the latter outside its claims. Raised by `step` on the line. Safe. -/
  | collaboratorContract
  /-- The link agent would use an RX descriptor that holds the reserved code (0, 0) (R106, spec/93 U10). Raised by
  `step` on a script line `LINK SETUP` or `LINK OUT`. Safe. -/
  | reservedRxCode
  /-- The word at the current position decodes to no event although the position calls for one. Raised by `step`; no
  state reaches it. Safe. -/
  | undecodable
  deriving DecidableEq, Repr

/-- The five error classes (R300). -/
inductive ErrorClass where
  | shortSetup
  | unsupported
  | lenMismatch
  | predicateFail
  | badCode
  deriving DecidableEq, Repr

/-- A direction of an endpoint (R19): TX is device to host. -/
inductive Dir where
  | tx
  | rx
  deriving DecidableEq, Repr

/-- The moves of the link agent (R272 to R278). -/
inductive LinkMove where
  | setupPacket (bytes : List Byte)
  | outPacket (bytes : List Byte)
  | inPacket
  | inStall
  | outStall
  | reset
  | sof
  | ext (k : Cap) (dir : Dir)
  deriving DecidableEq, Repr

/-- `WireEvent` (R57). -/
inductive WireEvent where
  | setupAck (bytes : List Byte)
  | outAck (bytes : List Byte)
  | inData (bytes : List Byte)
  | inStall
  | outStall
  deriving DecidableEq, Repr

/-- The record of targets of `EpUpdate` (R155); an absent target leaves its field alone. -/
structure EpReq where
  statrx : Option (BitVec 2) := none
  stattx : Option (BitVec 2) := none
  dtogrx : Option Bool := none
  dtogtx : Option Bool := none
  ea : Option (BitVec 4) := none
  utype : Option (BitVec 2) := none
  clrRx : Bool := false
  clrTx : Bool := false
  deriving DecidableEq, Repr

/-- What a capability may do to its own endpoint during a call (R322 (d)). -/
inductive CapOp where
  | update (req : EpReq)
  | setTx (off count : Half)
  | setRx (off : Half) (size : Nat)
  | store (address : Nat) (bytes : List Byte)
  deriving DecidableEq, Repr

/-- A call of a collaborator with its arguments (R60, R226, R227). -/
inductive Call where
  | device
  | config (h : SetupHeader)
  | string (idx : Byte)
  | init (k : Cap)
  | sof (k : Cap)
  | txHandler (k : Cap)
  | rxHandler (k : Cap)
  | wanted (k : Cap) (h : SetupHeader)
  | handler (k : Cap) (h : SetupHeader)
  | txDone (t : ExtTok) (h : SetupHeader)
  | rxDone (t : ExtTok)
  deriving DecidableEq, Repr

/-- Which collaborator function an ORACLE line fixes (R117): a call without its arguments. -/
inductive Site where
  | device
  | config
  | string
  | init (k : Cap)
  | sof (k : Cap)
  | txHandler (k : Cap)
  | rxHandler (k : Cap)
  | wanted (k : Cap)
  | handler (k : Cap)
  | txDone (t : ExtTok)
  | rxDone (t : ExtTok)
  deriving DecidableEq, Repr

/-- How a fixed collaborator function behaves: its answer (`result` or `verdict`) and the operations it performs on
an endpoint of a capability; what is `none` stays a free value (log 10, log 11). `owner` names the capability whose
endpoint the operations of a completion token act on; a call of `Cap[k]` acts on its own. -/
structure Behaviour where
  result : Option Answer := none
  verdict : Option Bool := none
  owner : Cap := 0
  ops : Option (List CapOp) := none
  deriving DecidableEq, Repr

/-- An ORACLE line (R17, R117). -/
structure Oracle where
  site : Site
  behaviour : Behaviour
  deriving DecidableEq, Repr

/-- A line of the event-script (R17, R117). `pick` names the slot ISTR is to report when it is pending, one choice of
`CTR_PICK` (log 7). -/
inductive ScriptLine where
  | link (m : LinkMove)
  | dispatch
  | init
  | por
  | oracle (o : Oracle)
  | pick (code : Option (BitVec 5))
  deriving DecidableEq, Repr

/-- Where one dispatcher invocation stands (R32, R240). `causes v`: `v` is the latched ISTR value, less the causes
already served. `code c`: the loop body of completion code `c`. `request h`: the header `h` is to be classified
(R185). `reread`: ISTR is to be read again (R241). -/
inductive Pos where
  | idle
  | causes (v : Half)
  | code (c : BitVec 5)
  | request (h : SetupHeader)
  | reread
  deriving DecidableEq, Repr

/-- ControlState, the eight fields of R20. -/
structure ControlState where
  setup : Option SetupHeader
  txTail : Option (List Byte)
  txTailCb : TxTok
  short : Bool
  pendingAddr : Option (BitVec 7)
  configured : Bool
  rxCb : RxTok
  postAckCb : TxTok
  deriving DecidableEq, Repr

/-- The cleared ControlState (R65). -/
def ControlState.cleared : ControlState where
  setup := none
  txTail := none
  txTailCb := .none
  short := false
  pendingAddr := none
  configured := false
  rxCb := .none
  postAckCb := .none

/-- The state of the machine and of its environment. Field by field in INVENTORY.md. -/
structure State where
  cs : ControlState
  chepr : Vector Half 8
  istrReset : Bool
  istrSof : Bool
  cntr : Half
  daddr : Byte
  sram : List Host.Cell
  rxUnsettled : Bool
  pos : Pos
  any : Bool
  returned : Option Bool
  wire : List WireEvent
  calls : List Call
  errors : List ErrorClass
  script : List ScriptLine
  windows : List (List LinkMove)
  oracles : List Oracle
  pick : Option (BitVec 5)
  badCode : Option (BitVec 5)
  params : Params
  tick : Nat
  eraBoot : Nat
  eraExt : Nat
  deriving DecidableEq, Repr

/-- The state after power-on reset: R65, R66, R342; the model's own fields as logs 5, 18 and 24 say. -/
def State.reset : State where
  cs := ControlState.cleared
  chepr := Vector.replicate 8 0#16
  istrReset := false
  istrSof := false
  cntr := 0#16
  daddr := 0#8
  sram := []
  rxUnsettled := false
  pos := .idle
  any := false
  returned := none
  wire := []
  calls := []
  errors := []
  script := []
  windows := []
  oracles := []
  pick := none
  badCode := none
  params := Params.default
  tick := 0
  eraBoot := 0
  eraExt := 0

end Sys2Proof.Machine
end

