-- ==== Sys2Proof/Machine/Flags.lean ====
section
/-! DEFINITION. The flags and fields of CHEPR (R35, R36, R37), what a CHEPR write does (R151 to R153), the values
`EpUpdate` writes (R155), and the flags of ISTR that are derived from the complete flags (R41). -/

namespace Sys2Proof.Machine

/-- Status codes (R36). -/
def stDisabled : BitVec 2 := 0#2
/-- The direction answers with the stall handshake (R36). -/
def stStall : BitVec 2 := 1#2
/-- The direction answers "not ready yet" (R36). -/
def stNak : BitVec 2 := 2#2
/-- The direction will complete the next transaction (R36). -/
def stValid : BitVec 2 := 3#2

namespace Chepr

/-- RX transaction complete, bit 15 (R35). -/
def vtrx (v : Half) : Bool := v.getLsbD 15
/-- RX data toggle, bit 14 (R35). -/
def dtogrx (v : Half) : Bool := v.getLsbD 14
/-- RX status code, bits 13:12 (R35). -/
def statrx (v : Half) : BitVec 2 := v.extractLsb' 12 2
/-- Last completed RX transaction was a SETUP, bit 11 (R35, R37). -/
def setup (v : Half) : Bool := v.getLsbD 11
/-- Endpoint type, bits 10:9 (R35). -/
def utype (v : Half) : BitVec 2 := v.extractLsb' 9 2
/-- Bit 8, preserved on every write (R35). -/
def epkind (v : Half) : Bool := v.getLsbD 8
/-- TX transaction complete, bit 7 (R35). -/
def vttx (v : Half) : Bool := v.getLsbD 7
/-- TX data toggle, bit 6 (R35). -/
def dtogtx (v : Half) : Bool := v.getLsbD 6
/-- TX status code, bits 5:4 (R35). -/
def stattx (v : Half) : BitVec 2 := v.extractLsb' 4 2
/-- Endpoint address, bits 3:0 (R35). -/
def ea (v : Half) : BitVec 4 := v.extractLsb' 0 4

/-- The register value with the given fields (R35). -/
def pack (vtrx dtogrx : Bool) (statrx : BitVec 2) (setup : Bool) (utype : BitVec 2) (epkind vttx dtogtx : Bool)
    (stattx : BitVec 2) (ea : BitVec 4) : Half :=
  BitVec.ofBool vtrx ++ (BitVec.ofBool dtogrx ++ (statrx ++ (BitVec.ofBool setup ++ (utype ++
    (BitVec.ofBool epkind ++ (BitVec.ofBool vttx ++ (BitVec.ofBool dtogtx ++ (stattx ++ ea))))))))

/-- Plain read/write bits `M_RW` (R153). -/
def maskRw : Half := 0x070F#16
/-- Toggle bits `M_TOG` (R153). -/
def maskTog : Half := 0x7070#16
/-- Complete flags `M_VT` (R153). -/
def maskVt : Half := 0x8080#16
/-- Read-only bit `M_RO` (R153). -/
def maskRo : Half := 0x0800#16

/-- What a register holding `old` holds after `w` is written to it (R151, R152, R153). -/
def write (old w : Half) : Half :=
  (w &&& maskRw) ||| ((old ^^^ w) &&& maskTog) ||| ((old &&& w) &&& maskVt) ||| (old &&& maskRo)

/-- The value `EpUpdate` writes for the targets `req` when it has read `v` (R155): deltas in the toggle fields, the
plain fields copied back or set, 1 in a complete flag that is not to be cleared. DESIGN CHOICE (log 30): a plain field
without a target is copied back as it was read, also where a bus reset has changed it before the write. -/
def deltas (v : Half) (req : EpReq) : Half :=
  pack (!req.clrRx)
    (match req.dtogrx with | some t => dtogrx v ^^ t | none => false)
    (match req.statrx with | some t => statrx v ^^^ t | none => 0#2)
    false
    (req.utype.getD (utype v))
    (epkind v)
    (!req.clrTx)
    (match req.dtogtx with | some t => dtogtx v ^^ t | none => false)
    (match req.stattx with | some t => stattx v ^^^ t | none => 0#2)
    (req.ea.getD (ea v))

/-- The register after the link agent accepted a SETUP packet (R272). -/
def afterSetup (v : Half) : Half :=
  pack true true stNak true (utype v) (epkind v) (vttx v) true stNak (ea v)

/-- The register after the link agent completed an RX transaction that is not a SETUP on endpoint 0 (R273). -/
def afterOut (v : Half) : Half :=
  pack true (!dtogrx v) stNak false (utype v) (epkind v) (vttx v) (dtogtx v) (stattx v) (ea v)

/-- The register after the link agent completed a TX transaction (R274, R278). -/
def afterIn (v : Half) : Half :=
  pack (vtrx v) (dtogrx v) (statrx v) (setup v) (utype v) (epkind v) true (!dtogtx v) stNak (ea v)

/-- The register after the link agent completed an RX transaction on an endpoint 1 to 7 (R278). -/
def afterExtRx (v : Half) : Half :=
  pack true (!dtogrx v) stNak (setup v) (utype v) (epkind v) (vttx v) (dtogtx v) (stattx v) (ea v)

/-- The register of a capability's endpoint after any number of `EpUpdate`s (R322 (d), R155): EA, UTYPE, status and
toggles take any value, a complete flag may only fall (R152), SETUP (R153) and EPKIND (R35, R155) stay. `clrRx`, `clrTx`:
the flag the contract makes it clear (R322 (e)). -/
def afterCapability (old free : Half) (clrRx clrTx : Bool) : Half :=
  pack (vtrx old && vtrx free && !clrRx) (dtogrx free) (statrx free) (setup old) (utype free) (epkind old)
    (vttx old && vttx free && !clrTx) (dtogtx free) (stattx free) (ea free)

end Chepr

/-- The RX slots, then the TX slots, that have completed and not been served, each by its completion code (R41,
R101): `n` for TX of endpoint `n`, `16 + n` for RX. -/
def pendingSlots (s : State) : List (BitVec 5) :=
  ((List.finRange 8).filter (fun n => Chepr.vtrx s.chepr[n])).map (fun n => BitVec.ofNat 5 (16 + n.val)) ++
  ((List.finRange 8).filter (fun n => Chepr.vttx s.chepr[n])).map (fun n => BitVec.ofNat 5 n.val)

/-- The slot reported among several (`CTR_PICK`, R41): the one the run names if it is pending, else a free choice
(log 7). -/
def pickSlot (pick : Option (BitVec 5)) (tick : Nat) (first : BitVec 5) (rest : List (BitVec 5)) : BitVec 5 :=
  match pick with
  | some c => if c ∈ first :: rest then c else (first :: rest).getD (Config.freePick tick % (rest.length + 1)) first
  | none => (first :: rest).getD (Config.freePick tick % (rest.length + 1)) first

/-- The completion code ISTR shows, `none` when CTR is 0 (R41). A forced code stands before the derived one (R253,
spec/93 U5; log 15). -/
def reportedCode (s : State) : Option (BitVec 5) :=
  match s.badCode with
  | some c => some c
  | none =>
    match pendingSlots s with
    | [] => none
    | [c] => some c
    | c :: d :: rest => some (pickSlot s.pick s.tick c (d :: rest))

/-- The sixteen low bits of ISTR (R40, R41). -/
def istrValue (s : State) : Half :=
  istrWord s.istrSof s.istrReset (reportedCode s).isSome ((reportedCode s).getD 0#5)

/-- The interrupt line (R311). -/
def irq (s : State) : Bool := decide (istrValue s &&& s.cntr &&& Config.irqMask ≠ 0#16)

/-- The code the spec gives an error class (R300). -/
def ErrorClass.code : ErrorClass → Nat
  | .shortSetup => 1
  | .unsupported => 2
  | .lenMismatch => 3
  | .predicateFail => 4
  | .badCode => 5

end Sys2Proof.Machine
end

