-- ==== Sys2Proof/Machine/Operands.lean ====
section
/-! DEFINITION. How operands and descriptor words are assembled (R103 to R107), the result constructors and the
classification of a result (R132 to R135), and the operands of the requests (R105). -/

namespace Sys2Proof.Machine

/-- `TXBD` (R103): count in the high half, offset in the low half. -/
def txbdWord (off count : Half) : Word := count ++ off

/-- The offset and the count of a TX descriptor (R103). -/
def txbdFields (d : Word) : Half × Half := (d.extractLsb' 0 16, d.extractLsb' 16 16)

/-- `RXBD` (R104): BL 31, NB 30:26, COUNT 25:16, offset 15:0. -/
def rxbdWord (bl : Bool) (nb : BitVec 5) (count : BitVec 10) (off : Half) : Word :=
  BitVec.ofBool bl ++ (nb ++ (count ++ off))

/-- The block-size class of an RX descriptor (R104). -/
def rxbdBl (d : Word) : Bool := d.getLsbD 31
/-- The block number of an RX descriptor (R104). -/
def rxbdNb (d : Word) : BitVec 5 := d.extractLsb' 26 5
/-- The received count of an RX descriptor (R104, R107). -/
def rxbdCount (d : Word) : BitVec 10 := d.extractLsb' 16 10
/-- The offset of an RX descriptor (R104). -/
def rxbdOff (d : Word) : Half := d.extractLsb' 0 16

/-- `RxCode(size)` (R106); `none` is the spec's "illegal: refuse" (R163). -/
def rxCode (size : Nat) : Option (Bool × BitVec 5) :=
  if size % 2 = 0 ∧ 2 ≤ size ∧ size ≤ 62 then some (false, BitVec.ofNat 5 (size / 2))
  else if size % 32 = 0 ∧ 64 ≤ size ∧ size ≤ 1024 then some (true, BitVec.ofNat 5 (size / 32 - 1))
  else if size = 1023 then some (true, 31#5)
  else none

/-- The capacity in bytes of a block-size code (R106); the reserved code (0, 0) has none. -/
def rxCapacity (bl : Bool) (nb : BitVec 5) : Option Nat :=
  if bl then (if nb = 31#5 then some 1023 else some (32 * (nb.toNat + 1)))
  else if nb = 0#5 then none else some (2 * nb.toNat)

/-- `MkTx` (R132); `none` is the spec's refusal of data longer than `MAX_DATA_LEN`. -/
def mkTx (data : List Byte) (cb : TxTok) : Option SetupResult :=
  if data.length ≤ Config.maxDataLen then some (.tx data cb) else none

/-- `MkRx` (R133). -/
def mkRx (n : Half) (cb : RxTok) : SetupResult := .rx n cb

/-- `MkError` (R134): the canonical error value `ERROR` (R16), the default of its type. -/
def mkError : SetupResult := .rx 0#16 .none

/-- R59, R134: the default value of `SetupResult` is `Rx(0, NONE)`. -/
theorem default_setupResult : (default : SetupResult) = mkError := rfl

/-- `ACK` (R16, R132). -/
def ack : SetupResult := .tx [] .none

/-- The classes of R135. -/
inductive ResultClass where
  | transmit
  | receive
  | error
  deriving DecidableEq, Repr

/-- The classification of a result against a header (R135). -/
def classifyResult (res : SetupResult) (h : SetupHeader) : ResultClass :=
  match res with
  | .tx _ _ => .transmit
  | .rx n _ => if n = h.length ∧ n ≠ 0#16 then .receive else .error

/-- A collaborator's token as the token of a `Tx` result (R27). -/
def txTokOf : Option ExtTok → TxTok
  | none => .none
  | some t => .ext t

/-- A collaborator's token as the predicate of an `Rx` result (R27). -/
def rxTokOf : Option ExtTok → RxTok
  | none => .none
  | some t => .ext t

/-- A collaborator's answer as a `SetupResult` (R59, R60). -/
def resultOf : Answer → SetupResult
  | .tx data tok => .tx data (txTokOf tok)
  | .rx n tok => .rx n (rxTokOf tok)

/-- The device address operand (R105, R187): the low seven bits of `value_lo`. -/
def addressOperand (vlo : Byte) : BitVec 7 := vlo.extractLsb' 0 7

/-- The DADDR value of an address (R107): the enable bit above the address. -/
def daddrOf (a : BitVec 7) : Byte := 1#1 ++ a

/-- The function-enable bit of DADDR (R45). -/
def daddrEf (d : Byte) : Bool := d.getLsbD 7

/-- The address field of DADDR (R45). -/
def daddrAdd (d : Byte) : BitVec 7 := d.extractLsb' 0 7

end Sys2Proof.Machine
end

