-- ==== Sys2Proof/Machine/Port.lean ====
section
/-! DEFINITION. The two memories without any interleaving: the SRAM as a canonical list of cells (R52, R71 to R75),
what CORE sees of it while `rx_unsettled` is set (R95), and the register port (R34, R42, R43, R45, R54, R81). -/

namespace Sys2Proof.Machine

namespace Sram

/-- The listed byte at an address. -/
def find : List Host.Cell → Nat → Option Byte
  | [], _ => none
  | (x, b) :: m, a => if x = a then some b else find m a

/-- Store one byte, keeping the addresses strictly rising. -/
def put : List Host.Cell → Nat → Byte → List Host.Cell
  | [], a, b => [(a, b)]
  | (x, c) :: m, a, b =>
    if a < x then (a, b) :: (x, c) :: m
    else if a = x then (a, b) :: m
    else (x, c) :: put m a b

/-- The canonical form: addresses strictly rising. An unlisted address holds an unspecified byte, so no listed entry
can equal "what an unlisted address reads as" (log 8). -/
def wf : List Host.Cell → Bool
  | [] => true
  | [_] => true
  | (x, _) :: (y, c) :: m => decide (x < y) && wf ((y, c) :: m)

/-- Every listed address lies below `n` (R71). -/
def below (n : Nat) (m : List Host.Cell) : Bool := m.all fun c => decide (c.1 < n)

end Sram

/-- The buffer-descriptor table, SRAM bytes 0 to 63 (R48). -/
def inTable (a : Nat) : Bool := decide (a < 64)

/-- The control RX buffer (R52). -/
def inRxBuffer (p : Params) (a : Nat) : Bool := decide (p.ep0RxOff ≤ a ∧ a < p.ep0RxOff + 64)

/-- The control TX buffer (R52). -/
def inTxBuffer (p : Params) (a : Nat) : Bool := decide (p.ep0TxOff ≤ a ∧ a < p.ep0TxOff + 64)

/-- The three regions of R52. -/
def inRegions (p : Params) (a : Nat) : Bool := inTable a || inRxBuffer p a || inTxBuffer p a

/-- The byte an SRAM address holds; an unlisted one holds an unspecified byte (R66; log 8). -/
def storedByte (s : State) (a : Nat) : Byte :=
  match Sram.find s.sram a with
  | some b => b
  | none => if inRegions s.params a then Config.freeBoot s.eraBoot a else Config.freeExt s.eraExt a

/-- `n` stored bytes from `a`. -/
def storedBytes (s : State) : Nat → Nat → List Byte
  | _, 0 => []
  | a, n + 1 => storedByte s a :: storedBytes s (a + 1) n

/-- The 32-bit word stored at `a` (R72), as the link agent reads a descriptor (R270). -/
def storedWord (s : State) (a : Nat) : Word := BitVec.ofNat 32 (leSum (storedBytes s a 4))

/-- What CORE reads at an address (R95): a draw in the RX buffer and in RXBD[0] while `rx_unsettled` is set, the
stored byte otherwise. -/
def coreByte (s : State) (a : Nat) : Byte :=
  if s.rxUnsettled && (inRxBuffer s.params a || decide (4 ≤ a ∧ a < 8)) then Config.freeRead s.tick a
  else storedByte s a

/-- `MemReadBytes(a, k)` (R73). -/
def memReadBytes (s : State) : Nat → Nat → List Byte
  | _, 0 => []
  | a, n + 1 => coreByte s a :: memReadBytes s (a + 1) n

/-- `MemRead(a, n)` (R72). -/
def memRead (s : State) (a n : Nat) : Nat := leSum (memReadBytes s a n)

/-- Store one byte of SRAM. -/
def putByte (a : Nat) (b : Byte) (s : State) : State := { s with sram := Sram.put s.sram a b }

/-- Store a byte sequence (R73). -/
def putBytes : Nat → List Byte → State → State
  | _, [], s => s
  | a, b :: l, s => putBytes (a + 1) l (putByte a b s)

/-- SRAM address of `TXBD[n]` (R48); `BTABLE_OFF` is 0 (R11). -/
def txbdAddr (n : Fin 8) : Nat := 8 * n.val

/-- SRAM address of `RXBD[n]` (R48). -/
def rxbdAddr (n : Fin 8) : Nat := 8 * n.val + 4

/-- The eleven registers (R34). -/
inductive Reg where
  | chepr (n : Fin 8)
  | istr
  | cntr
  | daddr
  deriving DecidableEq, Repr

/-- `RegRead` (R15, R34): bits 31:16 read zero, unnamed bits of CNTR read zero (R112). -/
def peekReg (r : Reg) (s : State) : Word :=
  match r with
  | .chepr n => 0#16 ++ s.chepr[n]
  | .istr => 0#16 ++ istrValue s
  | .cntr => 0#16 ++ (s.cntr &&& Config.irqMask)
  | .daddr => 0#24 ++ s.daddr

/-- `RegWrite` (R15): the CHEPR write (R153), write-1-to-clear ISTR (R42), plain CNTR and DADDR whose unnamed bits
ignore writes (R34, R43, R45, R112). -/
def pokeReg (r : Reg) (w : Word) (s : State) : State :=
  match r with
  | .chepr n => { s with chepr := s.chepr.set n (Chepr.write s.chepr[n] (w.extractLsb' 0 16)) }
  | .istr => { s with istrReset := s.istrReset && !w.getLsbD 10, istrSof := s.istrSof && !w.getLsbD 9 }
  | .cntr => { s with cntr := w.extractLsb' 0 16 &&& Config.irqMask }
  | .daddr => { s with daddr := w.extractLsb' 0 8 }

/-- Set the position inside the invocation. -/
def setPos (p : Pos) (s : State) : State := { s with pos := p }

end Sys2Proof.Machine
end

