-- ==== Sys2Proof/Machine/Link.lean ====
section
/-! DEFINITION. The moves of the link agent (spec/45_link_agent.md), with their preconditions, and what a draw of the
SRAM outside the three regions does. -/

namespace Sys2Proof.Machine

/-- What becomes of an attempted move: it is done, its precondition does not hold and it is no move, or it needs an
access or a descriptor the spec refuses (R71, R106). -/
inductive LinkResult where
  | done (s : State)
  | notEnabled
  | fault (f : Fault)
  | refused (r : Refusal)
  deriving DecidableEq, Repr

/-- Every SRAM byte outside the three regions becomes unspecified (R278, R322 (d)). -/
def drawOutside (s : State) : State :=
  { s with sram := s.sram.filter (fun c => inRegions s.params c.1), eraExt := s.eraExt + 1 }

/-- Write the COUNT field of `RXBD[n]`, and no other bit of it (R272, R273). -/
def setRxCount (n : Fin 8) (count : Nat) (s : State) : State :=
  putByte (rxbdAddr n + 3)
    ((storedByte s (rxbdAddr n + 3) &&& 0xFC#8) ||| (BitVec.ofNat 8 (count / 256) &&& 0x03#8))
    (putByte (rxbdAddr n + 2) (BitVec.ofNat 8 count) s)

/-- The COUNT field of `RXBD[n]` becomes unspecified (R278); the other bits keep their values. -/
def drawRxCount (n : Fin 8) (s : State) : State :=
  putByte (rxbdAddr n + 3)
    ((storedByte s (rxbdAddr n + 3) &&& 0xFC#8) ||| (Config.freeDesc s.eraExt (rxbdAddr n + 3) &&& 0x03#8))
    (putByte (rxbdAddr n + 2) (Config.freeDesc s.eraExt (rxbdAddr n + 2)) s)

/-- Whether an RX descriptor word holds the reserved code (0, 0) (R106, R112). -/
def rxReserved (d : Word) : Bool := !rxbdBl d && decide (rxbdNb d = 0#5)

/-- The packet's bytes and count land in the RX buffer and in `RXBD[0]`, the register changes, and the event is
logged (the operations of R272 and R273). -/
def landPacket (bytes : List Byte) (reg : Half) (e : WireEvent) (s : State) : State :=
  let off := (rxbdOff (storedWord s 4)).toNat
  let s1 := setRxCount 0 bytes.length (putBytes off bytes s)
  { s1 with chepr := s1.chepr.set 0 reg, rxUnsettled := true, wire := s1.wire ++ [e] }

/-- `landPacket`, unless the descriptor is reserved or the buffer leaves the SRAM. -/
def receivePacket (bytes : List Byte) (reg : Half) (e : WireEvent) (s : State) : LinkResult :=
  let d := storedWord s 4
  if rxReserved d then .refused .reservedRxCode
  else if (rxbdOff d).toNat + bytes.length ≤ s.params.sramBytes then .done (landPacket bytes reg e s)
  else .fault .sramRange

/-- `LinkSetup` (R272). -/
def linkSetup (bytes : List Byte) (s : State) : LinkResult :=
  let e := s.chepr[(0 : Fin 8)]
  if bytes.length ≤ 64 ∧ daddrEf s.daddr = true ∧ Chepr.statrx e ≠ stDisabled ∧ Chepr.vtrx e = false then
    receivePacket bytes (Chepr.afterSetup e) (.setupAck bytes) s
  else .notEnabled

/-- `LinkOut` (R273). -/
def linkOut (bytes : List Byte) (s : State) : LinkResult :=
  let e := s.chepr[(0 : Fin 8)]
  if bytes.length ≤ 64 ∧ daddrEf s.daddr = true ∧ Chepr.statrx e = stValid ∧ Chepr.vtrx e = false then
    receivePacket bytes (Chepr.afterOut e) (.outAck bytes) s
  else .notEnabled

/-- The bytes the armed IN packet of endpoint 0 holds: `TXBD[0]` and the SRAM as the link agent reads them (R274). -/
def armedPacket (s : State) : List Byte :=
  storedBytes s (txbdFields (storedWord s 0)).1.toNat (txbdFields (storedWord s 0)).2.toNat

/-- `LinkIn` (R274): enabled by its own precondition alone, also while CORE copies into the buffer of a packet that is still
armed (log 32). -/
def linkIn (s : State) : LinkResult :=
  let e := s.chepr[(0 : Fin 8)]
  let d := txbdFields (storedWord s 0)
  if daddrEf s.daddr = true ∧ Chepr.stattx e = stValid ∧ Chepr.vttx e = false then
    if d.1.toNat + d.2.toNat ≤ s.params.sramBytes then
      .done { s with wire := s.wire ++ [.inData (armedPacket s)], chepr := s.chepr.set 0 (Chepr.afterIn e) }
    else .fault .sramRange
  else .notEnabled

/-- `LinkInStall` (R275). -/
def linkInStall (s : State) : LinkResult :=
  if daddrEf s.daddr = true ∧ Chepr.stattx s.chepr[(0 : Fin 8)] = stStall then
    .done { s with wire := s.wire ++ [.inStall] }
  else .notEnabled

/-- `LinkOutStall` (R275). -/
def linkOutStall (s : State) : LinkResult :=
  if daddrEf s.daddr = true ∧ Chepr.statrx s.chepr[(0 : Fin 8)] = stStall then
    .done { s with wire := s.wire ++ [.outStall] }
  else .notEnabled

/-- `LinkReset` (R276, R68): the link half of a bus reset. That no transaction is enabled until `DeviceInit` has run follows
where no move lands between the accesses of CORE; under `access` a write of DADDR may enable one (log 29). -/
def linkReset (s : State) : State :=
  { s with chepr := Vector.replicate 8 0#16, daddr := 0#8, istrReset := true, rxUnsettled := false }

/-- `LinkSof` (R277). -/
def linkSof (s : State) : State := { s with istrSof := true }

/-- `LinkExt` (R278). -/
def linkExt (k : Cap) (dir : Dir) (s : State) : LinkResult :=
  let e := s.chepr[capEp k]
  match dir with
  | .tx =>
    if daddrEf s.daddr = true ∧ Chepr.stattx e = stValid ∧ Chepr.vttx e = false then
      .done { s with chepr := s.chepr.set (capEp k) (Chepr.afterIn e) }
    else .notEnabled
  | .rx =>
    if daddrEf s.daddr = true ∧ Chepr.statrx e = stValid ∧ Chepr.vtrx e = false then
      let s1 := drawRxCount (capEp k) (drawOutside s)
      .done { s1 with chepr := s1.chepr.set (capEp k) (Chepr.afterExtRx e) }
    else .notEnabled

/-- One move of the link agent (R272 to R278). -/
def linkMove (m : LinkMove) (s : State) : LinkResult :=
  match m with
  | .setupPacket bytes => linkSetup bytes s
  | .outPacket bytes => linkOut bytes s
  | .inPacket => linkIn s
  | .inStall => linkInStall s
  | .outStall => linkOutStall s
  | .reset => .done (linkReset s)
  | .sof => .done (linkSof s)
  | .ext k dir => linkExt k dir s

/-- A move that lands between two accesses of CORE: one that cannot be done is not offered (log 3, log 4). -/
def offerMove (s : State) (m : LinkMove) : State :=
  match linkMove m s with
  | .done t => t
  | .notEnabled => s
  | .fault _ => s
  | .refused _ => s

end Sys2Proof.Machine
end

