-- ==== Sys2Proof/Machine/Ops.lean ====
section
/-! DEFINITION. The named operations of CORE over memory and registers, each access with the window before it in
which the link agent may move under `GRANULARITY = access` (R96); fences and the errata delay (R93, R94); the
arbiter's and the sequencer's operations (spec/41); raising an error class (R306) and the stall (R213); interrupt
entry and return (R241, R242, R314, R315). -/

namespace Sys2Proof.Machine

/-- The moves of the link agent that land before the next access of CORE (R96): none under `handler`; under `access`
the next list of `windows`. DESIGN CHOICE (log 4): a window stands before each access, before `ErrataDelay()` and before
each collaborator call; inside a call, before each fixed operation's accesses, or once within a free effect. Every move whose
own precondition holds is offered in every window, not `LinkSetup` alone (DESIGN CHOICE; log 31). -/
def window (s : State) : State :=
  match s.params.granularity, s.windows with
  | .access, ms :: rest => ms.foldl offerMove { s with windows := rest }
  | .access, [] => s
  | .handler, _ => s

/-- No move of the link agent lands between the accesses of CORE. -/
abbrev Quiet (s : State) : Prop := s.params.granularity = .handler ∨ s.windows = []

/-- `Fence()` (R93): program order is the model's order, so it changes nothing. -/
def fence (s : State) : State := s

/-- `ErrataDelay()` (R94). -/
def errataDelay (s : State) : State := { s with rxUnsettled := false }

/-- `RegWrite` as an access of CORE. -/
def regWrite (r : Reg) (w : Word) (s : State) : State := pokeReg r w (window s)

/-- `MemWrite(a, n, v)` (R73): one access. -/
def memWrite (a n v : Nat) (s : State) : State := putBytes a (leBytes n v) (window s)

/-- `MemWriteBytes(a, l)` (R73): not atomic (R80), one access for each byte. DESIGN CHOICE (log 32): where TX is armed while
`HandleSetup` copies, under `access`, `LinkIn` is offered between the bytes, against the summing words of R80 and R89. -/
def memWriteBytes : Nat → List Byte → State → State
  | _, [], s => s
  | a, b :: l, s => memWriteBytes (a + 1) l (putByte a b (window s))

/-- `EpUpdate(n, req)` (R155): a read, then a write of the deltas computed from what was read. -/
def epUpdate (n : Fin 8) (req : EpReq) (s : State) : State :=
  let s1 := window (fence s)
  let v := peekReg (.chepr n) s1
  fence (regWrite (.chepr n) (0#16 ++ Chepr.deltas (v.extractLsb' 0 16) req) s1)

/-- `BdSetTx(n, off, count)` (R160). -/
def bdSetTx (n : Fin 8) (off count : Half) (s : State) : State :=
  memWrite (txbdAddr n) 4 (txbdWord off count).toNat s

/-- `BdSetRx(n, off, size)` (R162), `COUNT = 0`; `none` is the refusal of R163. -/
def bdSetRx (n : Fin 8) (off : Half) (size : Nat) (s : State) : Option State :=
  (rxCode size).map fun c => memWrite (rxbdAddr n) 4 (rxbdWord c.1 c.2 0#10 off).toNat s

/-- A descriptor word as CORE reads it (R79): one 32-bit access. -/
def descriptorWord (s : State) (a : Nat) : Word := BitVec.ofNat 32 (memRead s a 4)

/-- `BdTxDecode(n)` (R161): pointer and length. -/
def bdTxDecode (n : Fin 8) (s : State) : Nat × Nat :=
  let d := txbdFields (descriptorWord s (txbdAddr n))
  (s.params.sramBase + d.1.toNat, d.2.toNat)

/-- `BdRxDecode(n)` (R164): pointer and received length. -/
def bdRxDecode (n : Fin 8) (s : State) : Nat × Nat :=
  let d := descriptorWord s (rxbdAddr n)
  (s.params.sramBase + (rxbdOff d).toNat, (rxbdCount d).toNat)

/-- `BdRxCount(n)` (R165). -/
def bdRxCount (n : Fin 8) (s : State) : Nat := (bdRxDecode n s).2

/-- `ParseSetup(a)` (R130): eight bytes in one access; a draw at a misaligned address (R77; log 27). -/
def parseSetup (a : Nat) (s : State) : SetupHeader :=
  if a % 4 = 0 then (parseBytes (memReadBytes s a 8)).getD (Config.freeHeader s.tick)
  else Config.freeHeader s.tick

/-- `raise` (R15, R306): the class is recorded; nothing else happens. -/
def raise (e : ErrorClass) (s : State) : State := { s with errors := s.errors ++ [e] }

/-- The stall of R213, the resolution of `E_SHORT_SETUP` and `E_UNSUPPORTED` (R301, R302). -/
def stallBoth (s : State) : State :=
  epUpdate 0 { statrx := some stStall, stattx := some stStall, clrRx := true } s

/-- `raise Stall(class)` (R15): record the class and stall endpoint 0 in both directions. -/
def raiseStall (e : ErrorClass) (s : State) : State := stallBoth (raise e s)

/-- Interrupt entry (R240 to R242, R314): read ISTR, acknowledge the SOF and RESET bits that were read as 1, save
nothing. -/
def enterDispatch (s : State) : State :=
  let s1 := window s
  let v := peekReg .istr s1
  let s2 := regWrite .istr (0#16 ++ (v.extractLsb' 0 16 &&& Config.ackMask)) s1
  { s2 with any := false, pos := .causes (v.extractLsb' 0 16) }

/-- The re-read after a served completion (R241, R248): only CTR and the completion code of this read count. -/
def rereadIstr (s : State) : State :=
  let s1 := window s
  { s1 with pos := .causes ((peekReg .istr s1).extractLsb' 0 16 &&& 0x801F#16) }

/-- Return of the invocation with the value `r` (R258, R315); nothing is restored. -/
def returnDispatch (r : Bool) (s : State) : State := { s with pos := .idle, returned := some r }

end Sys2Proof.Machine
end

