-- ==== Sys2Proof/Machine/Collab.lean ====
section
/-! DEFINITION. The collaborators (R60, R226, R227, R322): which ORACLE lines are admitted, what a call answers, and
what it may do to the hardware state of endpoints 1 to 7. -/

namespace Sys2Proof.Machine

/-- The seven capabilities in the fixed order of R11 and R196: ascending endpoint number. -/
def allCaps : List Cap := [0, 1, 2, 3, 4, 5, 6]

/-- The function a call is made of (R117). -/
def callSite : Call → Site
  | .device => .device
  | .config _ => .config
  | .string _ => .string
  | .init k => .init k
  | .sof k => .sof k
  | .txHandler k => .txHandler k
  | .rxHandler k => .rxHandler k
  | .wanted k _ => .wanted k
  | .handler k _ => .handler k
  | .txDone t _ => .txDone t
  | .rxDone t => .rxDone t

/-- The number of a call among those that return an answer in one step, for the free answers. -/
def callNumber : Call → Nat
  | .device => 1
  | .config _ => 2
  | .string _ => 3
  | .init _ => 0
  | .sof _ => 0
  | .txHandler _ => 0
  | .rxHandler _ => 0
  | .wanted k _ => 16 + k.val
  | .handler k _ => 32 + k.val
  | .txDone _ _ => 0
  | .rxDone t => 64 + t

/-- Whether a capability may store these bytes (R322 (d)): inside the SRAM and outside the three regions. -/
def storeLegal (p : Params) (a : Nat) (bytes : List Byte) : Bool :=
  decide (a + bytes.length ≤ p.sramBytes) && (List.range bytes.length).all fun i => !inRegions p (a + i)

/-- Why an operation of a capability is refused (R163, R322 (d)), if it is. -/
def capOpFault (p : Params) : CapOp → Option Refusal
  | .update _ => none
  | .setTx _ _ => none
  | .setRx _ size => if (rxCode size).isSome then none else some .rxBlockSize
  | .store a bytes => if storeLegal p a bytes then none else some .collaboratorContract

/-- The Descriptor Provider only answers (R12 (3)). -/
def siteMayAct : Site → Bool
  | .device => false
  | .config => false
  | .string => false
  | .init _ => true
  | .sof _ => true
  | .txHandler _ => true
  | .rxHandler _ => true
  | .wanted _ => true
  | .handler _ => true
  | .txDone _ => true
  | .rxDone _ => true

/-- Why an answer is refused (R132, R322 (h)), if it is. -/
def answerFault : Answer → Option Refusal
  | .tx data _ => if data.length ≤ Config.maxDataLen then none else some .dataTooLong
  | .rx _ _ => none

/-- Whether an operation clears VTRX of its endpoint. -/
def clearsRx : CapOp → Bool
  | .update req => req.clrRx
  | .setTx _ _ => false
  | .setRx _ _ => false
  | .store _ _ => false

/-- Whether an operation clears VTTX of its endpoint. -/
def clearsTx : CapOp → Bool
  | .update req => req.clrTx
  | .setTx _ _ => false
  | .setRx _ _ => false
  | .store _ _ => false

/-- Whether the operations clear the flag the function is called for (R322 (e), R254). -/
def clearsServed (ops : List CapOp) : Site → Bool
  | .device => true
  | .config => true
  | .string => true
  | .init _ => true
  | .sof _ => true
  | .txHandler _ => ops.any clearsTx
  | .rxHandler _ => ops.any clearsRx
  | .wanted _ => true
  | .handler _ => true
  | .txDone _ => true
  | .rxDone _ => true

/-- Why fixed operations of a function are refused, if they are: the Descriptor Provider has none (R12 (3)), the first
operation the contract forbids (R163, R322 (d)), a served flag that is not cleared (R322 (e)). -/
def opsFault (p : Params) (x : Site) (ops : List CapOp) : Option Refusal :=
  if ops ≠ [] ∧ siteMayAct x = false then some .collaboratorContract
  else
    match ops.findSome? (capOpFault p) with
    | some r => some r
    | none => if clearsServed ops x then none else some .collaboratorContract

/-- Why an ORACLE line is refused, if it is (log 12). -/
def oracleFault (p : Params) (o : Oracle) : Option Refusal :=
  match o.behaviour.result.bind answerFault with
  | some r => some r
  | none => o.behaviour.ops.bind (opsFault p o.site)

/-- The behaviour fixed for a function: that of the latest ORACLE line (R17). -/
def behaviour (s : State) (x : Site) : Option Behaviour :=
  (s.oracles.find? fun o => decide (o.site = x)).map Oracle.behaviour

/-- A free answer keeps the bound of R322 (h). -/
def boundAnswer : Answer → Answer
  | .tx data tok => .tx (data.take Config.maxDataLen) tok
  | .rx n tok => .rx n tok

/-- The answer of a call that returns a `SetupResult` (R60): fixed, else free (log 10). -/
def answerOf (s : State) (c : Call) : SetupResult :=
  match (behaviour s (callSite c)).bind Behaviour.result with
  | some a => resultOf a
  | none => resultOf (boundAnswer (Config.freeAnswer s.tick (callNumber c)))

/-- The answer of a call that returns a Boolean (R60, R227): fixed, else free (log 10). -/
def verdictOf (s : State) (c : Call) : Bool :=
  match (behaviour s (callSite c)).bind Behaviour.verdict with
  | some b => b
  | none => Config.freeVerdict s.tick (callNumber c)

/-- One operation of a capability on its own endpoint (R322 (d)), with the operations of spec/41. An operation the
contract forbids is not performed; an ORACLE line that holds one is refused when it is read (log 12). -/
def capOp (k : Cap) (op : CapOp) (s : State) : State :=
  match op with
  | .update req => epUpdate (capEp k) req s
  | .setTx off count => bdSetTx (capEp k) off count s
  | .setRx off size => (bdSetRx (capEp k) off size s).getD s
  | .store a bytes => if storeLegal s.params a bytes then memWriteBytes a bytes s else s

/-- The descriptors of entry `k + 1` after calls of `BdSetTx` and `BdSetRx` (R160, R162, R322 (d)): any TX descriptor; an
RX descriptor with a legal size and `COUNT = 0`, or the one that was there. -/
def drawEntry (k : Cap) (s : State) : State :=
  let n := capEp k
  let s1 := putBytes (txbdAddr n) ((List.range 4).map fun i => Config.freeDesc s.eraExt (txbdAddr n + i)) s
  match rxCode (Config.freeRxSize s.eraExt n.val) with
  | some c =>
    putBytes (rxbdAddr n) (leBytes 4 (rxbdWord c.1 c.2 0#10
      (Config.freeDesc s.eraExt (rxbdAddr n + 1) ++ Config.freeDesc s.eraExt (rxbdAddr n))).toNat) s1
  | none => s1

/-- `Cap[k + 1]` did what it liked with the operations of spec/41 and with SRAM outside the three regions (R322 (d), (e);
log 11): its register, its two descriptors and that SRAM take free values. -/
def drawCap (k : Cap) (clrRx clrTx : Bool) (s : State) : State :=
  let s1 := drawEntry k (drawOutside s)
  let reg := Chepr.afterCapability s1.chepr[capEp k] (Config.freeReg s1.eraExt (capEp k).val) clrRx clrTx
  { s1 with chepr := s1.chepr.set (capEp k) reg }

/-- The free effect of a call on the endpoint of `Cap[k + 1]`. DESIGN CHOICE (log 4): under `GRANULARITY = access` the
moves of one window land inside the call, and the capability acts freely before and after them. -/
def freeCap (k : Cap) (clrRx clrTx : Bool) (s : State) : State :=
  drawCap k false false (window (drawCap k clrRx clrTx s))

/-- The free effect of a call whose effect no ORACLE line fixes. The handlers of completions clear the flag they are
called for (R322 (e)); the owner of a completion token is not known, so a token may act on every capability's
endpoint (log 11). -/
def freeEffect (c : Call) (s : State) : State :=
  match c with
  | .device => s
  | .config _ => s
  | .string _ => s
  | .init k => freeCap k false false s
  | .sof k => freeCap k false false s
  | .txHandler k => freeCap k false true s
  | .rxHandler k => freeCap k true false s
  | .wanted k _ => freeCap k false false s
  | .handler k _ => freeCap k false false s
  | .txDone _ _ => allCaps.foldl (fun t k => freeCap k false false t) s
  | .rxDone _ => allCaps.foldl (fun t k => freeCap k false false t) s

/-- Whose endpoint a call acts on: a capability's own; for a token the one its ORACLE line names. -/
def callOwner (c : Call) (b : Behaviour) : Cap :=
  match c with
  | .device => b.owner
  | .config _ => b.owner
  | .string _ => b.owner
  | .init k => k
  | .sof k => k
  | .txHandler k => k
  | .rxHandler k => k
  | .wanted k _ => k
  | .handler k _ => k
  | .txDone _ _ => b.owner
  | .rxDone _ => b.owner

/-- What a call does to the hardware: the fixed operations, else its free effect. The Descriptor Provider does
nothing (R12 (3)). -/
def effectOf (c : Call) (s : State) : State :=
  if siteMayAct (callSite c) then
    match behaviour s (callSite c) with
    | some b =>
      match b.ops with
      | some ops => ops.foldl (fun t o => capOp (callOwner c b) o t) s
      | none => freeEffect c s
    | none => freeEffect c s
  else s

/-- Make a call (R60, R91): it is logged, and its effect is complete when it returns. DESIGN CHOICE (log 4): a call is an
access of CORE in the sense of R96, so under `GRANULARITY = access` the link agent may move right before it. -/
def perform (c : Call) (s : State) : State := effectOf c (window { s with calls := s.calls ++ [c] })

/-- A call of each of the seven capabilities in the fixed order (R192, R244, R257). -/
def performAll (f : Cap → Call) (s : State) : State := allCaps.foldl (fun t k => perform (f k) t) s

/-- The offer of R195 and R196: each capability in turn is asked; the first that accepts handles the request and no
later one is asked; if none accepts the result is `ERROR`. -/
def offerRequest (h : SetupHeader) : List Cap → State → State × SetupResult
  | [], s => (s, mkError)
  | k :: ks, s =>
    let ok := verdictOf s (.wanted k h)
    let s1 := perform (.wanted k h) s
    if ok then (perform (.handler k h) s1, answerOf s1 (.handler k h))
    else offerRequest h ks s1

end Sys2Proof.Machine
end

