-- ==== Sys2Proof/Machine/Init.lean ====
section
/-! DEFINITION. Initialisation (R255 to R257). -/

namespace Sys2Proof.Machine

/-- The targets of `ControlInit` (R158, R256). -/
def controlInitReq : EpReq where
  statrx := some stValid
  stattx := some stNak
  dtogrx := some false
  dtogtx := some false
  ea := some 0#4
  utype := some 1#2
  clrRx := true
  clrTx := true

/-- `EP0_TX_OFF` as the offset field of a descriptor. -/
def txOffset (s : State) : Half := BitVec.ofNat 16 s.params.ep0TxOff

/-- `EP0_RX_OFF` as the offset field of a descriptor. -/
def rxOffset (s : State) : Half := BitVec.ofNat 16 s.params.ep0RxOff

/-- `BdSetRx(0, EP0_RX_OFF, 64)` (R212, R256); 64 is a legal size (R106). -/
def armRx (s : State) : State := (bdSetRx 0 (rxOffset s) Config.ep0Mps s).getD s

/-- `ControlInit()` (R256). -/
def controlInit (s : State) : State :=
  epUpdate 0 controlInitReq (armRx (bdSetTx 0 (txOffset s) 0#16 { s with cs := ControlState.cleared }))

/-- `DeviceInit()` (R257), which is also `Init()` (R255). DESIGN CHOICE (log 29): where another bus reset lands inside it,
under `access`, its write of DADDR is made all the same. -/
def deviceInit (s : State) : State :=
  regWrite .daddr 0x80#32 (regWrite .cntr (0#16 ++ Config.irqMask) (performAll .init (controlInit s)))

end Sys2Proof.Machine
end

