-- ==== Sys2Proof/Machine/Transfer.lean ====
section
/-! DEFINITION. Applying a result (R210 to R214), the completion tokens (R226, R227), and the three handlers of
endpoint 0 (R180, R220, R224). -/

namespace Sys2Proof.Machine

/-- `SendChunk(rem, cb)` (R214). -/
def sendChunk (rem : List Byte) (cb : TxTok) (s : State) : State :=
  let chunk := rem.take Config.ep0Mps
  let rest := rem.drop Config.ep0Mps
  let s1 := bdSetTx 0 (txOffset s) (BitVec.ofNat 16 chunk.length) (memWriteBytes s.params.ep0TxOff chunk s)
  if 0 < rest.length ∨ (chunk.length = Config.ep0Mps ∧ s1.cs.short = true) then
    { s1 with cs := { s1.cs with txTail := some rest, txTailCb := cb, postAckCb := .none } }
  else
    { s1 with cs := { s1.cs with txTail := none, txTailCb := .none, postAckCb := cb } }

/-- `ApplyTx(data, cb, h)` (R211). -/
def applyTx (data : List Byte) (cb : TxTok) (h : SetupHeader) (s : State) : State :=
  let n := min data.length h.length.toNat
  let s1 := { s with cs := { s.cs with short := decide (data.length < h.length.toNat) } }
  epUpdate 0 { stattx := some stValid, clrRx := true } (sendChunk (data.take n) cb s1)

/-- `ApplyRx(cb)` (R212). -/
def applyRx (cb : RxTok) (s : State) : State :=
  let s1 := armRx s
  epUpdate 0 { statrx := some stValid, dtogrx := some true, clrRx := true }
    { s1 with cs := { s1.cs with rxCb := cb } }

/-- `ApplyError()` for a result that is no response (R213, R302): class `E_UNSUPPORTED`. -/
def applyError (s : State) : State := raiseStall .unsupported s

/-- `ApplyResult(res, h)` (R210). -/
def applyResult (res : SetupResult) (h : SetupHeader) (s : State) : State :=
  match res with
  | .tx data cb => applyTx data cb h s
  | .rx n cb => if n = h.length ∧ n ≠ 0#16 then applyRx cb s else applyError s

/-- The end of a request: its result is applied, and the completion has been served (R180, R240). -/
def finishRequest (res : SetupResult) (h : SetupHeader) (s : State) : State := setPos .reread (applyResult res h s)

/-- `InvokeTxDone(cb, h)` (R226). DESIGN CHOICE (log 29): where a bus reset lands in the window right before the write of
DADDR, under `access`, the write is made all the same and enables the function again before `DeviceInit` has run. -/
def invokeTxDone (cb : TxTok) (h : SetupHeader) (s : State) : State :=
  match cb with
  | .none => s
  | .applyAddress =>
    match s.cs.pendingAddr with
    | some a =>
      let s1 := regWrite .daddr (0#24 ++ daddrOf a) s
      { s1 with cs := { s1.cs with pendingAddr := none } }
    | none => s
  | .ext t => perform (.txDone t h) s

/-- The post-ACK token is invoked if there is a header (R221, R222). -/
def invokePostAck (s : State) : State :=
  match s.cs.setup with
  | some h => invokeTxDone s.cs.postAckCb h s
  | none => s

/-- The end of a transfer after its token (R221): token and header are cleared, RX is re-armed, also in a register that a
bus reset has cleared meanwhile (R363; log 29 for what the host can then do). -/
def endTransfer (s : State) : State :=
  epUpdate 0 { statrx := some stValid, dtogrx := some false, clrTx := true }
    { s with cs := { s.cs with postAckCb := .none, setup := none } }

/-- `ControlTxDone()` (R220 to R223). -/
def controlTxDone (s : State) : State :=
  match s.cs.txTail with
  | some rem => epUpdate 0 { stattx := some stValid, clrTx := true } (sendChunk rem s.cs.txTailCb s)
  | none => endTransfer (invokePostAck s)

/-- The clears of a SETUP token (R182). -/
def clearTransfer (s : State) : State :=
  { s with cs := { s.cs with pendingAddr := none, txTail := none, txTailCb := .none, rxCb := .none,
                             postAckCb := .none } }

/-- `HandleSetup()` (R180 to R184) up to the header: the clears, the fence, the length check, the parse. A short packet
is stalled at once; otherwise the latched header is what is classified next (log 1, log 23). -/
def handleSetup (s : State) : State :=
  let s1 := window (fence (clearTransfer s))
  if bdRxCount 0 s1 < Config.setupLen then
    setPos .reread (raiseStall .shortSetup { s1 with cs := { s1.cs with setup := none } })
  else
    let s2 := window s1
    let h := parseSetup s2.params.ep0RxOff s2
    { s2 with cs := { s2.cs with setup := some h }, pos := .request h }

/-- The discard path of `HandleOut` (R224). -/
def discardOut (s : State) : State :=
  epUpdate 0 { statrx := some stValid, stattx := some stNak, clrRx := true }
    { s with cs := { s.cs with txTail := none, txTailCb := .none } }

/-- The end of the data path (R225): clear the predicate and the header, then acknowledge or stall the status stage;
`e` is the class of a failure (R303, R304). -/
def finishOut (e : Option ErrorClass) (s : State) : State :=
  let s1 := { s with cs := { s.cs with rxCb := .none, setup := none } }
  match e with
  | none =>
    epUpdate 0 { statrx := some stValid, stattx := some stValid, clrRx := true } (bdSetTx 0 (txOffset s1) 0#16 s1)
  | some c => epUpdate 0 { statrx := some stValid, stattx := some stStall, clrRx := true } (raise c s1)

/-- `HandleOutData(h)` (R225): the length comparison comes before the predicate. -/
def handleOutData (h : SetupHeader) (s : State) : State :=
  let s1 := window (fence s)
  if bdRxCount 0 s1 ≠ h.length.toNat then finishOut (some .lenMismatch) s1
  else
    match s1.cs.rxCb with
    | .none => finishOut (if Config.rxNoPredOk then none else some .predicateFail) s1
    | .ext t =>
      finishOut (if verdictOf s1 (.rxDone t) then none else some .predicateFail) (perform (.rxDone t) s1)

/-- `HandleOut()` (R224). -/
def handleOut (s : State) : State :=
  match s.cs.setup with
  | none => discardOut s
  | some h => if h.length = 0#16 then discardOut s else handleOutData h s

end Sys2Proof.Machine
end

