-- ==== Sys2Proof/Machine/Completion.lean ====
section
/-! DEFINITION. The meanings of the CC5 rows: the completion of one endpoint and direction (R240, R248 to R253). After
each, ISTR is read again. -/

namespace Sys2Proof.Machine

/-- `CTR_EP0_TX` (R220). -/
def execCtrEp0Tx (s : State) : Host.Outcome State Fault Refusal := .next (setPos .reread (controlTxDone s))

/-- `CTR_EP0_RX_SETUP` (R180). The errata delay has been run and the SETUP flag read before (R181, R249). -/
def execCtrEp0RxSetup (s : State) : Host.Outcome State Fault Refusal := .next (handleSetup s)

/-- `CTR_EP0_RX_OUT` (R224). The errata delay has been run and the SETUP flag read before (R181, R249). -/
def execCtrEp0RxOut (s : State) : Host.Outcome State Fault Refusal := .next (setPos .reread (handleOut s))

/-- `CTR_CAP_TX` (R251): no delay. -/
def execCtrCapTx (k : Cap) (s : State) : Host.Outcome State Fault Refusal :=
  .next (setPos .reread (perform (.txHandler k) s))

/-- `CTR_CAP_RX` (R252): the errata delay first, with a window before it (R96; log 4). -/
def execCtrCapRx (k : Cap) (s : State) : Host.Outcome State Fault Refusal :=
  .next (setPos .reread (perform (.rxHandler k) (errataDelay (window s))))

/-- `CTR_UNDISPATCHABLE` (R253, R305): the class is raised, the loop is left, nothing is cleared, and the invocation
returns true. The code makes no difference. -/
def execCtrUndispatchable (_rx : Bool) (_low : BitVec 3) (s : State) : Host.Outcome State Fault Refusal :=
  .next (returnDispatch true (raise .badCode s))

end Sys2Proof.Machine
end

