-- ==== Sys2Proof/Machine/Irq.lean ====
section
/-! DEFINITION. The meanings of the ISTR rows: the interrupt causes of one read, served in the order start of frame,
bus reset, transfer complete (R240, R313). -/

namespace Sys2Proof.Machine

/-- `IRQ_SOF` (R244): all seven capabilities are told, in ascending order; nothing of CORE's is written. -/
def execIrqSof (reset ctr : Bool) (code : BitVec 5) (s : State) : Host.Outcome State Fault Refusal :=
  .next (setPos (.causes (istrWord false reset ctr code)) (performAll .sof s))

/-- `IRQ_RESET` (R246): `DeviceInit()`; the invocation will return true (R258). -/
def execIrqReset (ctr : Bool) (code : BitVec 5) (s : State) : Host.Outcome State Fault Refusal :=
  .next (setPos (.causes (istrWord false false ctr code)) (deviceInit { s with any := true }))

/-- `IRQ_CTR` (R248): one turn of the transfer-complete loop begins, on the code of the most recent read. -/
def execIrqCtr (code : BitVec 5) (s : State) : Host.Outcome State Fault Refusal :=
  .next { s with any := true, pos := .code code }

end Sys2Proof.Machine
end

