-- ==== Sys2Proof/Machine/Request.lean ====
section
/-! DEFINITION. The meanings of the SETUP8 rows: `Classify(h)` (R185) for the header the row and its operands make,
and the application of the result (R180). -/

namespace Sys2Proof.Machine

/-- `GET_STATUS` (R186): a two-byte zero status word. -/
def execGetStatus (vlo vhi : Byte) (idx len : Half) (s : State) : Host.Outcome State Fault Refusal :=
  .next (finishRequest (.tx [0x00#8, 0x00#8] .none) ⟨0x80#8, 0x00#8, vlo, vhi, idx, len⟩ s)

/-- `SET_ADDRESS` (R187): the address is deferred; DADDR is not written here. -/
def execSetAddress (vlo vhi : Byte) (idx len : Half) (s : State) : Host.Outcome State Fault Refusal :=
  .next (finishRequest (.tx [] .applyAddress) ⟨0x00#8, 0x05#8, vlo, vhi, idx, len⟩
    { s with cs := { s.cs with pendingAddr := some (addressOperand vlo) } })

/-- `GET_DESCRIPTOR_DEVICE` (R189). -/
def execGetDescriptorDevice (vlo : Byte) (idx len : Half) (s : State) : Host.Outcome State Fault Refusal :=
  .next (finishRequest (answerOf s .device) ⟨0x80#8, 0x06#8, vlo, 1#8, idx, len⟩ (perform .device s))

/-- `GET_DESCRIPTOR_CONFIG` (R190): the provider gets the whole header. -/
def execGetDescriptorConfig (vlo : Byte) (idx len : Half) (s : State) : Host.Outcome State Fault Refusal :=
  .next (finishRequest (answerOf s (.config ⟨0x80#8, 0x06#8, vlo, 2#8, idx, len⟩))
    ⟨0x80#8, 0x06#8, vlo, 2#8, idx, len⟩ (perform (.config ⟨0x80#8, 0x06#8, vlo, 2#8, idx, len⟩) s))

/-- `GET_DESCRIPTOR_STRING` (R191): the provider gets `value_lo`. -/
def execGetDescriptorString (vlo : Byte) (idx len : Half) (s : State) : Host.Outcome State Fault Refusal :=
  .next (finishRequest (answerOf s (.string vlo)) ⟨0x80#8, 0x06#8, vlo, 3#8, idx, len⟩ (perform (.string vlo) s))

/-- `GET_DESCRIPTOR_OTHER` (R188): `ERROR`, with no call. -/
def execGetDescriptorOther (vlo vhi : Byte) (idx len : Half) (s : State) : Host.Outcome State Fault Refusal :=
  .next (finishRequest mkError ⟨0x80#8, 0x06#8, vlo, vhi, idx, len⟩ s)

/-- `SET_CONFIGURATION_0` (R197): acknowledged without effect. -/
def execSetConfiguration0 (vhi : Byte) (idx len : Half) (s : State) : Host.Outcome State Fault Refusal :=
  .next (finishRequest ack ⟨0x00#8, 0x09#8, 0#8, vhi, idx, len⟩ s)

/-- `SET_CONFIGURATION_1` (R192): all seven capabilities initialise, in order, before `configured` is set. -/
def execSetConfiguration1 (vhi : Byte) (idx len : Half) (s : State) : Host.Outcome State Fault Refusal :=
  let s1 := performAll .init s
  .next (finishRequest ack ⟨0x00#8, 0x09#8, 1#8, vhi, idx, len⟩ { s1 with cs := { s1.cs with configured := true } })

/-- `SET_CONFIGURATION_OTHER` (R193): `ERROR`. -/
def execSetConfigurationOther (vlo vhi : Byte) (idx len : Half) (s : State) : Host.Outcome State Fault Refusal :=
  .next (finishRequest mkError ⟨0x00#8, 0x09#8, vlo, vhi, idx, len⟩ s)

/-- `SET_INTERFACE` (R194): acknowledged; no capability is told. -/
def execSetInterface (vlo vhi : Byte) (idx len : Half) (s : State) : Host.Outcome State Fault Refusal :=
  .next (finishRequest ack ⟨0x01#8, 0x0b#8, vlo, vhi, idx, len⟩ s)

/-- `CLASS_DISPATCH` (R195, R196): the request is offered to the capabilities in order. -/
def execClassDispatch (rt rq vlo vhi : Byte) (idx len : Half) (s : State) : Host.Outcome State Fault Refusal :=
  let h : SetupHeader := ⟨rt, rq, vlo, vhi, idx, len⟩
  let r := offerRequest h allCaps s
  .next (finishRequest r.2 h r.1)

end Sys2Proof.Machine
end

