-- ==== Sys2Proof/Machine/Dispatch.lean ====
section
/-! DEFINITION. One arm per event of spec/opcode_table.json. -/

namespace Sys2Proof.Machine

def exec (i : Instr) (s : State) : Host.Outcome State Fault Refusal :=
  match i with
  | .irqSof reset ctr code => Sys2Proof.Machine.execIrqSof reset ctr code s
  | .irqReset ctr code => Sys2Proof.Machine.execIrqReset ctr code s
  | .irqCtr code => Sys2Proof.Machine.execIrqCtr code s
  | .ctrEp0Tx => Sys2Proof.Machine.execCtrEp0Tx s
  | .ctrEp0RxSetup => Sys2Proof.Machine.execCtrEp0RxSetup s
  | .ctrEp0RxOut => Sys2Proof.Machine.execCtrEp0RxOut s
  | .ctrCapTx k => Sys2Proof.Machine.execCtrCapTx k s
  | .ctrCapRx k => Sys2Proof.Machine.execCtrCapRx k s
  | .ctrUndispatchable rx low => Sys2Proof.Machine.execCtrUndispatchable rx low s
  | .getStatus vlo vhi idx len => Sys2Proof.Machine.execGetStatus vlo vhi idx len s
  | .setAddress vlo vhi idx len => Sys2Proof.Machine.execSetAddress vlo vhi idx len s
  | .getDescriptorDevice vlo idx len => Sys2Proof.Machine.execGetDescriptorDevice vlo idx len s
  | .getDescriptorConfig vlo idx len => Sys2Proof.Machine.execGetDescriptorConfig vlo idx len s
  | .getDescriptorString vlo idx len => Sys2Proof.Machine.execGetDescriptorString vlo idx len s
  | .getDescriptorOther vlo vhi idx len => Sys2Proof.Machine.execGetDescriptorOther vlo vhi idx len s
  | .setConfiguration0 vhi idx len => Sys2Proof.Machine.execSetConfiguration0 vhi idx len s
  | .setConfiguration1 vhi idx len => Sys2Proof.Machine.execSetConfiguration1 vhi idx len s
  | .setConfigurationOther vlo vhi idx len => Sys2Proof.Machine.execSetConfigurationOther vlo vhi idx len s
  | .setInterface vlo vhi idx len => Sys2Proof.Machine.execSetInterface vlo vhi idx len s
  | .classDispatch rt rq vlo vhi idx len => Sys2Proof.Machine.execClassDispatch rt rq vlo vhi idx len s

end Sys2Proof.Machine
end

