-- ==== Sys2Proof/Machine/Fetch.lean ====
section
/-! DEFINITION. What the machine does around an instruction: fetching the event word at the current position, the
script's lines between invocations (R17, R117), power-on reset (R65, R66), and placing a table word where the next
step fetches. -/

namespace Sys2Proof.Machine

/-- The event word at the current position and the state after it was fetched: the causes of the latched ISTR value;
the completion code, for code 16 after `ErrataDelay()`, with a window before it and before the read (R96; log 4), and with
the SETUP flag of `EpRead(0)` (R181, R240, R249); the latched header (R97). `none` where the position calls for no event. -/
def fetch (s : State) : Option (EventWord × State) :=
  match s.pos with
  | .idle => none
  | .causes v => some (istrEvent v, s)
  | .code c =>
    if c = 16#5 then
      let s1 := window (errataDelay (window s))
      some (codeEvent c (Chepr.setup ((peekReg (.chepr 0) s1).extractLsb' 0 16)), s1)
    else some (codeEvent c false, s)
  | .request h => some (headerEvent h, s)
  | .reread => none

/-- Power-on reset (R65, R66): the hardware takes its reset values, the SRAM becomes unspecified, the logs are empty;
the parameters and what the environment still has to give stay (log 19). -/
def powerOn (s : State) : State :=
  { State.reset with
    params := s.params
    script := s.script
    windows := s.windows
    oracles := s.oracles
    pick := s.pick
    tick := s.tick
    eraBoot := s.eraBoot + 1
    eraExt := s.eraExt + 1 }

/-- An invocation may start when `irq` is asserted (R311), and when no cause is pending at all (R315: harmless); not
when only masked causes are pending (R342; log 20). -/
def dispatchEnabled (s : State) : Bool := irq s || decide (istrValue s &&& Config.irqMask = 0#16)

/-- One line of the event-script, read between invocations. A move or an invocation that is not enabled does not
happen (log 3). -/
def runLine (line : ScriptLine) (s : State) : Host.Outcome State Fault Refusal :=
  match line with
  | .link m =>
    match linkMove m s with
    | .done t => .next t
    | .notEnabled => .next s
    | .fault f => .fault f
    | .refused r => .refused r
  | .dispatch => .next (if dispatchEnabled s then enterDispatch s else s)
  | .init => .next (deviceInit s)
  | .por => .next (powerOn s)
  | .oracle o =>
    match oracleFault s.params o with
    | some r => .refused r
    | none => .next { s with oracles := o :: s.oracles }
  | .pick c => .next { s with pick := c }

/-- A step while no invocation runs: the next line of the script; when the script has ended, an invocation if `irq` is
asserted, else nothing, for the state is quiescent (R281; log 2). -/
def idleStep (s : State) : Host.Outcome State Fault Refusal :=
  match s.script with
  | line :: rest => runLine line { s with script := rest }
  | [] => .next (if irq s then enterDispatch s else s)

/-- Every step advances the counter of the free values. -/
def tickOutcome : Host.Outcome State Fault Refusal → Host.Outcome State Fault Refusal
  | .next t => .next { t with tick := t.tick + 1 }
  | .fault f => .fault f
  | .refused r => .refused r

/-- The header whose eight bytes are the 64 bits of `w` (R100). -/
def headerOfNat (w : Nat) : SetupHeader := (parseBytes (leBytes 8 w)).getD default

/-- The SETUP flag of CHEPR[0] set: the row of code 16 that `decodeTableWord` reads (log 16). -/
def withSetupFlag (s : State) : State := { s with chepr := s.chepr.set 0 (s.chepr[(0 : Fin 8)] ||| Chepr.maskRo) }

end Sys2Proof.Machine
end

