-- ==== Sys2Proof/Machine/Step.lean ====
section
/-! DEFINITION. One step of the machine: the event at the current position is fetched, decoded and executed; between
events ISTR is read again, the invocation returns, or, when none runs, the script goes on (log 1, log 2). -/

namespace Sys2Proof.Machine

/-- The step before the counter of the free values is advanced. -/
def stepBody (s : State) : Host.Outcome State Fault Refusal :=
  match fetch s with
  | some (w, s1) =>
    match decode w with
    | .ok i => exec i s1
    | .error .noCause => .next (returnDispatch s1.any s1)
    | .error .wideCode => .refused .undecodable
    | .error .shortSetup => .refused .undecodable
    | .error .wrongSize => .refused .undecodable
  | none =>
    match s.pos with
    | .reread => .next (rereadIstr s)
    | .idle => idleStep s
    | .causes _ => idleStep s
    | .code _ => idleStep s
    | .request _ => idleStep s

/-- One step. -/
def step (s : State) : Host.Outcome State Fault Refusal := tickOutcome (stepBody s)

/-- `s` with a word of spec/opcode_table.json placed where the next step fetches (log 17). -/
def State.withFetchWord (s : State) (nbits w : Nat) : State :=
  match tableFormat nbits with
  | some (.istr, _) => { s with pos := .causes (BitVec.ofNat 16 w) }
  | some (.cc5, _) =>
    if w = 16 then { withSetupFlag s with pos := .code 16#5 } else { s with pos := .code (BitVec.ofNat 5 w) }
  | some (.setup8, _) =>
    { s with pos := .request (headerOfNat w), cs := { s.cs with setup := some (headerOfNat w) } }
  | none => s

end Sys2Proof.Machine
end

