-- ==== Sys2Proof/Machine/Phase.lean ====
section
/-! DEFINITION. The phase of the control transfer (R30), a derived classification of ControlState and CHEPR[0] that no
rule reads. -/

namespace Sys2Proof.Machine

/-- The five phases of R30. -/
inductive Phase where
  | idle
  | setupReceived
  | txInProgress (rem : List Byte) (cb : TxTok)
  | rxArmed (n : Half) (cb : RxTok)
  | statusPending (cb : TxTok)
  deriving DecidableEq, Repr

/-- The phase of a state (R30). -/
def phase (s : State) : Phase :=
  let e := s.chepr[(0 : Fin 8)]
  match s.cs.txTail with
  | some rem => .txInProgress rem s.cs.txTailCb
  | none =>
    match s.cs.setup with
    | none => .idle
    | some h =>
      if Chepr.stattx e = stValid ∨ Chepr.vttx e = true then .statusPending s.cs.postAckCb
      else if Chepr.statrx e = stValid ∨ (Chepr.vtrx e = true ∧ Chepr.setup e = false) then
        .rxArmed h.length s.cs.rxCb
      else .setupReceived

end Sys2Proof.Machine
end

