-- ==== Sys2Proof/Safety.lean ====
section
/-! DEFINITION. What a state of a run keeps: the invariants of R69, the canonical form and range of the SRAM, admitted
ORACLE lines; the quiescent states of R281; and, for the statements about instructions, what a result leaves when it is
applied and what a collaborator may change. -/

namespace Sys2Proof.Machine

/-- R69 (a): no tail, no tail token. -/
abbrev TailTokenInv (s : State) : Prop := s.cs.txTail = none → s.cs.txTailCb = .none

/-- R69 (b), R28: at most one of the two `TxTok` fields is not `NONE`. -/
abbrev OneTokenInv (s : State) : Prop := s.cs.txTailCb = .none ∨ s.cs.postAckCb = .none

/-- R69 (c): a post-ACK token has a header. -/
abbrev PostAckInv (s : State) : Prop := s.cs.postAckCb ≠ .none → s.cs.setup ≠ none

/-- R69 (d): a predicate belongs to a header with a non-zero length. -/
abbrev PredicateInv (s : State) : Prop := s.cs.rxCb ≠ .none → ∃ h, s.cs.setup = some h ∧ h.length ≠ 0#16

/-- R69 (e): a deferred address is carried by an `APPLY_ADDRESS` token. -/
abbrev AddressInv (s : State) : Prop :=
  s.cs.pendingAddr ≠ none → s.cs.postAckCb = .applyAddress ∨ s.cs.txTailCb = .applyAddress

/-- R69 (f): a tail is at most 65535 bytes long. -/
abbrev TailLengthInv (s : State) : Prop := ∀ rem, s.cs.txTail = some rem → rem.length ≤ Config.maxDataLen

/-- The invariants R69 gives. -/
structure TransferInv (s : State) : Prop where
  tailToken : TailTokenInv s
  oneToken : OneTokenInv s
  postAck : PostAckInv s
  predicate : PredicateInv s
  address : AddressInv s
  tailLength : TailLengthInv s

/-- What R69 needs of endpoint 0 while a `Tx` response is pending (a tail, or the last packet armed with its token): the
header is stored, the token is with the tail if there is one (R214), no OUT packet can complete, and none waits to be
served. It fails where a SETUP token lands while a TX completion is still to be served (log 28). -/
structure EndpointZeroInv (s : State) : Prop where
  tail : s.cs.txTail ≠ none → s.cs.postAckCb = .none
  header : s.cs.txTail ≠ none → s.cs.setup ≠ none
  noOut : s.cs.txTail ≠ none ∨ s.cs.postAckCb ≠ .none → Chepr.statrx s.chepr[(0 : Fin 8)] ≠ stValid
  noServedOut : s.cs.txTail ≠ none ∨ s.cs.postAckCb ≠ .none →
    Chepr.vtrx s.chepr[(0 : Fin 8)] = true → Chepr.setup s.chepr[(0 : Fin 8)] = true

/-- The SRAM is canonical and lies below `SRAM_BYTES` (R71). -/
abbrev SramInv (s : State) : Prop := Sram.wf s.sram = true ∧ Sram.below s.params.sramBytes s.sram = true

/-- Every ORACLE line in force was admitted (R132, R163, R322). -/
abbrev OracleInv (s : State) : Prop := ∀ o ∈ s.oracles, oracleFault s.params o = none

/-- The three invariants of R69 that no interleaving breaks: (a), (b), (f). -/
structure TokenInv (s : State) : Prop where
  tailToken : TailTokenInv s
  oneToken : OneTokenInv s
  tailLength : TailLengthInv s

/-- No code that names no slot can be served (R41, R101): none is forced, none is latched. -/
structure DispatchableInv (s : State) : Prop where
  forced : s.badCode = none
  cause : ∀ v, s.pos = .causes v → v.getLsbD 3 = false
  code : ∀ c, s.pos = .code c → c.getLsbD 3 = false

/-- The latched completion code that is served next, if any: the position of the loop body, or a read of ISTR with CTR set
and no bus reset left to serve before it (R240). -/
def nextCode (s : State) : Option (BitVec 5) :=
  match s.pos with
  | .idle => none
  | .causes v => if v.getLsbD 15 && !v.getLsbD 10 then some (v.extractLsb' 0 5) else none
  | .code c => some c
  | .request _ => none
  | .reread => none

/-- A SETUP packet waits to be served (R37). -/
abbrev SetupPending (s : State) : Prop :=
  Chepr.vtrx s.chepr[(0 : Fin 8)] = true ∧ Chepr.setup s.chepr[(0 : Fin 8)] = true

/-- The invariants of R69 with what makes every step keep them while no SETUP packet lands on an unserved transmit
completion (log 28): nothing is armed or pending beside an unserved SETUP, no IN packet beside an armed OUT data stage, a
request is the header just latched, and a code served next is a pending one or one that a bus reset has made harmless. -/
structure RunInv (s : State) : Prop where
  dispatchable : DispatchableInv s
  transfer : TransferInv s
  endpointZero : EndpointZeroInv s
  armed : s.cs.rxCb ≠ .none → Chepr.vttx s.chepr[(0 : Fin 8)] = false ∧ Chepr.stattx s.chepr[(0 : Fin 8)] ≠ stValid
  pending : SetupPending s → Chepr.statrx s.chepr[(0 : Fin 8)] ≠ stValid ∧
    Chepr.stattx s.chepr[(0 : Fin 8)] ≠ stValid ∧ Chepr.vttx s.chepr[(0 : Fin 8)] = false
  request : ∀ h, s.pos = .request h → SetupPending s ∧ s.cs.setup = some h ∧ s.cs.txTail = none ∧
    s.cs.txTailCb = .none ∧ s.cs.postAckCb = .none ∧ s.cs.pendingAddr = none ∧ s.cs.rxCb = .none
  receive : nextCode s = some 16#5 → Chepr.vtrx s.chepr[(0 : Fin 8)] = true ∨
    s.cs.setup = none ∧ rxbdCount (storedWord s (rxbdAddr 0)) = 0#10
  transmit : nextCode s = some 0#5 → s.cs.rxCb = .none ∧ ¬SetupPending s

/-- An operation a capability may make (R163, R322 (d)): any `EpUpdate` and `BdSetTx`, a `BdSetRx` with a size of R106, a
store inside the SRAM and outside the three regions. -/
def OpLegal (p : Params) : CapOp → Prop
  | .update _ => True
  | .setTx _ _ => True
  | .setRx _ size =>
    (size % 2 = 0 ∧ 2 ≤ size ∧ size ≤ 62) ∨ (size % 32 = 0 ∧ 64 ≤ size ∧ size ≤ 1024) ∨ size = 1023
  | .store a bytes => a + bytes.length ≤ p.sramBytes ∧ ∀ i, i < bytes.length → inRegions p (a + i) = false

/-- A completion handler clears the flag it is called for (R322 (e)). -/
def ClearsServed (x : Site) (ops : List CapOp) : Prop :=
  (∀ k, x = .txHandler k → ∃ req, CapOp.update req ∈ ops ∧ req.clrTx = true) ∧
  (∀ k, x = .rxHandler k → ∃ req, CapOp.update req ∈ ops ∧ req.clrRx = true)

/-- The memory `SendChunk(rem, _)` leaves (R214): the descriptor, the chunk, and every other byte as before. -/
structure ChunkStored (rem : List Byte) (s t : State) : Prop where
  descriptor : storedWord t (txbdAddr 0) =
    txbdWord (BitVec.ofNat 16 s.params.ep0TxOff) (BitVec.ofNat 16 (min rem.length 64))
  chunk : ∀ i, i < min rem.length 64 → storedByte t (s.params.ep0TxOff + i) = rem.getD i 0#8
  frame : ∀ a, ¬(txbdAddr 0 ≤ a ∧ a < txbdAddr 0 + 4) →
    ¬(s.params.ep0TxOff ≤ a ∧ a < s.params.ep0TxOff + min rem.length 64) → storedByte t a = storedByte s a

/-- The ControlState `SendChunk(rem, cb)` leaves (R214). -/
def afterChunk (rem : List Byte) (cb : TxTok) (c : ControlState) : ControlState :=
  if 64 < rem.length ∨ (64 ≤ rem.length ∧ c.short = true) then
    { c with txTail := some (rem.drop 64), txTailCb := cb, postAckCb := .none }
  else { c with txTail := none, txTailCb := .none, postAckCb := cb }

/-- The state after a `Tx` result was applied (R211): every field that is not named keeps its value. -/
structure TxApplied (data : List Byte) (cb : TxTok) (h : SetupHeader) (s t : State) : Prop where
  state : t = { s with
    pos := .reread
    cs := afterChunk (data.take (min data.length h.length.toNat)) cb
      { s.cs with short := decide (data.length < h.length.toNat) }
    chepr := s.chepr.set 0 (Chepr.pack false (Chepr.dtogrx s.chepr[(0 : Fin 8)]) (Chepr.statrx s.chepr[(0 : Fin 8)])
      (Chepr.setup s.chepr[(0 : Fin 8)]) (Chepr.utype s.chepr[(0 : Fin 8)]) (Chepr.epkind s.chepr[(0 : Fin 8)])
      (Chepr.vttx s.chepr[(0 : Fin 8)]) (Chepr.dtogtx s.chepr[(0 : Fin 8)]) stValid (Chepr.ea s.chepr[(0 : Fin 8)]))
    sram := t.sram }
  memory : ChunkStored (data.take (min data.length h.length.toNat)) s t

/-- The state after an `Rx` result was accepted (R212). -/
structure RxArmed (cb : RxTok) (s t : State) : Prop where
  state : t = { s with
    pos := .reread
    cs := { s.cs with rxCb := cb }
    chepr := s.chepr.set 0 (Chepr.pack false true stValid
      (Chepr.setup s.chepr[(0 : Fin 8)]) (Chepr.utype s.chepr[(0 : Fin 8)]) (Chepr.epkind s.chepr[(0 : Fin 8)])
      (Chepr.vttx s.chepr[(0 : Fin 8)]) (Chepr.dtogtx s.chepr[(0 : Fin 8)]) (Chepr.stattx s.chepr[(0 : Fin 8)])
      (Chepr.ea s.chepr[(0 : Fin 8)]))
    sram := t.sram }
  descriptor : storedWord t (rxbdAddr 0) = 0x84000000#32 ||| BitVec.ofNat 32 s.params.ep0RxOff
  frame : ∀ a, ¬(rxbdAddr 0 ≤ a ∧ a < rxbdAddr 0 + 4) → storedByte t a = storedByte s a

/-- The state after the stall of R213 for the class `e`: no ControlState field and no byte of memory is written. -/
abbrev Stalled (e : ErrorClass) (s t : State) : Prop := t = { s with
    pos := .reread
    errors := s.errors ++ [e]
    chepr := s.chepr.set 0 (Chepr.pack false (Chepr.dtogrx s.chepr[(0 : Fin 8)]) stStall
      (Chepr.setup s.chepr[(0 : Fin 8)]) (Chepr.utype s.chepr[(0 : Fin 8)]) (Chepr.epkind s.chepr[(0 : Fin 8)])
      (Chepr.vttx s.chepr[(0 : Fin 8)]) (Chepr.dtogtx s.chepr[(0 : Fin 8)]) stStall
      (Chepr.ea s.chepr[(0 : Fin 8)])) }

/-- The state after a result was applied to a header (R210, R135). -/
def ResultApplied (res : SetupResult) (h : SetupHeader) (s t : State) : Prop :=
  match res with
  | .tx data cb => TxApplied data cb h s t
  | .rx n cb =>
    if n = h.length ∧ n ≠ 0#16 then RxArmed cb s t else Stalled .unsupported s t

/-- What capabilities leave of a register, whatever `EpUpdate`s they make (R322 (d), R155): SETUP and EPKIND stay, a
complete flag can only fall. -/
structure RegisterKept (old new : Half) : Prop where
  setup : Chepr.setup new = Chepr.setup old
  epkind : Chepr.epkind new = Chepr.epkind old
  vtrx : Chepr.vtrx new = true → Chepr.vtrx old = true
  vttx : Chepr.vttx new = true → Chepr.vttx old = true

/-- What collaborator calls leave alone (R322 (a), (b), (d)): they change only CHEPR[1] to CHEPR[7] (and of these no SETUP
and no EPKIND, and no complete flag but to 0), the descriptors of entries 1 to 7, the SRAM outside the three regions, and
the log of the calls. -/
structure CapabilityFrame (s t : State) : Prop where
  state : t = { s with chepr := t.chepr, sram := t.sram, eraExt := t.eraExt, calls := t.calls }
  endpointZero : t.chepr[(0 : Fin 8)] = s.chepr[(0 : Fin 8)]
  memory : ∀ a, a < 8 ∨ inRxBuffer s.params a = true ∨ inTxBuffer s.params a = true → storedByte t a = storedByte s a
  registers : ∀ n : Fin 8, RegisterKept s.chepr[n] t.chepr[n]

/-- What a call that acts for `Cap[k + 1]` leaves alone besides (R322 (d)): the register and both descriptors of every
other capability's endpoint; its own RX descriptor is the one that was there or one that `BdSetRx` stores (R162). -/
structure OwnerFrame (k : Cap) (s t : State) : Prop extends CapabilityFrame s t where
  others : ∀ j : Cap, j ≠ k → t.chepr[capEp j] = s.chepr[capEp j]
  entries : ∀ j : Cap, j ≠ k → ∀ a, 8 * (capEp j).val ≤ a → a < 8 * (capEp j).val + 8 → storedByte t a = storedByte s a
  receive : storedWord t (rxbdAddr (capEp k)) = storedWord s (rxbdAddr (capEp k)) ∨
    ∃ off size c, rxCode size = some c ∧ storedWord t (rxbdAddr (capEp k)) = rxbdWord c.1 c.2 0#10 off

/-- The capability a call is made of, or, for a completion token, the one its ORACLE line names; `none` for the
Descriptor Provider and for a token whose effect no line fixes. -/
def actsFor (s : State) : Call → Option Cap
  | .device => none
  | .config _ => none
  | .string _ => none
  | .init k => some k
  | .sof k => some k
  | .txHandler k => some k
  | .rxHandler k => some k
  | .wanted k _ => some k
  | .handler k _ => some k
  | .txDone t _ => (behaviour s (.txDone t)).bind fun b => b.ops.map fun _ => b.owner
  | .rxDone t => (behaviour s (.rxDone t)).bind fun b => b.ops.map fun _ => b.owner

/-- The state `DeviceInit` leaves (R67, R256, R257), `s` being the state before: ControlState cleared, both descriptors
of entry 0, CHEPR[0], CNTR and DADDR; the seven calls; the rest as collaborators may leave it. -/
structure Reinitialised (s t : State) : Prop where
  state : t = { s with
    cs := ControlState.cleared, cntr := 0x8600#16, daddr := 0x80#8
    calls := s.calls ++ allCaps.map .init
    chepr := t.chepr, sram := t.sram, eraExt := t.eraExt }
  endpointZero : t.chepr[(0 : Fin 8)] = Chepr.pack false false stValid (Chepr.setup s.chepr[(0 : Fin 8)]) 1#2
    (Chepr.epkind s.chepr[(0 : Fin 8)]) false false stNak 0#4
  txDescriptor : storedWord t (txbdAddr 0) = BitVec.ofNat 32 s.params.ep0TxOff
  rxDescriptor : storedWord t (rxbdAddr 0) = 0x84000000#32 ||| BitVec.ofNat 32 s.params.ep0RxOff
  buffers : ∀ a, inRxBuffer s.params a = true ∨ inTxBuffer s.params a = true → storedByte t a = storedByte s a

/-- What invoking the post-ACK token leaves before a transfer ends (R221, R226): nothing without a token or a header;
the deferred address in DADDR; or a collaborator's callback with the header. -/
def TokenInvoked (s u : State) : Prop :=
  match s.cs.setup, s.cs.postAckCb with
  | none, _ => u = s
  | some _, .none => u = s
  | some _, .applyAddress =>
    match s.cs.pendingAddr with
    | some a => u = { s with daddr := 0x80#8 ||| a.setWidth 8, cs := { s.cs with pendingAddr := none } }
    | none => u = s
  | some h, .ext t => CapabilityFrame s u ∧ u.calls = s.calls ++ [.txDone t h]

/-- The state after an OUT data packet was accepted (R225). -/
structure OutAccepted (s t : State) : Prop where
  state : t = { s with
    pos := .reread
    cs := { s.cs with rxCb := .none, setup := none }
    chepr := s.chepr.set 0 (Chepr.pack false (Chepr.dtogrx s.chepr[(0 : Fin 8)]) stValid
      (Chepr.setup s.chepr[(0 : Fin 8)]) (Chepr.utype s.chepr[(0 : Fin 8)]) (Chepr.epkind s.chepr[(0 : Fin 8)])
      (Chepr.vttx s.chepr[(0 : Fin 8)]) (Chepr.dtogtx s.chepr[(0 : Fin 8)]) stValid (Chepr.ea s.chepr[(0 : Fin 8)]))
    sram := t.sram }
  descriptor : storedWord t (txbdAddr 0) = BitVec.ofNat 32 s.params.ep0TxOff
  frame : ∀ a, ¬(txbdAddr 0 ≤ a ∧ a < txbdAddr 0 + 4) → storedByte t a = storedByte s a

/-- The state after an OUT data packet was rejected for the class `e` (R225, R303, R304): TX is stalled, RX is not; no
byte of memory is written. -/
abbrev OutRejected (e : ErrorClass) (s t : State) : Prop := t = { s with
    pos := .reread
    errors := s.errors ++ [e]
    cs := { s.cs with rxCb := .none, setup := none }
    chepr := s.chepr.set 0 (Chepr.pack false (Chepr.dtogrx s.chepr[(0 : Fin 8)]) stValid
      (Chepr.setup s.chepr[(0 : Fin 8)]) (Chepr.utype s.chepr[(0 : Fin 8)]) (Chepr.epkind s.chepr[(0 : Fin 8)])
      (Chepr.vttx s.chepr[(0 : Fin 8)]) (Chepr.dtogtx s.chepr[(0 : Fin 8)]) stStall
      (Chepr.ea s.chepr[(0 : Fin 8)])) }

/-- What the link agent leaves alone, whatever it does (R270): ControlState, CNTR, the position of the invocation, and the
model's own fields but for the windows it moves in. -/
abbrev LinkFrame (s t : State) : Prop := t = { s with
    chepr := t.chepr, istrReset := t.istrReset, istrSof := t.istrSof, daddr := t.daddr, sram := t.sram
    rxUnsettled := t.rxUnsettled, wire := t.wire, windows := t.windows, eraExt := t.eraExt }

/-- CNTR and DADDR hold what CORE or a reset wrote (R43, R45): no cause or every cause enabled, and an address only with
the enable bit. -/
structure RegisterInv (s : State) : Prop where
  mask : s.cntr = 0#16 ∨ s.cntr = 0x8600#16
  address : s.daddr = 0#8 ∨ daddrEf s.daddr = true

/-- A bus reset waits to be served (R276): RESET is set between invocations, or latched by the invocation that runs; the
function is disabled. -/
structure ResetPending (s : State) : Prop where
  cause : (s.pos = .idle ∧ s.istrReset = true) ∨ ∃ v, s.pos = .causes v ∧ v.getLsbD 10 = true
  disabled : s.daddr = 0#8

/-- The packets the host takes when it takes every armed IN packet and each completion is served: at most `n` of them
(R214, R223, R274). -/
def delivered : Nat → State → List (List Byte)
  | 0, _ => []
  | n + 1, s =>
    match linkIn s with
    | .done t => armedPacket s :: (if t.cs.txTail = none then [] else delivered n (controlTxDone t))
    | .notEnabled => []
    | .fault _ => []
    | .refused _ => []

/-- The packet lengths of R215 for a response of `L` bytes against a request for `R`. -/
def packetLengths (L R : Nat) : List Nat :=
  let N := min L R
  List.replicate (N / 64) 64 ++ (if 0 < N % 64 then [N % 64] else []) ++
    (if N = 0 ∨ (N % 64 = 0 ∧ L < R) then [0] else [])

/-- A quiescent state (R281): no invocation in progress and `irq = 0`. -/
abbrev Quiescent (s : State) : Prop := s.pos = .idle ∧ irq s = false

end Sys2Proof.Machine
end

