-- ==== Sys2Proof/Certificates/Slice0/Obligations.lean ====
section
/-! DEFINITION. The statements for the provers. Unless a docstring says otherwise a statement holds for every state; those
about a whole handler hold where no move of the link agent lands between its accesses (`Quiet`: always under
`GRANULARITY = handler`, R96). What the link agent can do in such a window is the subject of the statements about
`EpUpdate` and about the moves. -/

section

open Sys2Proof Sys2Proof.Machine

/-! ## Encodings -/

/-- Words written out from the tables of R100 to R102 decode to the events of R110. -/
def Obligations.SpecWordsDecode : Prop :=
  decode ⟨.istr, [0x00#8, 0x02#8], false⟩ = .ok (.irqSof false false 0#5) ∧
  decode ⟨.istr, [0x00#8, 0x04#8], false⟩ = .ok (.irqReset false 0#5) ∧
  decode ⟨.istr, [0x13#8, 0x80#8], false⟩ = .ok (.irqCtr 0x13#5) ∧
  decode ⟨.cc5, [0x00#8], false⟩ = .ok .ctrEp0Tx ∧
  decode ⟨.cc5, [0x10#8], true⟩ = .ok .ctrEp0RxSetup ∧
  decode ⟨.cc5, [0x10#8], false⟩ = .ok .ctrEp0RxOut ∧
  decode ⟨.cc5, [0x07#8], false⟩ = .ok (.ctrCapTx 6) ∧
  decode ⟨.cc5, [0x11#8], false⟩ = .ok (.ctrCapRx 0) ∧
  decode ⟨.cc5, [0x1f#8], false⟩ = .ok (.ctrUndispatchable true 7#3) ∧
  decode ⟨.setup8, [0x80#8, 0x06#8, 0x01#8, 0x01#8, 0x00#8, 0x00#8, 0x12#8, 0x00#8], false⟩ =
    .ok (.getDescriptorDevice 0x01#8 0#16 18#16) ∧
  decode ⟨.setup8, [0x00#8, 0x05#8, 0x05#8, 0x00#8, 0x00#8, 0x00#8, 0x00#8, 0x00#8], false⟩ =
    .ok (.setAddress 0x05#8 0x00#8 0#16 0#16) ∧
  decode ⟨.setup8, [0x21#8, 0x20#8, 0x00#8, 0x00#8, 0x01#8, 0x00#8, 0x07#8, 0x00#8], false⟩ =
    .ok (.classDispatch 0x21#8 0x20#8 0x00#8 0x00#8 1#16 7#16)

/-- Decoding the encoding of a well-formed event gives the event back, every operand included. -/
def Obligations.DecodeEncodeAgree : Prop :=
  ∀ i : Instr, i.wf = true → decode (encode i) = .ok i

/-- What is decoded is well-formed, and no bit of the word is dropped: the event encodes to the word it came from (for a
register value: one whose unnamed bits are zero, as R40 says they read; a completion code apart from the SETUP flag,
which is no bit of it). -/
def Obligations.EncodeDecodeAgree : Prop :=
  (∀ (w : EventWord) (i : Instr), decode w = .ok i → i.wf = true) ∧
  (∀ (h : SetupHeader) (i : Instr), decode (headerEvent h) = .ok i → encode i = headerEvent h) ∧
  (∀ (v : Half) (i : Instr), v &&& 0x861f#16 = v → decode (istrEvent v) = .ok i → encode i = istrEvent v) ∧
  (∀ (c : BitVec 5) (setup : Bool) (i : Instr), decode (codeEvent c setup) = .ok i →
    ∃ flag, encode i = codeEvent c flag)

/-- The decoder gives the first row of the table that matches (R110; bytes beyond the eighth are not read, R114), and every
event of the three formats matches a row: each request header, each completion code, and a register value exactly when
it has a cause. -/
def Obligations.DecodeFollowsTablePriority : Prop :=
  (∀ (w : EventWord) (i : Instr), decode w = .ok i →
    tableMnemonic w.format (BitVec.ofNat 64 (leSum (w.bytes.take 8))) w.setup = some i.mnemonic) ∧
  (∀ h : SetupHeader, ∃ i, decode (headerEvent h) = .ok i) ∧
  (∀ (c : BitVec 5) (setup : Bool), ∃ i, decode (codeEvent c setup) = .ok i) ∧
  (∀ v : Half, (∃ i, decode (istrEvent v) = .ok i) ↔ v &&& 0x8600#16 ≠ 0#16)

/-- `UnparseSetup` is the two-sided inverse of `ParseSetup` on aligned, settled input (R131). -/
def Obligations.ParseRoundTrip : Prop :=
  (∀ (s : State) (a : Nat), s.rxUnsettled = false → a % 4 = 0 →
    (parseSetup a s).bytes = storedBytes s a 8) ∧
  (∀ (s : State) (a : Nat) (h : SetupHeader), s.rxUnsettled = false → a % 4 = 0 →
    storedBytes s a 8 = h.bytes → parseSetup a s = h)

/-- The two 16-bit fields of the header are little-endian (R74), the other four are single bytes (R130). -/
def Obligations.ParseFieldOrder : Prop :=
  ∀ (s : State) (a : Nat), s.rxUnsettled = false → a % 4 = 0 →
    (parseSetup a s).requestType = storedByte s a ∧
    (parseSetup a s).request = storedByte s (a + 1) ∧
    (parseSetup a s).valueLo = storedByte s (a + 2) ∧
    (parseSetup a s).valueHi = storedByte s (a + 3) ∧
    (parseSetup a s).index.toNat = (storedByte s (a + 4)).toNat + 256 * (storedByte s (a + 5)).toNat ∧
    (parseSetup a s).length.toNat = (storedByte s (a + 6)).toNat + 256 * (storedByte s (a + 7)).toNat

/-! ## Memory -/

/-- `MemRead` is little-endian (R72); `MemWrite`, `MemWriteBytes` and `MemReadBytes` (R73): what is stored, what is read,
and that no other byte changes. -/
def Obligations.MemoryBytes : Prop :=
  (∀ (s : State) (a n : Nat), s.rxUnsettled = false →
    memRead s a n = ∑ i ∈ Finset.range n, (storedByte s (a + i)).toNat * 256 ^ i ∧
    memReadBytes s a n = (List.range n).map fun i => storedByte s (a + i)) ∧
  ∀ s : State, Quiet s →
    (∀ a n v i : Nat, i < n → storedByte (memWrite a n v s) (a + i) = BitVec.ofNat 8 (v / 256 ^ i)) ∧
    (∀ a n v x : Nat, ¬(a ≤ x ∧ x < a + n) → storedByte (memWrite a n v s) x = storedByte s x) ∧
    (∀ (a : Nat) (l : List Byte) (i : Nat), i < l.length →
      storedByte (memWriteBytes a l s) (a + i) = l.getD i 0#8) ∧
    (∀ (a : Nat) (l : List Byte) (x : Nat), ¬(a ≤ x ∧ x < a + l.length) →
      storedByte (memWriteBytes a l s) x = storedByte s x)

/-- While `rx_unsettled` is true CORE reads a draw in the RX buffer and in `RXBD[0]` and the stored byte elsewhere; the
errata delay ends that and changes no stored byte (R94, R95). The draw is the free value of log 9. -/
def Obligations.UnsettledReadsAreDraws : Prop :=
  ∀ (s : State) (a : Nat),
    (s.rxUnsettled = true → inRxBuffer s.params a = true ∨ (4 ≤ a ∧ a < 8) →
      coreByte s a = Config.freeRead s.tick a) ∧
    (s.rxUnsettled = false ∨ (inRxBuffer s.params a = false ∧ ¬(4 ≤ a ∧ a < 8)) →
      coreByte s a = storedByte s a) ∧
    coreByte (errataDelay s) a = storedByte s a ∧ storedByte (errataDelay s) a = storedByte s a

/-- The RX block-size code accepts exactly the legal sizes, and a descriptor armed with a legal size has that capacity,
but for 1024, whose code means 1023 (R106, R163). -/
def Obligations.RxCodeLegalSizes : Prop :=
  (∀ size : Nat, (rxCode size).isSome = true ↔
    (size % 2 = 0 ∧ 2 ≤ size ∧ size ≤ 62) ∨ (size % 32 = 0 ∧ 64 ≤ size ∧ size ≤ 1024) ∨ size = 1023) ∧
  (∀ (size : Nat) (bl : Bool) (nb : BitVec 5), rxCode size = some (bl, nb) →
    rxCapacity bl nb = some (min size 1023))

/-- `BdSetTx` and `BdSetRx` store one descriptor word, which `BdTxDecode` and `BdRxDecode` read back, and no other byte
(R160 to R164). -/
def Obligations.DescriptorsStored : Prop :=
  ∀ (s : State) (n : Fin 8) (off count : Half), Quiet s → s.rxUnsettled = false →
    bdTxDecode n (bdSetTx n off count s) = (s.params.sramBase + off.toNat, count.toNat) ∧
    storedWord (bdSetTx n off count s) (txbdAddr n) = count ++ off ∧
    (∀ a, ¬(txbdAddr n ≤ a ∧ a < txbdAddr n + 4) → storedByte (bdSetTx n off count s) a = storedByte s a) ∧
    ∀ (size : Nat) (bl : Bool) (nb : BitVec 5), rxCode size = some (bl, nb) →
      ∃ t, bdSetRx n off size s = some t ∧ bdRxDecode n t = (s.params.sramBase + off.toNat, 0) ∧
        rxbdBl (storedWord t (rxbdAddr n)) = bl ∧ rxbdNb (storedWord t (rxbdAddr n)) = nb ∧
        ∀ a, ¬(rxbdAddr n ≤ a ∧ a < rxbdAddr n + 4) → storedByte t a = storedByte s a

/-! ## Registers -/

/-- What a write of `w` does to each field of CHEPR[n] (R151, R152, R153): toggle fields flip, complete flags can only
fall, plain fields are stored, SETUP stays; bits 31:16 are ignored and read zero; no other register changes. -/
def Obligations.CheprWriteFields : Prop :=
  ∀ (s : State) (n : Fin 8) (w : Word),
    let old := s.chepr[n]
    let t := pokeReg (.chepr n) w s
    let new := t.chepr[n]
    Chepr.statrx new = Chepr.statrx old ^^^ w.extractLsb' 12 2 ∧
    Chepr.dtogrx new = (Chepr.dtogrx old ^^ w.getLsbD 14) ∧
    Chepr.stattx new = Chepr.stattx old ^^^ w.extractLsb' 4 2 ∧
    Chepr.dtogtx new = (Chepr.dtogtx old ^^ w.getLsbD 6) ∧
    Chepr.vtrx new = (Chepr.vtrx old && w.getLsbD 15) ∧
    Chepr.vttx new = (Chepr.vttx old && w.getLsbD 7) ∧
    Chepr.ea new = w.extractLsb' 0 4 ∧ Chepr.utype new = w.extractLsb' 9 2 ∧ Chepr.epkind new = w.getLsbD 8 ∧
    Chepr.setup new = Chepr.setup old ∧
    new = (w.extractLsb' 0 16 &&& 0x070f#16) ||| ((old ^^^ w.extractLsb' 0 16) &&& 0x7070#16) |||
      ((old &&& w.extractLsb' 0 16) &&& 0x8080#16) ||| (old &&& 0x0800#16) ∧
    (peekReg (.chepr n) t).extractLsb' 0 16 = new ∧ (peekReg (.chepr n) t).extractLsb' 16 16 = 0#16 ∧
    t = { s with chepr := s.chepr.set n new }

/-- `EpUpdate` (R155): with nothing between the read and the write every field with a target ends at it, a flag is cleared
if asked, every other field, register and byte stays, and repeating the update changes nothing more. When the register
read `v` has become `old` before the write, a status or toggle field with a target ends at `old xor (v xor target)`, one
without keeps what it has in `old`, and so does SETUP; a complete flag falls if asked and else keeps what it has in `old`;
EA and UTYPE end at the target or at the value read, and EPKIND at the value read. This last clause is the model's choice
(log 30): it follows the pseudocode of R155 and R153 against R155's sentence on fields without a target. -/
def Obligations.EpUpdateReachesTargets : Prop :=
  (∀ (s : State) (n : Fin 8) (req : EpReq), Quiet s →
    let v := s.chepr[n]
    let new := Chepr.pack (Chepr.vtrx v && !req.clrRx) (req.dtogrx.getD (Chepr.dtogrx v))
      (req.statrx.getD (Chepr.statrx v)) (Chepr.setup v) (req.utype.getD (Chepr.utype v)) (Chepr.epkind v)
      (Chepr.vttx v && !req.clrTx) (req.dtogtx.getD (Chepr.dtogtx v)) (req.stattx.getD (Chepr.stattx v))
      (req.ea.getD (Chepr.ea v))
    epUpdate n req s = { s with chepr := s.chepr.set n new } ∧ epUpdate n req (epUpdate n req s) = epUpdate n req s) ∧
  (∀ (v old : Half) (req : EpReq),
    let new := Chepr.write old (Chepr.deltas v req)
    Chepr.statrx new = (match req.statrx with
      | some x => Chepr.statrx old ^^^ (Chepr.statrx v ^^^ x) | none => Chepr.statrx old) ∧
    Chepr.stattx new = (match req.stattx with
      | some x => Chepr.stattx old ^^^ (Chepr.stattx v ^^^ x) | none => Chepr.stattx old) ∧
    Chepr.dtogrx new = (match req.dtogrx with
      | some x => Chepr.dtogrx old ^^ (Chepr.dtogrx v ^^ x) | none => Chepr.dtogrx old) ∧
    Chepr.dtogtx new = (match req.dtogtx with
      | some x => Chepr.dtogtx old ^^ (Chepr.dtogtx v ^^ x) | none => Chepr.dtogtx old) ∧
    Chepr.vtrx new = (Chepr.vtrx old && !req.clrRx) ∧ Chepr.vttx new = (Chepr.vttx old && !req.clrTx) ∧
    Chepr.setup new = Chepr.setup old ∧ Chepr.ea new = req.ea.getD (Chepr.ea v) ∧
    Chepr.utype new = req.utype.getD (Chepr.utype v) ∧ Chepr.epkind new = Chepr.epkind v)

/-- A write to ISTR clears the cause bits written as 1 and nothing else (R42). -/
def Obligations.IstrWriteOneToClear : Prop :=
  ∀ (s : State) (w : Word), pokeReg .istr w s =
    { s with istrReset := s.istrReset && !w.getLsbD 10, istrSof := s.istrSof && !w.getLsbD 9 }

/-- ISTR.CTR and the completion code are derived from the complete flags (R41), in a state where no code is forced
(log 15): CTR is 1 exactly when a flag is set; the code then names a pending slot; every pending slot is named by some
choice of `CTR_PICK`; with CTR 0 the code reads 0; codes with bit 3 set never appear. -/
def Obligations.IstrReportsPendingSlot : Prop :=
  ∀ s : State, s.badCode = none →
    ((istrValue s).getLsbD 15 = true ↔
      ∃ n : Fin 8, Chepr.vtrx s.chepr[n] = true ∨ Chepr.vttx s.chepr[n] = true) ∧
    ((istrValue s).getLsbD 15 = true → ∃ n : Fin 8, ((istrValue s).extractLsb' 0 4).toNat = n.val ∧
      ((istrValue s).getLsbD 4 = true ∧ Chepr.vtrx s.chepr[n] = true ∨
        (istrValue s).getLsbD 4 = false ∧ Chepr.vttx s.chepr[n] = true)) ∧
    (∀ n : Fin 8, Chepr.vtrx s.chepr[n] = true →
      (istrValue { s with pick := some (BitVec.ofNat 5 (16 + n.val)) }).extractLsb' 0 5 =
        BitVec.ofNat 5 (16 + n.val)) ∧
    (∀ n : Fin 8, Chepr.vttx s.chepr[n] = true →
      (istrValue { s with pick := some (BitVec.ofNat 5 n.val) }).extractLsb' 0 5 = BitVec.ofNat 5 n.val) ∧
    ((istrValue s).getLsbD 15 = false → (istrValue s).extractLsb' 0 5 = 0#5) ∧
    (istrValue s).getLsbD 3 = false

/-! ## Reset and initialisation -/

/-- The power-on values, at `State.reset` and after the step that reads a `POR` line, from any state: ControlState cleared
(R65); the registers zero, `rx_unsettled` false, `wire` empty, no interrupt. R66 marks the values of the second part as
the spec's own choice from general knowledge (its D36). -/
def Obligations.PowerOnValues : Prop :=
  (∀ s : State, ∀ t ∈ [State.reset, powerOn s],
    t.cs = { setup := none, txTail := none, txTailCb := .none, short := false, pendingAddr := none,
             configured := false, rxCb := .none, postAckCb := .none } ∧
    (∀ n : Fin 8, t.chepr[n] = 0#16) ∧ peekReg .istr t = 0#32 ∧ t.cntr = 0#16 ∧ t.daddr = 0#8 ∧
    t.rxUnsettled = false ∧ t.wire = [] ∧ irq t = false) ∧
  (∀ (s : State) (rest : List ScriptLine), s.pos = .idle → s.script = .por :: rest →
    step s = .next { powerOn { s with script := rest } with tick := s.tick + 1 })

/-- Re-initialisation (R67, R255 to R257): all of ControlState, both descriptors of entry 0, CHEPR[0], CNTR and DADDR take
the values the rules give, whatever was there; CHEPR[0] is `0x3220` when it was 0. A `CORE INIT` line runs it (R255). -/
def Obligations.ReinitialisationValues : Prop :=
  ∀ s : State, Quiet s → Reinitialised s (deviceInit s) ∧
    (s.chepr[(0 : Fin 8)] = 0#16 → (deviceInit s).chepr[(0 : Fin 8)] = 0x3220#16) ∧
    ∀ rest, s.pos = .idle → s.script = .init :: rest →
      ∃ t, step s = .next t ∧ Reinitialised { s with script := rest, tick := s.tick + 1 } t

/-- The invariants stated below hold after power-on. -/
def Obligations.ResetMeetsInvariants : Prop :=
  SramInv State.reset ∧ TokenInv State.reset ∧ OracleInv State.reset ∧ RegisterInv State.reset ∧
    DispatchableInv State.reset ∧ TransferInv State.reset ∧ EndpointZeroInv State.reset ∧ RunInv State.reset

/-! ## The step -/

/-- A step runs the decoded event. The event word is the latched causes, the completion code (for code 16 with the SETUP
flag, after the errata delay, R181, R249), or the latched header (R97); the step is `exec` of what it decodes to, and
the counter of the free values advances. -/
def Obligations.StepRunsDecoded : Prop :=
  (∀ (s s1 : State) (w : EventWord) (i : Instr), fetch s = some (w, s1) → decode w = .ok i →
    step s = tickOutcome (exec i s1)) ∧
  (∀ (s : State) (v : Half), s.pos = .causes v → fetch s = some (istrEvent v, s)) ∧
  (∀ (s : State) (h : SetupHeader), s.pos = .request h → fetch s = some (headerEvent h, s)) ∧
  (∀ (s : State) (c : BitVec 5), s.pos = .code c → c ≠ 16#5 → fetch s = some (codeEvent c false, s)) ∧
  (∀ s : State, s.pos = .code 16#5 → Quiet s →
    fetch s = some (codeEvent 16#5 (Chepr.setup s.chepr[(0 : Fin 8)]), { s with rxUnsettled := false }))

/-- The interrupt line is the AND of ISTR, CNTR and the mask, reduced by OR, on the registers as they are read (R311).
Interrupt entry (R241, R242, R314): an invocation reads ISTR, clears exactly the SOF and RESET bits it read, saves nothing
and latches what it read; after a served completion only CTR and the code of the new read count. When an invocation
starts is the model's choice, for R311 obliges nothing: with an empty script at the first step with `irq` asserted (log 2,
unsafe for liveness), else nothing happens; on a `CORE DISPATCH` line if `irq` is asserted or no cause is pending (R315),
else the line is dropped (logs 3, 20). -/
def Obligations.InvocationEntry : Prop :=
  (∀ s : State, irq s = true ↔ peekReg .istr s &&& peekReg .cntr s &&& 0x8600#32 ≠ 0#32) ∧
  ∀ s : State, Quiet s →
    (s.pos = .idle → s.script = [] → irq s = true → step s = .next { s with
      istrReset := false, istrSof := false, any := false, pos := .causes (istrValue s), tick := s.tick + 1 }) ∧
    (s.pos = .idle → s.script = [] → irq s = false → step s = .next { s with tick := s.tick + 1 }) ∧
    (∀ rest, s.pos = .idle → s.script = .dispatch :: rest →
      (irq s = true ∨ istrValue s &&& 0x8600#16 = 0#16 → step s = .next { s with
        script := rest, istrReset := false, istrSof := false, any := false, pos := .causes (istrValue s)
        tick := s.tick + 1 }) ∧
      (irq s = false → istrValue s &&& 0x8600#16 ≠ 0#16 → step s = .next { s with
        script := rest, tick := s.tick + 1 })) ∧
    (s.pos = .reread → step s = .next { s with
      pos := .causes (istrValue s &&& 0x801f#16), tick := s.tick + 1 })

/-- The causes of one read are served in the fixed order start of frame, bus reset, transfer complete, all that are set;
with none left the invocation returns (R240, R258, R313). `any` is true once RESET or CTR was served. `IRQ_CTR` (R248)
itself begins one turn of the loop on the code that was read and changes nothing else. -/
def Obligations.CausesServedInOrder : Prop :=
  ∀ (s : State) (reset ctr : Bool) (code : BitVec 5),
    exec (.irqCtr code) s = .next { s with any := true, pos := .code code } ∧
    (s.pos = .causes (istrWord true reset ctr code) →
      ∃ t, step s = .next t ∧ t.pos = .causes (istrWord false reset ctr code) ∧ t.any = s.any) ∧
    (s.pos = .causes (istrWord false true ctr code) →
      ∃ t, step s = .next t ∧ t.pos = .causes (istrWord false false ctr code) ∧ t.any = true) ∧
    (s.pos = .causes (istrWord false false true code) →
      step s = .next { s with any := true, pos := .code code, tick := s.tick + 1 }) ∧
    (s.pos = .causes (istrWord false false false code) →
      step s = .next { s with pos := .idle, returned := some s.any, tick := s.tick + 1 })

/-- No instruction stops, and a step stops only on a line of the script (R300 to R308: no error class stops CORE). -/
def Obligations.OnlyScriptLinesStop : Prop :=
  (∀ (i : Instr) (s : State), ∃ t, exec i s = .next t) ∧
  (∀ s : State, (∀ t, step s ≠ .next t) → s.pos = .idle ∧ s.script ≠ [])

/-- Every invocation comes to its end (R254), where no completion arrives while it runs and the ORACLE lines keep the
contract: once entered, by itself or on a `CORE DISPATCH` line, it returns after at most four steps for each complete flag
set at entry (one turn of the loop, R248) and three more, before another line is read, with no completion left pending, and
with the value of R258. At most sixteen flags are set. That a turn is at most four steps is the model's choice (log 1). -/
def Obligations.InvocationEnds : Prop :=
  ∀ s u : State, Quiet s → OracleInv s → s.badCode = none → s.pos = .idle → step s = .next u → u.pos ≠ .idle →
    (pendingSlots s).length ≤ 16 ∧
    ∃ n t, n ≤ 4 * (pendingSlots s).length + 3 ∧ Host.Core.run Sys2Proof.core n u = .next t ∧
      t.pos = .idle ∧ t.script = u.script ∧ pendingSlots t = [] ∧
      t.returned = some (s.istrReset || decide (pendingSlots s ≠ []))

/-! ## The dispatcher's events -/

/-- `IRQ_SOF` (R244): the seven notifications in ascending order, configured or not; nothing of CORE's is written. -/
def Obligations.StartOfFrame : Prop :=
  ∀ (s : State) (reset ctr : Bool) (code : BitVec 5), Quiet s →
    ∃ t, exec (.irqSof reset ctr code) s = .next t ∧
      CapabilityFrame { s with pos := .causes (istrWord false reset ctr code) } t ∧
      t.calls = s.calls ++ [.sof 0, .sof 1, .sof 2, .sof 3, .sof 4, .sof 5, .sof 6]

/-- `IRQ_RESET` (R246): `DeviceInit`, before any completion of the same invocation; tokens, tail and deferred address are
dropped without being invoked. -/
def Obligations.BusReset : Prop :=
  ∀ (s : State) (ctr : Bool) (code : BitVec 5), Quiet s →
    ∃ t, exec (.irqReset ctr code) s = .next t ∧
      Reinitialised { s with any := true, pos := .causes (istrWord false false ctr code) } t

/-- `CTR_CAP_TX`, `CTR_CAP_RX` (R251, R252): the handler of the capability is called, configured or not; the delay comes
first for RX only; CORE writes nothing of its own. The handler clears its complete flag (R322 (e), R254): one whose effect
is free always (log 11), one that an ORACLE line fixes where the lines in force were admitted (log 12). -/
def Obligations.CapabilityCompletions : Prop :=
  ∀ (s : State) (k : Cap), Quiet s →
    (∃ t, exec (.ctrCapTx k) s = .next t ∧ CapabilityFrame { s with pos := .reread } t ∧
      t.calls = s.calls ++ [.txHandler k] ∧
      (behaviour s (.txHandler k) = none ∨ OracleInv s → Chepr.vttx t.chepr[capEp k] = false)) ∧
    (∃ t, exec (.ctrCapRx k) s = .next t ∧ CapabilityFrame { s with pos := .reread, rxUnsettled := false } t ∧
      t.calls = s.calls ++ [.rxHandler k] ∧
      (behaviour s (.rxHandler k) = none ∨ OracleInv s → Chepr.vtrx t.chepr[capEp k] = false))

/-- `CTR_UNDISPATCHABLE` (R253): the class is recorded, the loop is left, nothing is cleared, the invocation returns true,
and the interrupt is as it was. The hang this makes (R305, R359): while a code with bit 3 set is forced (log 15) and CTR is
enabled, one more invocation records the class again and ends where it began; ControlState, registers and SRAM are
unchanged. -/
def Obligations.UndispatchableCode : Prop :=
  (∀ (s : State) (rx : Bool) (low : BitVec 3),
    ∃ t, exec (.ctrUndispatchable rx low) s = .next t ∧
      t = { s with errors := s.errors ++ [.badCode], pos := .idle, returned := some true } ∧
      istrValue t = istrValue s ∧ irq t = irq s) ∧
  ∀ (s : State) (c : BitVec 5), Quiet s → s.badCode = some c → c.getLsbD 3 = true →
    s.istrReset = false → s.istrSof = false → s.cntr.getLsbD 15 = true → s.pos = .idle → s.script = [] →
    ∃ t, Host.Core.run Sys2Proof.core 3 s = .next t ∧ irq t = true ∧
      t = { s with errors := s.errors ++ [.badCode], any := true, returned := some true, tick := s.tick + 3 }

/-! ## Endpoint 0, transmit completion -/

/-- `CTR_EP0_TX` with a tail (R223): the next chunk is sent and TX armed again; the header and `short` are not written. -/
def Obligations.TxDoneSendsTail : Prop :=
  ∀ (s : State) (rem : List Byte), Quiet s → s.cs.txTail = some rem →
    ∃ t, exec .ctrEp0Tx s = .next t ∧ ChunkStored rem s t ∧
      t = { s with
        pos := .reread
        cs := afterChunk rem s.cs.txTailCb s.cs
        chepr := s.chepr.set 0 (Chepr.pack (Chepr.vtrx s.chepr[(0 : Fin 8)]) (Chepr.dtogrx s.chepr[(0 : Fin 8)])
          (Chepr.statrx s.chepr[(0 : Fin 8)]) (Chepr.setup s.chepr[(0 : Fin 8)]) (Chepr.utype s.chepr[(0 : Fin 8)])
          (Chepr.epkind s.chepr[(0 : Fin 8)]) false (Chepr.dtogtx s.chepr[(0 : Fin 8)]) stValid
          (Chepr.ea s.chepr[(0 : Fin 8)]))
        sram := t.sram }

/-- `CTR_EP0_TX` without a tail (R221, R222, R226): the post-ACK token is invoked if there is one and a header, the token
and the header are cleared, RX is re-armed with its toggle 0. -/
def Obligations.TxDoneEndsTransfer : Prop :=
  ∀ s : State, Quiet s → s.cs.txTail = none →
    ∃ u t, TokenInvoked s u ∧ exec .ctrEp0Tx s = .next t ∧
      t = { u with
        pos := .reread
        cs := { u.cs with postAckCb := .none, setup := none }
        chepr := u.chepr.set 0 (Chepr.pack (Chepr.vtrx s.chepr[(0 : Fin 8)]) false stValid
          (Chepr.setup s.chepr[(0 : Fin 8)]) (Chepr.utype s.chepr[(0 : Fin 8)]) (Chepr.epkind s.chepr[(0 : Fin 8)])
          false (Chepr.dtogtx s.chepr[(0 : Fin 8)]) (Chepr.stattx s.chepr[(0 : Fin 8)])
          (Chepr.ea s.chepr[(0 : Fin 8)])) }

/-- DADDR during a transfer (R356, R45): an event changes it only as the re-initialisation of a bus reset, or as the
deferred address at a transmit completion without a tail while `APPLY_ADDRESS` is pending. R356 takes that completion to be
the one of the status packet, which it is unless a SETUP packet landed on an unserved completion (log 28). -/
def Obligations.AddressAppliedLate : Prop :=
  ∀ (i : Instr) (s t : State), Quiet s → exec i s = .next t → t.daddr ≠ s.daddr →
    (∃ ctr code, i = .irqReset ctr code ∧ t.daddr = 0x80#8) ∨
    (i = .ctrEp0Tx ∧ s.cs.txTail = none ∧ s.cs.postAckCb = .applyAddress ∧
      ∃ a, s.cs.pendingAddr = some a ∧ t.daddr = 0x80#8 ||| a.setWidth 8 ∧ t.cs.pendingAddr = none)

/-- `cs.configured` is set only by SET_CONFIGURATION with value 1 and cleared only by re-initialisation (R26), whatever the
link agent does meanwhile. -/
def Obligations.ConfiguredWriters : Prop :=
  ∀ (i : Instr) (s t : State), exec i s = .next t → t.cs.configured ≠ s.cs.configured →
    (∃ vhi idx len, i = .setConfiguration1 vhi idx len ∧ t.cs.configured = true) ∨
    (∃ ctr code, i = .irqReset ctr code ∧ t.cs.configured = false)

/-! ## Endpoint 0, receive completion -/

/-- `CTR_EP0_RX_SETUP` (R180, R182, R184, R301): the clears; then a reported length below 8 stalls both directions with no
header, no call and no byte read, and any other length latches the header parsed from the RX buffer. That the event ends
here, and the latched header is classified and applied by the next step as an event of its own, is the model's choice
(logs 1, 23): R180 does both in one handler. -/
def Obligations.SetupReceived : Prop :=
  ∀ s : State, Quiet s →
    let clear : State := { s with cs := { s.cs with
      pendingAddr := none, txTail := none, txTailCb := .none, rxCb := .none, postAckCb := .none } }
    (bdRxCount 0 s < 8 → ∃ t, exec .ctrEp0RxSetup s = .next t ∧
      Stalled .shortSetup { clear with cs := { clear.cs with setup := none } } t) ∧
    (8 ≤ bdRxCount 0 s → ∃ t, exec .ctrEp0RxSetup s = .next t ∧
      t = { clear with
        cs := { clear.cs with setup := some (parseSetup s.params.ep0RxOff s) }
        pos := .request (parseSetup s.params.ep0RxOff s) }) ∧
    (s.rxUnsettled = false → bdRxCount 0 s = (rxbdCount (storedWord s (rxbdAddr 0))).toNat ∧
      (parseSetup s.params.ep0RxOff s).bytes = storedBytes s s.params.ep0RxOff 8)

/-- `CTR_EP0_RX_OUT`, the discard path (R224): with no header, or one of length 0, the packet is not looked at. -/
def Obligations.OutDiscarded : Prop :=
  ∀ s : State, Quiet s → (∀ h, s.cs.setup = some h → h.length = 0#16) →
    ∃ t, exec .ctrEp0RxOut s = .next t ∧
      t = { s with
        pos := .reread
        cs := { s.cs with txTail := none, txTailCb := .none }
        chepr := s.chepr.set 0 (Chepr.pack false (Chepr.dtogrx s.chepr[(0 : Fin 8)]) stValid
          (Chepr.setup s.chepr[(0 : Fin 8)]) (Chepr.utype s.chepr[(0 : Fin 8)]) (Chepr.epkind s.chepr[(0 : Fin 8)])
          (Chepr.vttx s.chepr[(0 : Fin 8)]) (Chepr.dtogtx s.chepr[(0 : Fin 8)]) stNak
          (Chepr.ea s.chepr[(0 : Fin 8)])) }

/-- `CTR_EP0_RX_OUT`, the data path (R225, R303, R304): a wrong length is rejected without a call; without a predicate the
packet is accepted; else the predicate is called once and its answer decides. -/
def Obligations.OutDataJudged : Prop :=
  ∀ (s : State) (h : SetupHeader), Quiet s → s.cs.setup = some h → h.length ≠ 0#16 →
    (bdRxCount 0 s ≠ h.length.toNat → ∃ t, exec .ctrEp0RxOut s = .next t ∧ OutRejected .lenMismatch s t) ∧
    (bdRxCount 0 s = h.length.toNat → s.cs.rxCb = .none →
      ∃ t, exec .ctrEp0RxOut s = .next t ∧ OutAccepted s t) ∧
    (∀ tok, bdRxCount 0 s = h.length.toNat → s.cs.rxCb = .ext tok →
      ∃ u t, CapabilityFrame s u ∧ u.calls = s.calls ++ [.rxDone tok] ∧ exec .ctrEp0RxOut s = .next t ∧
        (verdictOf s (.rxDone tok) = true → OutAccepted u t) ∧
        (verdictOf s (.rxDone tok) = false → OutRejected .predicateFail u t))

/-! ## The requests -/

/-- `GET_STATUS` (R186): two zero bytes, whatever the state, clamped to the requested length. -/
def Obligations.GetStatus : Prop :=
  ∀ (s : State) (vlo vhi : Byte) (idx len : Half), Quiet s →
    ∃ t, exec (.getStatus vlo vhi idx len) s = .next t ∧
      TxApplied [0x00#8, 0x00#8] .none ⟨0x80#8, 0x00#8, vlo, vhi, idx, len⟩ s t

/-- `SET_ADDRESS` (R187): the low seven bits are deferred, a zero-length packet is armed, DADDR is not written. -/
def Obligations.SetAddressDeferred : Prop :=
  ∀ (s : State) (vlo vhi : Byte) (idx len : Half), Quiet s →
    ∃ t, exec (.setAddress vlo vhi idx len) s = .next t ∧
      TxApplied [] .applyAddress ⟨0x00#8, 0x05#8, vlo, vhi, idx, len⟩
        { s with cs := { s.cs with pendingAddr := some (vlo.extractLsb' 0 7) } } t ∧
      t.daddr = s.daddr ∧ t.cs.pendingAddr = some (vlo.extractLsb' 0 7) ∧ t.cs.postAckCb = .applyAddress

/-- `GET_DESCRIPTOR_DEVICE`, `_CONFIG`, `_STRING` (R189, R190, R191): one call of the Descriptor Provider, with the operand
the rule gives it, and its answer applied as it is. -/
def Obligations.DescriptorsFromProvider : Prop :=
  ∀ (s : State) (vlo : Byte) (idx len : Half), Quiet s →
    (∃ t, exec (.getDescriptorDevice vlo idx len) s = .next t ∧
      ResultApplied (answerOf s .device) ⟨0x80#8, 0x06#8, vlo, 1#8, idx, len⟩
        { s with calls := s.calls ++ [.device] } t) ∧
    (∃ t, exec (.getDescriptorConfig vlo idx len) s = .next t ∧
      ResultApplied (answerOf s (.config ⟨0x80#8, 0x06#8, vlo, 2#8, idx, len⟩)) ⟨0x80#8, 0x06#8, vlo, 2#8, idx, len⟩
        { s with calls := s.calls ++ [.config ⟨0x80#8, 0x06#8, vlo, 2#8, idx, len⟩] } t) ∧
    (∃ t, exec (.getDescriptorString vlo idx len) s = .next t ∧
      ResultApplied (answerOf s (.string vlo)) ⟨0x80#8, 0x06#8, vlo, 3#8, idx, len⟩
        { s with calls := s.calls ++ [.string vlo] } t)

/-- `SET_CONFIGURATION_0` and `SET_INTERFACE` (R197, R194): acknowledged; no capability is told, `configured` stays. -/
def Obligations.AcknowledgedRequests : Prop :=
  ∀ (s : State) (vlo vhi : Byte) (idx len : Half), Quiet s →
    (∃ t, exec (.setConfiguration0 vhi idx len) s = .next t ∧
      TxApplied [] .none ⟨0x00#8, 0x09#8, 0x00#8, vhi, idx, len⟩ s t ∧ t.cs.configured = s.cs.configured) ∧
    (∃ t, exec (.setInterface vlo vhi idx len) s = .next t ∧
      TxApplied [] .none ⟨0x01#8, 0x0b#8, vlo, vhi, idx, len⟩ s t)

/-- `GET_DESCRIPTOR_OTHER` and `SET_CONFIGURATION_OTHER` (R188, R193): both directions stall; no call, no ControlState
field, no byte of memory. -/
def Obligations.UnsupportedRequestsStall : Prop :=
  ∀ (s : State) (vlo vhi : Byte) (idx len : Half), Quiet s →
    (∃ t, exec (.getDescriptorOther vlo vhi idx len) s = .next t ∧ Stalled .unsupported s t) ∧
    (∃ t, exec (.setConfigurationOther vlo vhi idx len) s = .next t ∧ Stalled .unsupported s t)

/-- `SET_CONFIGURATION_1` (R192): the seven capabilities initialise in ascending order, exactly once, `configured` is set,
and the request is acknowledged. -/
def Obligations.SetConfigurationInitialises : Prop :=
  ∀ (s : State) (vhi : Byte) (idx len : Half), Quiet s →
    ∃ u t, CapabilityFrame s u ∧
      u.calls = s.calls ++ [.init 0, .init 1, .init 2, .init 3, .init 4, .init 5, .init 6] ∧
      exec (.setConfiguration1 vhi idx len) s = .next t ∧
      TxApplied [] .none ⟨0x00#8, 0x09#8, 0x01#8, vhi, idx, len⟩
        { u with cs := { u.cs with configured := true } } t

/-- `CLASS_DISPATCH` when a capability accepts (R195, R196): those before it are asked once and refuse, it is asked and
handles the request once, those after it are not asked, and its answer is applied. -/
def Obligations.ClassRequestHandled : Prop :=
  ∀ (s : State) (rt rq vlo vhi : Byte) (idx len : Half) (k : Cap), Quiet s →
    let h : SetupHeader := ⟨rt, rq, vlo, vhi, idx, len⟩
    (∀ j : Cap, j < k → verdictOf s (.wanted j h) = false) → verdictOf s (.wanted k h) = true →
    ∃ u t, CapabilityFrame s u ∧
      u.calls = s.calls ++ (allCaps.take k.val).map (fun j => .wanted j h) ++ [.wanted k h, .handler k h] ∧
      exec (.classDispatch rt rq vlo vhi idx len) s = .next t ∧ ResultApplied (answerOf s (.handler k h)) h u t

/-- `CLASS_DISPATCH` when nobody accepts (R195): seven offers, no handler, both directions stall. -/
def Obligations.ClassRequestRefused : Prop :=
  ∀ (s : State) (rt rq vlo vhi : Byte) (idx len : Half), Quiet s →
    let h : SetupHeader := ⟨rt, rq, vlo, vhi, idx, len⟩
    (∀ j : Cap, verdictOf s (.wanted j h) = false) →
    ∃ u t, CapabilityFrame s u ∧ u.calls = s.calls ++ allCaps.map (fun j => .wanted j h) ∧
      exec (.classDispatch rt rq vlo vhi idx len) s = .next t ∧ Stalled .unsupported u t

/-- An `Rx` answer (R212, R213, R135): it arms the data stage exactly when its length is the requested one and not zero;
every other length stalls, and its token is dropped. -/
def Obligations.RxAnswerArmsOrStalls : Prop :=
  ∀ (s : State) (n : Half) (cb : RxTok) (h : SetupHeader), Quiet s →
    (classifyResult (.rx n cb) h = .receive ↔ n = h.length ∧ n ≠ 0#16) ∧
    (classifyResult (.rx n cb) h = .receive → RxArmed cb s (finishRequest (.rx n cb) h s)) ∧
    (classifyResult (.rx n cb) h ≠ .receive → Stalled .unsupported s (finishRequest (.rx n cb) h s) ∧
      (finishRequest (.rx n cb) h s).cs = s.cs)

/-- The ControlState a served request leaves, the calls it makes and the classes it records depend on its header, the
collaborators and ControlState, and not on what the link agent does meanwhile (R198, R270): with other moves in the
windows these three are the same. CHEPR[0] and the SRAM do depend on the moves (R92, R352). -/
def Obligations.RequestsIgnoreLinkMoves : Prop :=
  ∀ (i : Instr) (s t t' : State) (ws : List (List LinkMove)), i.header? ≠ none →
    exec i s = .next t → exec i { s with windows := ws } = .next t' →
    t'.cs = t.cs ∧ t'.calls = t.calls ∧ t'.errors = t.errors

/-! ## The packets of a response -/

/-- The packets the host takes of a `Tx` response (R215, R89): their lengths are the sequence of R215, and their bytes are
the response cut at the requested length, in order. -/
def Obligations.PacketSequence : Prop :=
  ∀ (s : State) (data : List Byte) (cb : TxTok) (h : SetupHeader) (n : Nat), Quiet s →
    daddrEf s.daddr = true → Chepr.vttx s.chepr[(0 : Fin 8)] = false → data.length / 64 + 2 ≤ n →
    (delivered n (applyTx data cb h s)).map List.length = packetLengths data.length h.length.toNat ∧
    (delivered n (applyTx data cb h s)).flatten = data.take (min data.length h.length.toNat)

/-! ## The link agent

The rules of spec/45_link_agent.md are the spec's own decision (its D40). -/

/-- `LinkSetup` (R272): enabled unless RX of endpoint 0 is DISABLED or has an unserved completion or the function is off;
both directions go to NAK, both toggles to 1, SETUP and VTRX are set; the bytes and their count land; nothing else. The
descriptor is not reserved, and the packet fits the SRAM and does not land on `RXBD[0]`. -/
def Obligations.LinkSetupLands : Prop :=
  ∀ (s : State) (bytes : List Byte), bytes.length ≤ 64 →
    let e := s.chepr[(0 : Fin 8)]
    let off := (rxbdOff (storedWord s 4)).toNat
    (daddrEf s.daddr = false ∨ Chepr.statrx e = stDisabled ∨ Chepr.vtrx e = true →
      linkMove (.setupPacket bytes) s = .notEnabled) ∧
    (daddrEf s.daddr = true → Chepr.statrx e ≠ stDisabled → Chepr.vtrx e = false →
      rxReserved (storedWord s 4) = false → off + bytes.length ≤ s.params.sramBytes → 8 ≤ off →
      ∃ t, linkMove (.setupPacket bytes) s = .done t ∧
        t = { s with
          chepr := s.chepr.set 0 (Chepr.pack true true stNak true (Chepr.utype e) (Chepr.epkind e) (Chepr.vttx e)
            true stNak (Chepr.ea e))
          rxUnsettled := true
          wire := s.wire ++ [.setupAck bytes]
          sram := t.sram } ∧
        storedBytes t off bytes.length = bytes ∧
        rxbdCount (storedWord t 4) = BitVec.ofNat 10 bytes.length ∧
        rxbdBl (storedWord t 4) = rxbdBl (storedWord s 4) ∧ rxbdNb (storedWord t 4) = rxbdNb (storedWord s 4) ∧
        rxbdOff (storedWord t 4) = rxbdOff (storedWord s 4) ∧
        ∀ a, ¬(off ≤ a ∧ a < off + bytes.length) → a ≠ 6 → a ≠ 7 → storedByte t a = storedByte s a)

/-- `LinkOut` (R273): enabled only when RX of endpoint 0 is VALID and has no unserved completion; RX goes to NAK, its
toggle flips, SETUP is cleared, VTRX set; TX is left alone. -/
def Obligations.LinkOutLands : Prop :=
  ∀ (s : State) (bytes : List Byte), bytes.length ≤ 64 →
    let e := s.chepr[(0 : Fin 8)]
    let off := (rxbdOff (storedWord s 4)).toNat
    (daddrEf s.daddr = false ∨ Chepr.statrx e ≠ stValid ∨ Chepr.vtrx e = true →
      linkMove (.outPacket bytes) s = .notEnabled) ∧
    (daddrEf s.daddr = true → Chepr.statrx e = stValid → Chepr.vtrx e = false →
      rxReserved (storedWord s 4) = false → off + bytes.length ≤ s.params.sramBytes → 8 ≤ off →
      ∃ t, linkMove (.outPacket bytes) s = .done t ∧
        t = { s with
          chepr := s.chepr.set 0 (Chepr.pack true (!Chepr.dtogrx e) stNak false (Chepr.utype e) (Chepr.epkind e)
            (Chepr.vttx e) (Chepr.dtogtx e) (Chepr.stattx e) (Chepr.ea e))
          rxUnsettled := true
          wire := s.wire ++ [.outAck bytes]
          sram := t.sram } ∧
        storedBytes t off bytes.length = bytes ∧
        rxbdCount (storedWord t 4) = BitVec.ofNat 10 bytes.length ∧
        rxbdBl (storedWord t 4) = rxbdBl (storedWord s 4) ∧ rxbdNb (storedWord t 4) = rxbdNb (storedWord s 4) ∧
        rxbdOff (storedWord t 4) = rxbdOff (storedWord s 4) ∧
        ∀ a, ¬(off ≤ a ∧ a < off + bytes.length) → a ≠ 6 → a ≠ 7 → storedByte t a = storedByte s a)

/-- `LinkIn` (R274): the armed packet goes to the host, TX goes to NAK, its toggle flips, VTTX is set; no byte changes. -/
def Obligations.LinkInSends : Prop :=
  ∀ s : State,
    let e := s.chepr[(0 : Fin 8)]
    let off := ((storedWord s 0).extractLsb' 0 16).toNat
    let count := ((storedWord s 0).extractLsb' 16 16).toNat
    (daddrEf s.daddr = false ∨ Chepr.stattx e ≠ stValid ∨ Chepr.vttx e = true →
      linkMove .inPacket s = .notEnabled) ∧
    (daddrEf s.daddr = true → Chepr.stattx e = stValid → Chepr.vttx e = false → off + count ≤ s.params.sramBytes →
      linkMove .inPacket s = .done { s with
        wire := s.wire ++ [.inData (storedBytes s off count)]
        chepr := s.chepr.set 0 (Chepr.pack (Chepr.vtrx e) (Chepr.dtogrx e) (Chepr.statrx e) (Chepr.setup e)
          (Chepr.utype e) (Chepr.epkind e) true (!Chepr.dtogtx e) stNak (Chepr.ea e)) })

/-- The stall handshakes, bus reset and start of frame (R275, R276, R277). Right after a bus reset only another reset or a start
of frame is enabled. -/
def Obligations.LinkStallResetSof : Prop :=
  ∀ s : State,
    (linkMove .inStall s = if daddrEf s.daddr = true ∧ Chepr.stattx s.chepr[(0 : Fin 8)] = stStall then
      .done { s with wire := s.wire ++ [.inStall] } else .notEnabled) ∧
    (linkMove .outStall s = if daddrEf s.daddr = true ∧ Chepr.statrx s.chepr[(0 : Fin 8)] = stStall then
      .done { s with wire := s.wire ++ [.outStall] } else .notEnabled) ∧
    (∃ t, linkMove .reset s = .done t ∧ (∀ n : Fin 8, t.chepr[n] = 0#16) ∧
      t = { s with chepr := t.chepr, daddr := 0#8, istrReset := true, rxUnsettled := false } ∧
      ∀ m, m ≠ .reset → m ≠ .sof → linkMove m t = .notEnabled) ∧
    linkMove .sof s = .done { s with istrSof := true }

/-- `LinkExt` (R278): a transaction of endpoint `k` completes when its direction is VALID and its flag 0; the status goes to
NAK, the toggle flips, the flag is set; for RX only SRAM outside the three regions and `RXBD[k].COUNT` may change. -/
def Obligations.LinkExtCompletes : Prop :=
  ∀ (s : State) (k : Cap),
    let e := s.chepr[capEp k]
    (daddrEf s.daddr = true ∧ Chepr.stattx e = stValid ∧ Chepr.vttx e = false →
      linkMove (.ext k .tx) s = .done { s with chepr := s.chepr.set (capEp k) (Chepr.pack (Chepr.vtrx e)
        (Chepr.dtogrx e) (Chepr.statrx e) (Chepr.setup e) (Chepr.utype e) (Chepr.epkind e) true (!Chepr.dtogtx e)
        stNak (Chepr.ea e)) }) ∧
    (¬(daddrEf s.daddr = true ∧ Chepr.stattx e = stValid ∧ Chepr.vttx e = false) →
      linkMove (.ext k .tx) s = .notEnabled) ∧
    (daddrEf s.daddr = true ∧ Chepr.statrx e = stValid ∧ Chepr.vtrx e = false →
      ∃ t, linkMove (.ext k .rx) s = .done t ∧
        t = { s with
          chepr := s.chepr.set (capEp k) (Chepr.pack true (!Chepr.dtogrx e) stNak (Chepr.setup e) (Chepr.utype e)
            (Chepr.epkind e) (Chepr.vttx e) (Chepr.dtogtx e) (Chepr.stattx e) (Chepr.ea e))
          sram := t.sram
          eraExt := t.eraExt } ∧
        (∀ a, inRegions s.params a = true → a ≠ rxbdAddr (capEp k) + 2 → a ≠ rxbdAddr (capEp k) + 3 →
          storedByte t a = storedByte s a) ∧
        storedByte t (rxbdAddr (capEp k) + 3) &&& 0xfc#8 = storedByte s (rxbdAddr (capEp k) + 3) &&& 0xfc#8) ∧
    (¬(daddrEf s.daddr = true ∧ Chepr.statrx e = stValid ∧ Chepr.vtrx e = false) →
      linkMove (.ext k .rx) s = .notEnabled)

/-- What the link agent never does (R279), and what it never writes (R270): ControlState, CNTR and CORE's position; UTYPE,
EPKIND and EA except by a bus reset; a complete flag is never cleared except by a bus reset, and never set unless the
direction was VALID (not DISABLED, for a SETUP); a status is never changed to VALID or STALL; no code with bit 3. -/
def Obligations.LinkAgentLimits : Prop :=
  ∀ (m : LinkMove) (s t : State), linkMove m s = .done t → LinkFrame s t ∧
    (s.badCode = none → (istrValue t).getLsbD 3 = false) ∧
    (m ≠ .reset → ∀ n : Fin 8,
      Chepr.utype t.chepr[n] = Chepr.utype s.chepr[n] ∧ Chepr.epkind t.chepr[n] = Chepr.epkind s.chepr[n] ∧
      Chepr.ea t.chepr[n] = Chepr.ea s.chepr[n] ∧
      (Chepr.vtrx s.chepr[n] = true → Chepr.vtrx t.chepr[n] = true) ∧
      (Chepr.vttx s.chepr[n] = true → Chepr.vttx t.chepr[n] = true) ∧
      (Chepr.vtrx s.chepr[n] = false → Chepr.vtrx t.chepr[n] = true → Chepr.statrx s.chepr[n] = stValid ∨
        ((∃ bytes, m = .setupPacket bytes) ∧ Chepr.statrx s.chepr[n] ≠ stDisabled)) ∧
      (Chepr.vttx s.chepr[n] = false → Chepr.vttx t.chepr[n] = true → Chepr.stattx s.chepr[n] = stValid) ∧
      (Chepr.statrx t.chepr[n] = Chepr.statrx s.chepr[n] ∨ Chepr.statrx t.chepr[n] = stNak) ∧
      (Chepr.stattx t.chepr[n] = Chepr.stattx s.chepr[n] ∨ Chepr.stattx t.chepr[n] = stNak))

/-- What a step does on a line of the environment's script (the lines POR, CORE INIT and CORE DISPATCH are above). A link
move that is enabled runs; that one which is not is dropped (log 3) and that a choice for `CTR_PICK` is noted (log 7) is the
model's choice. These stop by name. What the spec refuses: an enabled packet, SETUP or OUT, for a reserved descriptor
(R106, spec/93 U10; log 14), an enabled packet in either direction that leaves the SRAM (R71; log 13), an ORACLE line with
a `Tx` longer than 65535 bytes (R132), or whose first forbidden operation is an illegal RX size (R163) or a store outside
the SRAM (R71). What the spec does not give a collaborator, or leaves outside its claims, and the model chooses to refuse
(log 12): an ORACLE line with an operation of the Descriptor Provider (R12, R322), whose first forbidden operation is a
store in the three regions (R322 (b), (d)), or of a completion handler that does not clear its flag (R322 (e)). That a line
is refused when it is read, and not when the call is made, is the model's choice too (log 12). Every other ORACLE line is
stored. -/
def Obligations.EnvironmentLines : Prop :=
  ∀ (s : State) (rest : List ScriptLine), s.pos = .idle →
    (∀ m, s.script = .link m :: rest →
      (∀ t, linkMove m { s with script := rest } = .done t → step s = .next { t with tick := s.tick + 1 }) ∧
      (linkMove m { s with script := rest } = .notEnabled →
        step s = .next { s with script := rest, tick := s.tick + 1 })) ∧
    (∀ c, s.script = .pick c :: rest → step s = .next { s with script := rest, pick := c, tick := s.tick + 1 }) ∧
    (∀ m bytes, s.script = .link m :: rest →
      (m = .setupPacket bytes ∧ Chepr.statrx s.chepr[(0 : Fin 8)] ≠ stDisabled ∨
        m = .outPacket bytes ∧ Chepr.statrx s.chepr[(0 : Fin 8)] = stValid) →
      bytes.length ≤ 64 → daddrEf s.daddr = true → Chepr.vtrx s.chepr[(0 : Fin 8)] = false →
      (rxReserved (storedWord s 4) = true → step s = .refused .reservedRxCode) ∧
      (rxReserved (storedWord s 4) = false →
        s.params.sramBytes < (rxbdOff (storedWord s 4)).toNat + bytes.length → step s = .fault .sramRange)) ∧
    (s.script = .link .inPacket :: rest → daddrEf s.daddr = true →
      Chepr.stattx s.chepr[(0 : Fin 8)] = stValid → Chepr.vttx s.chepr[(0 : Fin 8)] = false →
      s.params.sramBytes < ((storedWord s 0).extractLsb' 0 16).toNat + ((storedWord s 0).extractLsb' 16 16).toNat →
      step s = .fault .sramRange) ∧
    (∀ o, s.script = .oracle o :: rest →
      (∀ data tok, o.behaviour.result = some (.tx data tok) → 65535 < data.length → step s = .refused .dataTooLong) ∧
      ((∀ data tok, o.behaviour.result = some (.tx data tok) → data.length ≤ 65535) →
        let stored : State := { s with script := rest, oracles := o :: s.oracles, tick := s.tick + 1 }
        (o.behaviour.ops = none → step s = .next stored) ∧
        ∀ ops, o.behaviour.ops = some ops →
          (o.site ∈ [Site.device, Site.config, Site.string] →
            (ops = [] → step s = .next stored) ∧ (ops ≠ [] → step s = .refused .collaboratorContract)) ∧
          (o.site ∉ [Site.device, Site.config, Site.string] →
            (∀ pre off size post, ops = pre ++ .setRx off size :: post → (∀ x ∈ pre, OpLegal s.params x) →
              ¬OpLegal s.params (.setRx off size) → step s = .refused .rxBlockSize) ∧
            (∀ pre a bytes post, ops = pre ++ .store a bytes :: post → (∀ x ∈ pre, OpLegal s.params x) →
              ¬OpLegal s.params (.store a bytes) → step s = .refused .collaboratorContract) ∧
            ((∀ x ∈ ops, OpLegal s.params x) →
              (ClearsServed o.site ops → step s = .next stored) ∧
              (¬ClearsServed o.site ops → step s = .refused .collaboratorContract)))))

/-! ## Whole-machine rules -/

/-- A collaborator call keeps the contract (R322 (a), (b), (d); R12 (3)), and is logged once. Every call leaves
ControlState, endpoint 0, ISTR, CNTR, DADDR and the buffers of endpoint 0 alone. A call of `Cap[k + 1]`, or of a completion
token whose effect an ORACLE line fixes, leaves CHEPR[j + 1] and the eight table bytes of entry j + 1 alone for every other
j, and leaves no RX descriptor that `BdSetRx` refuses. A call of the Descriptor Provider changes only the log of the
calls. -/
def Obligations.CollaboratorContract : Prop :=
  ∀ (s : State) (c : Call), Quiet s →
    CapabilityFrame s (perform c s) ∧ (perform c s).calls = s.calls ++ [c] ∧
    (∀ k, actsFor s c = some k → OwnerFrame k s (perform c s)) ∧
    (c = .device ∨ (∃ h, c = .config h) ∨ (∃ i, c = .string i) → perform c s = { s with calls := s.calls ++ [c] })

/-- The fields of CHEPR[0] no event of a transfer gives a target (R228, R37): outside a bus reset UTYPE, EPKIND, EA, DTOGTX
and SETUP stay and a complete flag can only fall; a bus reset keeps SETUP and EPKIND. -/
def Obligations.EndpointZeroFieldsKept : Prop :=
  ∀ (i : Instr) (s t : State), Quiet s → exec i s = .next t →
    Chepr.setup t.chepr[(0 : Fin 8)] = Chepr.setup s.chepr[(0 : Fin 8)] ∧
    Chepr.epkind t.chepr[(0 : Fin 8)] = Chepr.epkind s.chepr[(0 : Fin 8)] ∧
    (Chepr.vtrx t.chepr[(0 : Fin 8)] = true → Chepr.vtrx s.chepr[(0 : Fin 8)] = true) ∧
    (Chepr.vttx t.chepr[(0 : Fin 8)] = true → Chepr.vttx s.chepr[(0 : Fin 8)] = true) ∧
    ((∀ ctr code, i ≠ .irqReset ctr code) →
      Chepr.utype t.chepr[(0 : Fin 8)] = Chepr.utype s.chepr[(0 : Fin 8)] ∧
      Chepr.ea t.chepr[(0 : Fin 8)] = Chepr.ea s.chepr[(0 : Fin 8)] ∧
      Chepr.dtogtx t.chepr[(0 : Fin 8)] = Chepr.dtogtx s.chepr[(0 : Fin 8)])

/-- R69 after a request was applied: from the state `HandleSetup` leaves (continuation cleared, header stored, RX not
VALID) every request ends in a state where the invariants of R69 hold and endpoint 0 is as they need it. -/
def Obligations.RequestEstablishesTransferInv : Prop :=
  ∀ (i : Instr) (h : SetupHeader) (s t : State), Quiet s → i.header? = some h →
    s.cs.setup = some h → s.cs.txTail = none → s.cs.txTailCb = .none → s.cs.postAckCb = .none →
    s.cs.pendingAddr = none → s.cs.rxCb = .none → Chepr.statrx s.chepr[(0 : Fin 8)] ≠ stValid →
    exec i s = .next t → TransferInv t ∧ EndpointZeroInv t

/-- R69 along a transfer: the completions of endpoint 0 keep the invariants of R69, a transmit completion where no OUT
data stage is armed and no SETUP waits to be served (log 28). -/
def Obligations.CompletionsKeepTransferInv : Prop :=
  ∀ s t : State, Quiet s → TransferInv s → EndpointZeroInv s →
    (exec .ctrEp0RxSetup s = .next t → TransferInv t ∧ EndpointZeroInv t) ∧
    (Chepr.vtrx s.chepr[(0 : Fin 8)] = true → Chepr.setup s.chepr[(0 : Fin 8)] = false →
      exec .ctrEp0RxOut s = .next t → TransferInv t ∧ EndpointZeroInv t) ∧
    (s.cs.rxCb = .none → exec .ctrEp0Tx s = .next t → TransferInv t ∧ EndpointZeroInv t)

/-- R69 along a run: every step keeps the invariants of R69, with what they need of CHEPR[0] and of the position in the
invocation, as long as no SETUP packet lands while a transmit completion of endpoint 0 is unserved (log 28). -/
def Obligations.StepKeepsTransferInv : Prop :=
  ∀ s t : State, Quiet s → RunInv s →
    (∀ bytes rest, s.pos = .idle → s.script = .link (.setupPacket bytes) :: rest →
      Chepr.vttx s.chepr[(0 : Fin 8)] = false) →
    step s = .next t → RunInv t

/-- Every step keeps the SRAM canonical and in range (R71), whatever the granularity. -/
def Obligations.StepKeepsSram : Prop :=
  ∀ s t : State, SramInv s → step s = .next t → SramInv t

/-- Every step keeps (a), (b) and (f) of R69, and admits only ORACLE lines that keep the contract (R132, R163, R322),
whatever the granularity. That a line against the contract is refused when it is read is the model's choice (log 12). -/
def Obligations.StepKeepsTokens : Prop :=
  ∀ s t : State, TokenInv s → OracleInv s → step s = .next t → TokenInv t ∧ OracleInv t

/-- Every step keeps CNTR and DADDR at values CORE or a reset writes (R43, R45), whatever the granularity. And a bus reset
disables the function until `DeviceInit` has run (R276): while it waits to be served, no move of the link agent but another
reset or a start of frame is enabled, and a step keeps it waiting, or ends in what `DeviceInit` writes, or is a power-on.
The second part is for runs in which no move lands between the accesses of CORE; for the others see log 29. -/
def Obligations.StepKeepsRegisters : Prop :=
  (∀ s t : State, RegisterInv s → step s = .next t → RegisterInv t) ∧
  ∀ s : State, ResetPending s →
    (∀ m u, linkMove m s = .done u → (m = .reset ∨ m = .sof) ∧ ResetPending u) ∧
    ∀ t, Quiet s → step s = .next t → ResetPending t ∨
      (t.cs = ControlState.cleared ∧ t.cntr = 0x8600#16 ∧ t.daddr = 0x80#8) ∨ (s.pos = .idle ∧ s.script.head? = some .por)

/-- Every step keeps the run clear of codes with bit 3 set (R41, R279), so that from such a state `CTR_UNDISPATCHABLE` is
never decoded; the parameters never change. -/
def Obligations.UndispatchableUnreachable : Prop :=
  ∀ s : State, DispatchableInv s →
    (∀ t, step s = .next t → DispatchableInv t ∧ t.params = s.params) ∧
    (∀ w s1 rx low, fetch s = some (w, s1) → decode w ≠ .ok (.ctrUndispatchable rx low))

end
end

