-- ==== Sys2Proof/Laws/Bits.lean ====
section
/-! SUPPORT. The fields of CHEPR after each way of making a register value (R35, R151 to R155, R272 to R278): every
operation is said once, field by field, so that no proof looks at a bit position again. -/

namespace Sys2Proof.Machine.Chepr

section pack
variable (a b : Bool) (c : BitVec 2) (d : Bool) (e : BitVec 2) (f g h : Bool) (i : BitVec 2) (j : BitVec 4)

@[simp] theorem vtrx_pack : vtrx (pack a b c d e f g h i j) = a := by
  simp only [vtrx, pack, BitVec.getLsbD_append]
  simp
@[simp] theorem dtogrx_pack : dtogrx (pack a b c d e f g h i j) = b := by
  simp only [dtogrx, pack, BitVec.getLsbD_append]
  simp
@[simp] theorem setup_pack : setup (pack a b c d e f g h i j) = d := by
  simp only [setup, pack, BitVec.getLsbD_append]
  simp
@[simp] theorem epkind_pack : epkind (pack a b c d e f g h i j) = f := by
  simp only [epkind, pack, BitVec.getLsbD_append]
  simp
@[simp] theorem vttx_pack : vttx (pack a b c d e f g h i j) = g := by
  simp only [vttx, pack, BitVec.getLsbD_append]
  simp
@[simp] theorem dtogtx_pack : dtogtx (pack a b c d e f g h i j) = h := by
  simp only [dtogtx, pack, BitVec.getLsbD_append]
  simp
@[simp] theorem statrx_pack : statrx (pack a b c d e f g h i j) = c := by
  apply BitVec.eq_of_getLsbD_eq
  intro k hk
  interval_cases k <;> simp only [statrx, pack, BitVec.getLsbD_extractLsb', BitVec.getLsbD_append] <;> simp
@[simp] theorem utype_pack : utype (pack a b c d e f g h i j) = e := by
  apply BitVec.eq_of_getLsbD_eq
  intro k hk
  interval_cases k <;> simp only [utype, pack, BitVec.getLsbD_extractLsb', BitVec.getLsbD_append] <;> simp
@[simp] theorem stattx_pack : stattx (pack a b c d e f g h i j) = i := by
  apply BitVec.eq_of_getLsbD_eq
  intro k hk
  interval_cases k <;> simp only [stattx, pack, BitVec.getLsbD_extractLsb', BitVec.getLsbD_append] <;> simp
@[simp] theorem ea_pack : ea (pack a b c d e f g h i j) = j := by
  apply BitVec.eq_of_getLsbD_eq
  intro k hk
  interval_cases k <;> simp only [ea, pack, BitVec.getLsbD_extractLsb', BitVec.getLsbD_append] <;> simp

end pack

section write
variable (old w : Half)

theorem vtrx_write : vtrx (write old w) = (vtrx old && vtrx w) := by
  simp [vtrx, write, maskRw, maskTog, maskVt, maskRo]
theorem vttx_write : vttx (write old w) = (vttx old && vttx w) := by
  simp [vttx, write, maskRw, maskTog, maskVt, maskRo]
theorem dtogrx_write : dtogrx (write old w) = (dtogrx old ^^ dtogrx w) := by
  simp [dtogrx, write, maskRw, maskTog, maskVt, maskRo]
theorem dtogtx_write : dtogtx (write old w) = (dtogtx old ^^ dtogtx w) := by
  simp [dtogtx, write, maskRw, maskTog, maskVt, maskRo]
theorem setup_write : setup (write old w) = setup old := by
  simp [setup, write, maskRw, maskTog, maskVt, maskRo]
theorem epkind_write : epkind (write old w) = epkind w := by
  simp [epkind, write, maskRw, maskTog, maskVt, maskRo]
theorem statrx_write : statrx (write old w) = statrx old ^^^ statrx w := by
  apply BitVec.eq_of_getLsbD_eq
  intro k hk
  interval_cases k <;> simp [statrx, write, maskRw, maskTog, maskVt, maskRo]
theorem stattx_write : stattx (write old w) = stattx old ^^^ stattx w := by
  apply BitVec.eq_of_getLsbD_eq
  intro k hk
  interval_cases k <;> simp [stattx, write, maskRw, maskTog, maskVt, maskRo]
theorem utype_write : utype (write old w) = utype w := by
  apply BitVec.eq_of_getLsbD_eq
  intro k hk
  interval_cases k <;> simp [utype, write, maskRw, maskTog, maskVt, maskRo]
theorem ea_write : ea (write old w) = ea w := by
  apply BitVec.eq_of_getLsbD_eq
  intro k hk
  interval_cases k <;> simp [ea, write, maskRw, maskTog, maskVt, maskRo]

end write

/-- A register value is its ten fields (R35). -/
theorem ext_fields {v w : Half} (h1 : vtrx v = vtrx w) (h2 : dtogrx v = dtogrx w) (h3 : statrx v = statrx w)
    (h4 : setup v = setup w) (h5 : utype v = utype w) (h6 : epkind v = epkind w) (h7 : vttx v = vttx w)
    (h8 : dtogtx v = dtogtx w) (h9 : stattx v = stattx w) (h10 : ea v = ea w) : v = w := by
  have bit {n : Nat} {x y : BitVec n} (h : x = y) (k : Nat) : x.getLsbD k = y.getLsbD k := by rw [h]
  have a0 := bit h3 0; have a1 := bit h3 1; have b0 := bit h5 0; have b1 := bit h5 1
  have c0 := bit h9 0; have c1 := bit h9 1
  have d0 := bit h10 0; have d1 := bit h10 1; have d2 := bit h10 2; have d3 := bit h10 3
  simp [statrx, utype, stattx, ea] at a0 a1 b0 b1 c0 c1 d0 d1 d2 d3
  simp only [vtrx, dtogrx, setup, epkind, vttx, dtogtx] at h1 h2 h4 h6 h7 h8
  apply BitVec.eq_of_getLsbD_eq
  intro k hk
  interval_cases k <;> simpa using by assumption

/-- A field with a target ends at the target when nothing intervened (R231). -/
theorem xor_xor_target {n : Nat} (x t : BitVec n) : x ^^^ (x ^^^ t) = t := by
  apply BitVec.eq_of_getLsbD_eq
  intro k _
  simp

/-- What one `EpUpdate` makes of a register value when no move of the link agent lands inside it (R155). -/
def updated (v : Half) (req : EpReq) : Half :=
  pack (vtrx v && !req.clrRx) (req.dtogrx.getD (dtogrx v)) (req.statrx.getD (statrx v)) (setup v)
    (req.utype.getD (utype v)) (epkind v) (vttx v && !req.clrTx) (req.dtogtx.getD (dtogtx v))
    (req.stattx.getD (stattx v)) (req.ea.getD (ea v))

/-- Writing the deltas computed from the value itself reaches every target and leaves every other field (R155). -/
theorem write_deltas (v : Half) (req : EpReq) : write v (deltas v req) = updated v req := by
  apply ext_fields <;>
    simp [vtrx_write, vttx_write, dtogrx_write, dtogtx_write, setup_write, epkind_write, statrx_write, stattx_write,
      utype_write, ea_write, deltas, updated]
  · cases req.dtogrx <;> simp
  · cases req.statrx <;> simp
  · cases req.dtogtx <;> simp
  · cases req.stattx <;> simp

end Sys2Proof.Machine.Chepr
end

