-- ==== Sys2Proof/Laws/State.lean ====
section
/-! SUPPORT. What each named update does to each field of the state: one lemma a field, true by definition. The updates
of a whole record (`{ s with … }`) reduce on their own. -/

namespace Sys2Proof.Machine

@[simp] theorem setPos_cs (p : Pos) (s : State) : (setPos p s).cs = s.cs := rfl
@[simp] theorem setPos_chepr (p : Pos) (s : State) : (setPos p s).chepr = s.chepr := rfl
@[simp] theorem setPos_istrReset (p : Pos) (s : State) : (setPos p s).istrReset = s.istrReset := rfl
@[simp] theorem setPos_istrSof (p : Pos) (s : State) : (setPos p s).istrSof = s.istrSof := rfl
@[simp] theorem setPos_cntr (p : Pos) (s : State) : (setPos p s).cntr = s.cntr := rfl
@[simp] theorem setPos_daddr (p : Pos) (s : State) : (setPos p s).daddr = s.daddr := rfl
@[simp] theorem setPos_sram (p : Pos) (s : State) : (setPos p s).sram = s.sram := rfl
@[simp] theorem setPos_rxUnsettled (p : Pos) (s : State) : (setPos p s).rxUnsettled = s.rxUnsettled := rfl
@[simp] theorem setPos_pos (p : Pos) (s : State) : (setPos p s).pos = p := rfl
@[simp] theorem setPos_any (p : Pos) (s : State) : (setPos p s).any = s.any := rfl
@[simp] theorem setPos_returned (p : Pos) (s : State) : (setPos p s).returned = s.returned := rfl
@[simp] theorem setPos_wire (p : Pos) (s : State) : (setPos p s).wire = s.wire := rfl
@[simp] theorem setPos_calls (p : Pos) (s : State) : (setPos p s).calls = s.calls := rfl
@[simp] theorem setPos_errors (p : Pos) (s : State) : (setPos p s).errors = s.errors := rfl
@[simp] theorem setPos_script (p : Pos) (s : State) : (setPos p s).script = s.script := rfl
@[simp] theorem setPos_windows (p : Pos) (s : State) : (setPos p s).windows = s.windows := rfl
@[simp] theorem setPos_oracles (p : Pos) (s : State) : (setPos p s).oracles = s.oracles := rfl
@[simp] theorem setPos_pick (p : Pos) (s : State) : (setPos p s).pick = s.pick := rfl
@[simp] theorem setPos_badCode (p : Pos) (s : State) : (setPos p s).badCode = s.badCode := rfl
@[simp] theorem setPos_params (p : Pos) (s : State) : (setPos p s).params = s.params := rfl
@[simp] theorem setPos_tick (p : Pos) (s : State) : (setPos p s).tick = s.tick := rfl
@[simp] theorem setPos_eraBoot (p : Pos) (s : State) : (setPos p s).eraBoot = s.eraBoot := rfl
@[simp] theorem setPos_eraExt (p : Pos) (s : State) : (setPos p s).eraExt = s.eraExt := rfl

@[simp] theorem raise_cs (e : ErrorClass) (s : State) : (raise e s).cs = s.cs := rfl
@[simp] theorem raise_chepr (e : ErrorClass) (s : State) : (raise e s).chepr = s.chepr := rfl
@[simp] theorem raise_istrReset (e : ErrorClass) (s : State) : (raise e s).istrReset = s.istrReset := rfl
@[simp] theorem raise_istrSof (e : ErrorClass) (s : State) : (raise e s).istrSof = s.istrSof := rfl
@[simp] theorem raise_cntr (e : ErrorClass) (s : State) : (raise e s).cntr = s.cntr := rfl
@[simp] theorem raise_daddr (e : ErrorClass) (s : State) : (raise e s).daddr = s.daddr := rfl
@[simp] theorem raise_sram (e : ErrorClass) (s : State) : (raise e s).sram = s.sram := rfl
@[simp] theorem raise_rxUnsettled (e : ErrorClass) (s : State) : (raise e s).rxUnsettled = s.rxUnsettled := rfl
@[simp] theorem raise_pos (e : ErrorClass) (s : State) : (raise e s).pos = s.pos := rfl
@[simp] theorem raise_any (e : ErrorClass) (s : State) : (raise e s).any = s.any := rfl
@[simp] theorem raise_returned (e : ErrorClass) (s : State) : (raise e s).returned = s.returned := rfl
@[simp] theorem raise_wire (e : ErrorClass) (s : State) : (raise e s).wire = s.wire := rfl
@[simp] theorem raise_calls (e : ErrorClass) (s : State) : (raise e s).calls = s.calls := rfl
@[simp] theorem raise_errors (e : ErrorClass) (s : State) : (raise e s).errors = s.errors ++ [e] := rfl
@[simp] theorem raise_script (e : ErrorClass) (s : State) : (raise e s).script = s.script := rfl
@[simp] theorem raise_windows (e : ErrorClass) (s : State) : (raise e s).windows = s.windows := rfl
@[simp] theorem raise_oracles (e : ErrorClass) (s : State) : (raise e s).oracles = s.oracles := rfl
@[simp] theorem raise_pick (e : ErrorClass) (s : State) : (raise e s).pick = s.pick := rfl
@[simp] theorem raise_badCode (e : ErrorClass) (s : State) : (raise e s).badCode = s.badCode := rfl
@[simp] theorem raise_params (e : ErrorClass) (s : State) : (raise e s).params = s.params := rfl
@[simp] theorem raise_tick (e : ErrorClass) (s : State) : (raise e s).tick = s.tick := rfl
@[simp] theorem raise_eraBoot (e : ErrorClass) (s : State) : (raise e s).eraBoot = s.eraBoot := rfl
@[simp] theorem raise_eraExt (e : ErrorClass) (s : State) : (raise e s).eraExt = s.eraExt := rfl

@[simp] theorem errataDelay_cs (s : State) : (errataDelay s).cs = s.cs := rfl
@[simp] theorem errataDelay_chepr (s : State) : (errataDelay s).chepr = s.chepr := rfl
@[simp] theorem errataDelay_istrReset (s : State) : (errataDelay s).istrReset = s.istrReset := rfl
@[simp] theorem errataDelay_istrSof (s : State) : (errataDelay s).istrSof = s.istrSof := rfl
@[simp] theorem errataDelay_cntr (s : State) : (errataDelay s).cntr = s.cntr := rfl
@[simp] theorem errataDelay_daddr (s : State) : (errataDelay s).daddr = s.daddr := rfl
@[simp] theorem errataDelay_sram (s : State) : (errataDelay s).sram = s.sram := rfl
@[simp] theorem errataDelay_rxUnsettled (s : State) : (errataDelay s).rxUnsettled = false := rfl
@[simp] theorem errataDelay_pos (s : State) : (errataDelay s).pos = s.pos := rfl
@[simp] theorem errataDelay_any (s : State) : (errataDelay s).any = s.any := rfl
@[simp] theorem errataDelay_returned (s : State) : (errataDelay s).returned = s.returned := rfl
@[simp] theorem errataDelay_wire (s : State) : (errataDelay s).wire = s.wire := rfl
@[simp] theorem errataDelay_calls (s : State) : (errataDelay s).calls = s.calls := rfl
@[simp] theorem errataDelay_errors (s : State) : (errataDelay s).errors = s.errors := rfl
@[simp] theorem errataDelay_script (s : State) : (errataDelay s).script = s.script := rfl
@[simp] theorem errataDelay_windows (s : State) : (errataDelay s).windows = s.windows := rfl
@[simp] theorem errataDelay_oracles (s : State) : (errataDelay s).oracles = s.oracles := rfl
@[simp] theorem errataDelay_pick (s : State) : (errataDelay s).pick = s.pick := rfl
@[simp] theorem errataDelay_badCode (s : State) : (errataDelay s).badCode = s.badCode := rfl
@[simp] theorem errataDelay_params (s : State) : (errataDelay s).params = s.params := rfl
@[simp] theorem errataDelay_tick (s : State) : (errataDelay s).tick = s.tick := rfl
@[simp] theorem errataDelay_eraBoot (s : State) : (errataDelay s).eraBoot = s.eraBoot := rfl
@[simp] theorem errataDelay_eraExt (s : State) : (errataDelay s).eraExt = s.eraExt := rfl

@[simp] theorem returnDispatch_cs (r : Bool) (s : State) : (returnDispatch r s).cs = s.cs := rfl
@[simp] theorem returnDispatch_chepr (r : Bool) (s : State) : (returnDispatch r s).chepr = s.chepr := rfl
@[simp] theorem returnDispatch_istrReset (r : Bool) (s : State) : (returnDispatch r s).istrReset = s.istrReset := rfl
@[simp] theorem returnDispatch_istrSof (r : Bool) (s : State) : (returnDispatch r s).istrSof = s.istrSof := rfl
@[simp] theorem returnDispatch_cntr (r : Bool) (s : State) : (returnDispatch r s).cntr = s.cntr := rfl
@[simp] theorem returnDispatch_daddr (r : Bool) (s : State) : (returnDispatch r s).daddr = s.daddr := rfl
@[simp] theorem returnDispatch_sram (r : Bool) (s : State) : (returnDispatch r s).sram = s.sram := rfl
@[simp] theorem returnDispatch_rxUnsettled (r : Bool) (s : State) : (returnDispatch r s).rxUnsettled = s.rxUnsettled := rfl
@[simp] theorem returnDispatch_pos (r : Bool) (s : State) : (returnDispatch r s).pos = .idle := rfl
@[simp] theorem returnDispatch_any (r : Bool) (s : State) : (returnDispatch r s).any = s.any := rfl
@[simp] theorem returnDispatch_returned (r : Bool) (s : State) : (returnDispatch r s).returned = some r := rfl
@[simp] theorem returnDispatch_wire (r : Bool) (s : State) : (returnDispatch r s).wire = s.wire := rfl
@[simp] theorem returnDispatch_calls (r : Bool) (s : State) : (returnDispatch r s).calls = s.calls := rfl
@[simp] theorem returnDispatch_errors (r : Bool) (s : State) : (returnDispatch r s).errors = s.errors := rfl
@[simp] theorem returnDispatch_script (r : Bool) (s : State) : (returnDispatch r s).script = s.script := rfl
@[simp] theorem returnDispatch_windows (r : Bool) (s : State) : (returnDispatch r s).windows = s.windows := rfl
@[simp] theorem returnDispatch_oracles (r : Bool) (s : State) : (returnDispatch r s).oracles = s.oracles := rfl
@[simp] theorem returnDispatch_pick (r : Bool) (s : State) : (returnDispatch r s).pick = s.pick := rfl
@[simp] theorem returnDispatch_badCode (r : Bool) (s : State) : (returnDispatch r s).badCode = s.badCode := rfl
@[simp] theorem returnDispatch_params (r : Bool) (s : State) : (returnDispatch r s).params = s.params := rfl
@[simp] theorem returnDispatch_tick (r : Bool) (s : State) : (returnDispatch r s).tick = s.tick := rfl
@[simp] theorem returnDispatch_eraBoot (r : Bool) (s : State) : (returnDispatch r s).eraBoot = s.eraBoot := rfl
@[simp] theorem returnDispatch_eraExt (r : Bool) (s : State) : (returnDispatch r s).eraExt = s.eraExt := rfl

@[simp] theorem putByte_cs (a : Nat) (b : Byte) (s : State) : (putByte a b s).cs = s.cs := rfl
@[simp] theorem putByte_chepr (a : Nat) (b : Byte) (s : State) : (putByte a b s).chepr = s.chepr := rfl
@[simp] theorem putByte_istrReset (a : Nat) (b : Byte) (s : State) : (putByte a b s).istrReset = s.istrReset := rfl
@[simp] theorem putByte_istrSof (a : Nat) (b : Byte) (s : State) : (putByte a b s).istrSof = s.istrSof := rfl
@[simp] theorem putByte_cntr (a : Nat) (b : Byte) (s : State) : (putByte a b s).cntr = s.cntr := rfl
@[simp] theorem putByte_daddr (a : Nat) (b : Byte) (s : State) : (putByte a b s).daddr = s.daddr := rfl
@[simp] theorem putByte_sram (a : Nat) (b : Byte) (s : State) : (putByte a b s).sram = Sram.put s.sram a b := rfl
@[simp] theorem putByte_rxUnsettled (a : Nat) (b : Byte) (s : State) : (putByte a b s).rxUnsettled = s.rxUnsettled := rfl
@[simp] theorem putByte_pos (a : Nat) (b : Byte) (s : State) : (putByte a b s).pos = s.pos := rfl
@[simp] theorem putByte_any (a : Nat) (b : Byte) (s : State) : (putByte a b s).any = s.any := rfl
@[simp] theorem putByte_returned (a : Nat) (b : Byte) (s : State) : (putByte a b s).returned = s.returned := rfl
@[simp] theorem putByte_wire (a : Nat) (b : Byte) (s : State) : (putByte a b s).wire = s.wire := rfl
@[simp] theorem putByte_calls (a : Nat) (b : Byte) (s : State) : (putByte a b s).calls = s.calls := rfl
@[simp] theorem putByte_errors (a : Nat) (b : Byte) (s : State) : (putByte a b s).errors = s.errors := rfl
@[simp] theorem putByte_script (a : Nat) (b : Byte) (s : State) : (putByte a b s).script = s.script := rfl
@[simp] theorem putByte_windows (a : Nat) (b : Byte) (s : State) : (putByte a b s).windows = s.windows := rfl
@[simp] theorem putByte_oracles (a : Nat) (b : Byte) (s : State) : (putByte a b s).oracles = s.oracles := rfl
@[simp] theorem putByte_pick (a : Nat) (b : Byte) (s : State) : (putByte a b s).pick = s.pick := rfl
@[simp] theorem putByte_badCode (a : Nat) (b : Byte) (s : State) : (putByte a b s).badCode = s.badCode := rfl
@[simp] theorem putByte_params (a : Nat) (b : Byte) (s : State) : (putByte a b s).params = s.params := rfl
@[simp] theorem putByte_tick (a : Nat) (b : Byte) (s : State) : (putByte a b s).tick = s.tick := rfl
@[simp] theorem putByte_eraBoot (a : Nat) (b : Byte) (s : State) : (putByte a b s).eraBoot = s.eraBoot := rfl
@[simp] theorem putByte_eraExt (a : Nat) (b : Byte) (s : State) : (putByte a b s).eraExt = s.eraExt := rfl

@[simp] theorem drawOutside_cs (s : State) : (drawOutside s).cs = s.cs := rfl
@[simp] theorem drawOutside_chepr (s : State) : (drawOutside s).chepr = s.chepr := rfl
@[simp] theorem drawOutside_istrReset (s : State) : (drawOutside s).istrReset = s.istrReset := rfl
@[simp] theorem drawOutside_istrSof (s : State) : (drawOutside s).istrSof = s.istrSof := rfl
@[simp] theorem drawOutside_cntr (s : State) : (drawOutside s).cntr = s.cntr := rfl
@[simp] theorem drawOutside_daddr (s : State) : (drawOutside s).daddr = s.daddr := rfl
@[simp] theorem drawOutside_sram (s : State) : (drawOutside s).sram = s.sram.filter (fun c => inRegions s.params c.1) := rfl
@[simp] theorem drawOutside_rxUnsettled (s : State) : (drawOutside s).rxUnsettled = s.rxUnsettled := rfl
@[simp] theorem drawOutside_pos (s : State) : (drawOutside s).pos = s.pos := rfl
@[simp] theorem drawOutside_any (s : State) : (drawOutside s).any = s.any := rfl
@[simp] theorem drawOutside_returned (s : State) : (drawOutside s).returned = s.returned := rfl
@[simp] theorem drawOutside_wire (s : State) : (drawOutside s).wire = s.wire := rfl
@[simp] theorem drawOutside_calls (s : State) : (drawOutside s).calls = s.calls := rfl
@[simp] theorem drawOutside_errors (s : State) : (drawOutside s).errors = s.errors := rfl
@[simp] theorem drawOutside_script (s : State) : (drawOutside s).script = s.script := rfl
@[simp] theorem drawOutside_windows (s : State) : (drawOutside s).windows = s.windows := rfl
@[simp] theorem drawOutside_oracles (s : State) : (drawOutside s).oracles = s.oracles := rfl
@[simp] theorem drawOutside_pick (s : State) : (drawOutside s).pick = s.pick := rfl
@[simp] theorem drawOutside_badCode (s : State) : (drawOutside s).badCode = s.badCode := rfl
@[simp] theorem drawOutside_params (s : State) : (drawOutside s).params = s.params := rfl
@[simp] theorem drawOutside_tick (s : State) : (drawOutside s).tick = s.tick := rfl
@[simp] theorem drawOutside_eraBoot (s : State) : (drawOutside s).eraBoot = s.eraBoot := rfl
@[simp] theorem drawOutside_eraExt (s : State) : (drawOutside s).eraExt = s.eraExt + 1 := rfl

@[simp] theorem linkReset_cs (s : State) : (linkReset s).cs = s.cs := rfl
@[simp] theorem linkReset_chepr (s : State) : (linkReset s).chepr = Vector.replicate 8 0#16 := rfl
@[simp] theorem linkReset_istrReset (s : State) : (linkReset s).istrReset = true := rfl
@[simp] theorem linkReset_istrSof (s : State) : (linkReset s).istrSof = s.istrSof := rfl
@[simp] theorem linkReset_cntr (s : State) : (linkReset s).cntr = s.cntr := rfl
@[simp] theorem linkReset_daddr (s : State) : (linkReset s).daddr = 0#8 := rfl
@[simp] theorem linkReset_sram (s : State) : (linkReset s).sram = s.sram := rfl
@[simp] theorem linkReset_rxUnsettled (s : State) : (linkReset s).rxUnsettled = false := rfl
@[simp] theorem linkReset_pos (s : State) : (linkReset s).pos = s.pos := rfl
@[simp] theorem linkReset_any (s : State) : (linkReset s).any = s.any := rfl
@[simp] theorem linkReset_returned (s : State) : (linkReset s).returned = s.returned := rfl
@[simp] theorem linkReset_wire (s : State) : (linkReset s).wire = s.wire := rfl
@[simp] theorem linkReset_calls (s : State) : (linkReset s).calls = s.calls := rfl
@[simp] theorem linkReset_errors (s : State) : (linkReset s).errors = s.errors := rfl
@[simp] theorem linkReset_script (s : State) : (linkReset s).script = s.script := rfl
@[simp] theorem linkReset_windows (s : State) : (linkReset s).windows = s.windows := rfl
@[simp] theorem linkReset_oracles (s : State) : (linkReset s).oracles = s.oracles := rfl
@[simp] theorem linkReset_pick (s : State) : (linkReset s).pick = s.pick := rfl
@[simp] theorem linkReset_badCode (s : State) : (linkReset s).badCode = s.badCode := rfl
@[simp] theorem linkReset_params (s : State) : (linkReset s).params = s.params := rfl
@[simp] theorem linkReset_tick (s : State) : (linkReset s).tick = s.tick := rfl
@[simp] theorem linkReset_eraBoot (s : State) : (linkReset s).eraBoot = s.eraBoot := rfl
@[simp] theorem linkReset_eraExt (s : State) : (linkReset s).eraExt = s.eraExt := rfl

@[simp] theorem linkSof_cs (s : State) : (linkSof s).cs = s.cs := rfl
@[simp] theorem linkSof_chepr (s : State) : (linkSof s).chepr = s.chepr := rfl
@[simp] theorem linkSof_istrReset (s : State) : (linkSof s).istrReset = s.istrReset := rfl
@[simp] theorem linkSof_istrSof (s : State) : (linkSof s).istrSof = true := rfl
@[simp] theorem linkSof_cntr (s : State) : (linkSof s).cntr = s.cntr := rfl
@[simp] theorem linkSof_daddr (s : State) : (linkSof s).daddr = s.daddr := rfl
@[simp] theorem linkSof_sram (s : State) : (linkSof s).sram = s.sram := rfl
@[simp] theorem linkSof_rxUnsettled (s : State) : (linkSof s).rxUnsettled = s.rxUnsettled := rfl
@[simp] theorem linkSof_pos (s : State) : (linkSof s).pos = s.pos := rfl
@[simp] theorem linkSof_any (s : State) : (linkSof s).any = s.any := rfl
@[simp] theorem linkSof_returned (s : State) : (linkSof s).returned = s.returned := rfl
@[simp] theorem linkSof_wire (s : State) : (linkSof s).wire = s.wire := rfl
@[simp] theorem linkSof_calls (s : State) : (linkSof s).calls = s.calls := rfl
@[simp] theorem linkSof_errors (s : State) : (linkSof s).errors = s.errors := rfl
@[simp] theorem linkSof_script (s : State) : (linkSof s).script = s.script := rfl
@[simp] theorem linkSof_windows (s : State) : (linkSof s).windows = s.windows := rfl
@[simp] theorem linkSof_oracles (s : State) : (linkSof s).oracles = s.oracles := rfl
@[simp] theorem linkSof_pick (s : State) : (linkSof s).pick = s.pick := rfl
@[simp] theorem linkSof_badCode (s : State) : (linkSof s).badCode = s.badCode := rfl
@[simp] theorem linkSof_params (s : State) : (linkSof s).params = s.params := rfl
@[simp] theorem linkSof_tick (s : State) : (linkSof s).tick = s.tick := rfl
@[simp] theorem linkSof_eraBoot (s : State) : (linkSof s).eraBoot = s.eraBoot := rfl
@[simp] theorem linkSof_eraExt (s : State) : (linkSof s).eraExt = s.eraExt := rfl

@[simp] theorem clearTransfer_cs (s : State) : (clearTransfer s).cs = { s.cs with pendingAddr := none, txTail := none, txTailCb := .none, rxCb := .none, postAckCb := .none } := rfl
@[simp] theorem clearTransfer_chepr (s : State) : (clearTransfer s).chepr = s.chepr := rfl
@[simp] theorem clearTransfer_istrReset (s : State) : (clearTransfer s).istrReset = s.istrReset := rfl
@[simp] theorem clearTransfer_istrSof (s : State) : (clearTransfer s).istrSof = s.istrSof := rfl
@[simp] theorem clearTransfer_cntr (s : State) : (clearTransfer s).cntr = s.cntr := rfl
@[simp] theorem clearTransfer_daddr (s : State) : (clearTransfer s).daddr = s.daddr := rfl
@[simp] theorem clearTransfer_sram (s : State) : (clearTransfer s).sram = s.sram := rfl
@[simp] theorem clearTransfer_rxUnsettled (s : State) : (clearTransfer s).rxUnsettled = s.rxUnsettled := rfl
@[simp] theorem clearTransfer_pos (s : State) : (clearTransfer s).pos = s.pos := rfl
@[simp] theorem clearTransfer_any (s : State) : (clearTransfer s).any = s.any := rfl
@[simp] theorem clearTransfer_returned (s : State) : (clearTransfer s).returned = s.returned := rfl
@[simp] theorem clearTransfer_wire (s : State) : (clearTransfer s).wire = s.wire := rfl
@[simp] theorem clearTransfer_calls (s : State) : (clearTransfer s).calls = s.calls := rfl
@[simp] theorem clearTransfer_errors (s : State) : (clearTransfer s).errors = s.errors := rfl
@[simp] theorem clearTransfer_script (s : State) : (clearTransfer s).script = s.script := rfl
@[simp] theorem clearTransfer_windows (s : State) : (clearTransfer s).windows = s.windows := rfl
@[simp] theorem clearTransfer_oracles (s : State) : (clearTransfer s).oracles = s.oracles := rfl
@[simp] theorem clearTransfer_pick (s : State) : (clearTransfer s).pick = s.pick := rfl
@[simp] theorem clearTransfer_badCode (s : State) : (clearTransfer s).badCode = s.badCode := rfl
@[simp] theorem clearTransfer_params (s : State) : (clearTransfer s).params = s.params := rfl
@[simp] theorem clearTransfer_tick (s : State) : (clearTransfer s).tick = s.tick := rfl
@[simp] theorem clearTransfer_eraBoot (s : State) : (clearTransfer s).eraBoot = s.eraBoot := rfl
@[simp] theorem clearTransfer_eraExt (s : State) : (clearTransfer s).eraExt = s.eraExt := rfl

/-- The fence changes nothing (R93). -/
@[simp] theorem fence_eq (s : State) : fence s = s := rfl

/-- A byte sequence is stored by a record update of the SRAM alone. -/
theorem putBytes_sram_only (l : List Byte) : ∀ (a : Nat) (s : State),
    putBytes a l s = { s with sram := (putBytes a l s).sram } := by
  induction l with
  | nil => intro a s; rfl
  | cons b l ih => intro a s; exact ih (a + 1) (putByte a b s)

end Sys2Proof.Machine
end

