-- ==== Sys2Proof/Laws/Sram.lean ====
section
/-! SUPPORT. The laws of the SRAM: a read after a write, what a write leaves alone, and that every operation keeps the
canonical form and the range of the addresses (R71 to R75). -/

namespace Sys2Proof

@[simp] theorem leBytes_length (n v : Nat) : (leBytes n v).length = n := by
  induction n generalizing v with
  | zero => rfl
  | succ n ih => simp [leBytes, ih]

/-- Bytes of an integer, summed again (R72, R73). -/
theorem leSum_leBytes (n v : Nat) : leSum (leBytes n v) = v % 256 ^ n := by
  induction n generalizing v with
  | zero => simp [leBytes, leSum, Nat.mod_one]
  | succ n ih =>
    rw [leBytes, leSum, ih, Nat.pow_succ', Nat.mod_mul]
    simp

theorem leSum_append (l m : List Byte) : leSum (l ++ m) = leSum l + 256 ^ l.length * leSum m := by
  induction l with
  | nil => simp [leSum]
  | cons b l ih => simp [leSum, ih, Nat.pow_succ]; ring

theorem leSum_lt (l : List Byte) : leSum l < 256 ^ l.length := by
  induction l with
  | nil => simp [leSum]
  | cons b l ih =>
    have := b.isLt
    simp only [leSum, List.length_cons, Nat.pow_succ]
    omega

namespace Machine

namespace Sram

theorem find_put_same (m : List Host.Cell) (a : Nat) (b : Byte) : find (put m a b) a = some b := by
  induction m with
  | nil => simp [put, find]
  | cons c m ih =>
    obtain ⟨x, c⟩ := c
    simp only [put]
    split
    · simp [find]
    · split
      · simp [find]
      · rename_i _ h
        simp [find, Ne.symm h, ih]

theorem find_put_other (m : List Host.Cell) {a a' : Nat} (b : Byte) (h : a' ≠ a) :
    find (put m a b) a' = find m a' := by
  induction m with
  | nil => simp [put, find, Ne.symm h]
  | cons c m ih =>
    obtain ⟨x, c⟩ := c
    simp only [put]
    split
    · simp [find, Ne.symm h]
    · split
      · rename_i _ h2
        subst h2
        simp [find, Ne.symm h]
      · simp only [find, ih]

theorem wf_cons (x : Nat) (c : Byte) (m : List Host.Cell) :
    wf ((x, c) :: m) = true ↔ (∀ d ∈ m.head?, x < d.1) ∧ wf m = true := by
  cases m with
  | nil => simp [wf]
  | cons d m => obtain ⟨y, e⟩ := d; simp [wf]

theorem head_put (m : List Host.Cell) (a : Nat) (b : Byte) :
    ∀ d ∈ (put m a b).head?, d.1 = a ∨ (∃ e ∈ m.head?, d.1 = e.1) := by
  cases m with
  | nil => simp [put]
  | cons c m =>
    obtain ⟨x, c⟩ := c
    simp only [put]
    split
    · simp
    · split <;> simp

/-- A store keeps the canonical form. -/
theorem wf_put (m : List Host.Cell) (a : Nat) (b : Byte) (h : wf m = true) : wf (put m a b) = true := by
  induction m with
  | nil => rfl
  | cons c m ih =>
    obtain ⟨x, c⟩ := c
    obtain ⟨h1, h2⟩ := (wf_cons x c m).1 h
    simp only [put]
    split
    · rename_i hx
      exact (wf_cons _ _ _).2 ⟨by simpa using hx, h⟩
    · split
      · rename_i _ hx
        subst hx
        exact (wf_cons _ _ _).2 ⟨h1, h2⟩
      · rename_i hx hne
        refine (wf_cons _ _ _).2 ⟨?_, ih h2⟩
        intro d hd
        rcases head_put m a b d hd with h3 | ⟨e, he, h3⟩
        · omega
        · rw [h3]; exact h1 e he

theorem below_put (n : Nat) (m : List Host.Cell) (a : Nat) (b : Byte) (h : below n m = true) (ha : a < n) :
    below n (put m a b) = true := by
  induction m with
  | nil => simpa [put, below] using ha
  | cons c m ih =>
    obtain ⟨x, c⟩ := c
    simp only [below, List.all_cons, Bool.and_eq_true, decide_eq_true_eq] at h ih ⊢
    simp only [put]
    split
    · simp [ha, h.1, h.2]
    · split
      · simp [ha, h.2]
      · simp [h.1, ih h.2]

theorem below_filter (n : Nat) (m : List Host.Cell) (p : Host.Cell → Bool) (h : below n m = true) :
    below n (m.filter p) = true := by
  simp only [below, List.all_eq_true] at h ⊢
  intro c hc
  exact h c (List.mem_of_mem_filter hc)

/-- The canonical form, said of every two entries. -/
theorem wf_iff_pairwise (m : List Host.Cell) : wf m = true ↔ m.Pairwise fun c d => c.1 < d.1 := by
  induction m with
  | nil => simp [wf]
  | cons c m ih =>
    obtain ⟨x, c⟩ := c
    rw [wf_cons, ih, List.pairwise_cons]
    constructor
    · rintro ⟨h1, h2⟩
      refine ⟨?_, h2⟩
      cases m with
      | nil => simp
      | cons d m =>
        intro e he
        have hd := h1 d rfl
        rcases List.mem_cons.1 he with rfl | he
        · exact hd
        · exact lt_trans hd ((List.pairwise_cons.1 h2).1 e he)
    · rintro ⟨h1, h2⟩
      refine ⟨?_, h2⟩
      intro d hd
      exact h1 d (List.mem_of_mem_head? hd)

/-- Dropping entries keeps the canonical form. -/
theorem wf_filter (m : List Host.Cell) (p : Host.Cell → Bool) (h : wf m = true) : wf (m.filter p) = true :=
  (wf_iff_pairwise _).2 (((wf_iff_pairwise _).1 h).filter p)

theorem find_filter (m : List Host.Cell) (p : Nat → Bool) (a : Nat) :
    find (m.filter fun c => p c.1) a = if p a then find m a else none := by
  induction m with
  | nil => simp [find]
  | cons c m ih =>
    obtain ⟨x, c⟩ := c
    by_cases hx : x = a
    · subst hx
      by_cases hp : p x <;> simp [hp, find, ih]
    · by_cases hp : p x <;> simp [hp, find, ih, hx]

end Sram

/-- A read of the byte just written (R73). -/
@[simp] theorem storedByte_putByte_same (a : Nat) (b : Byte) (s : State) : storedByte (putByte a b s) a = b := by
  simp [storedByte, Sram.find_put_same]

/-- A write leaves every other byte alone (R73). -/
theorem storedByte_putByte_other {a a' : Nat} (b : Byte) (s : State) (h : a' ≠ a) :
    storedByte (putByte a b s) a' = storedByte s a' := by
  unfold storedByte
  rw [putByte_sram, Sram.find_put_other _ _ h]
  rfl

theorem storedByte_putByte (a a' : Nat) (b : Byte) (s : State) :
    storedByte (putByte a b s) a' = if a' = a then b else storedByte s a' := by
  split
  · rename_i h; subst h; simp
  · rename_i h; exact storedByte_putByte_other b s h

/-- A byte of SRAM does not depend on the other state. -/
theorem storedByte_congr {s t : State} (h1 : t.sram = s.sram) (h2 : t.params = s.params)
    (h3 : t.eraBoot = s.eraBoot) (h4 : t.eraExt = s.eraExt) (a : Nat) : storedByte t a = storedByte s a := by
  simp [storedByte, h1, h2, h3, h4]

/-- A stored sequence, byte by byte (R73). -/
theorem storedByte_putBytes (l : List Byte) : ∀ (a : Nat) (s : State) (x : Nat),
    storedByte (putBytes a l s) x =
      if a ≤ x ∧ x < a + l.length then l.getD (x - a) 0#8 else storedByte s x := by
  induction l with
  | nil => intro a s x; simp [putBytes]
  | cons b l ih =>
    intro a s x
    rw [putBytes, ih, storedByte_putByte]
    by_cases h1 : x = a
    · subst h1; simp
    · by_cases h2 : a + 1 ≤ x ∧ x < a + 1 + l.length
      · have h3 : a ≤ x ∧ x < a + (b :: l).length := by simp; omega
        have h4 : x - a = x - (a + 1) + 1 := by omega
        rw [if_pos h2, if_pos h3, h4, List.getD_cons_succ]
      · have h3 : ¬(a ≤ x ∧ x < a + (b :: l).length) := by simp; omega
        rw [if_neg h2, if_neg h1, if_neg h3]

/-- Bytes outside a stored sequence are as before (R73: "touches no other byte"). -/
theorem storedByte_putBytes_outside (l : List Byte) (a : Nat) (s : State) (x : Nat)
    (h : x < a ∨ a + l.length ≤ x) : storedByte (putBytes a l s) x = storedByte s x := by
  rw [storedByte_putBytes, if_neg (by omega)]

theorem storedBytes_length (s : State) (a n : Nat) : (storedBytes s a n).length = n := by
  induction n generalizing a with
  | zero => rfl
  | succ n ih => simp [storedBytes, ih]

theorem storedBytes_congr {s t : State} : ∀ (n a : Nat),
    (∀ x, a ≤ x → x < a + n → storedByte t x = storedByte s x) → storedBytes t a n = storedBytes s a n := by
  intro n
  induction n with
  | zero => intro a _; rfl
  | succ n ih =>
    intro a h
    rw [storedBytes, storedBytes, h a (le_refl a) (by omega), ih (a + 1) (fun x h1 h2 => h x (by omega) (by omega))]

theorem storedWord_congr {s t : State} {a : Nat}
    (h : ∀ x, a ≤ x → x < a + 4 → storedByte t x = storedByte s x) : storedWord t a = storedWord s a := by
  rw [storedWord, storedWord, storedBytes_congr 4 a h]

theorem storedBytes_eq_of_getD {s : State} {l : List Byte} : ∀ (a : Nat),
    (∀ i, i < l.length → storedByte s (a + i) = l.getD i 0#8) → storedBytes s a l.length = l := by
  induction l with
  | nil => intro a _; rfl
  | cons b l ih =>
    intro a h
    have h0 := h 0 (by simp)
    simp only [Nat.add_zero, List.getD_cons_zero] at h0
    rw [List.length_cons, storedBytes, h0, ih (a + 1)]
    intro i hi
    have := h (i + 1) (by simpa using hi)
    rw [List.getD_cons_succ] at this
    rw [← this]; congr 1; omega

/-- Reading a stored sequence gives it back (R73). -/
theorem storedBytes_putBytes (l : List Byte) (a : Nat) (s : State) :
    storedBytes (putBytes a l s) a l.length = l := by
  apply storedBytes_eq_of_getD
  intro i hi
  rw [storedByte_putBytes, if_pos (by omega)]
  congr 1; omega

/-- A 32-bit word just stored reads as the word (R72, R73). -/
theorem storedWord_putBytes (a : Nat) (w : Word) (s : State) :
    storedWord (putBytes a (leBytes 4 w.toNat) s) a = w := by
  have h := storedBytes_putBytes (leBytes 4 w.toNat) a s
  rw [leBytes_length] at h
  rw [storedWord, h, leSum_leBytes]
  apply BitVec.eq_of_toNat_eq
  have := w.isLt
  rw [BitVec.toNat_ofNat]
  omega

theorem toNat_append_add {m n : Nat} (x : BitVec m) (y : BitVec n) : (x ++ y).toNat = x.toNat * 2 ^ n + y.toNat := by
  rw [BitVec.toNat_append, ← Nat.shiftLeft_add_eq_or_of_lt y.isLt, Nat.shiftLeft_eq]

/-- A stored word is its four bytes, the first the least significant (R72). -/
theorem storedWord_bytes (s : State) (a : Nat) :
    storedWord s a = storedByte s (a + 3) ++ (storedByte s (a + 2) ++ (storedByte s (a + 1) ++ storedByte s a)) := by
  have h0 := (storedByte s a).isLt
  have h1 := (storedByte s (a + 1)).isLt
  have h2 := (storedByte s (a + 2)).isLt
  have h3 := (storedByte s (a + 3)).isLt
  apply BitVec.eq_of_toNat_eq
  simp only [toNat_append_add, storedWord, storedBytes, leSum, BitVec.toNat_ofNat]
  simp only [Nat.add_assoc, Nat.reduceAdd]
  omega

theorem wf_putBytes (l : List Byte) : ∀ (a : Nat) (s : State), Sram.wf s.sram = true →
    Sram.wf (putBytes a l s).sram = true := by
  induction l with
  | nil => intro a s h; exact h
  | cons b l ih => intro a s h; exact ih _ _ (Sram.wf_put _ _ _ h)

theorem below_putBytes (l : List Byte) : ∀ (a n : Nat) (s : State), Sram.below n s.sram = true →
    a + l.length ≤ n → Sram.below n (putBytes a l s).sram = true := by
  induction l with
  | nil => intro a n s h _; exact h
  | cons b l ih =>
    intro a n s h hn
    simp only [List.length_cons] at hn
    exact ih _ _ _ (Sram.below_put _ _ _ _ h (by omega)) (by omega)

/-- A draw of the SRAM outside the three regions leaves the three regions alone. -/
theorem storedByte_drawOutside (s : State) {a : Nat} (h : inRegions s.params a = true) :
    storedByte (drawOutside s) a = storedByte s a := by
  simp [storedByte, Sram.find_filter, h]

theorem coreByte_settled {s : State} (h : s.rxUnsettled = false) (a : Nat) : coreByte s a = storedByte s a := by
  simp [coreByte, h]

theorem memReadBytes_settled {s : State} (h : s.rxUnsettled = false) : ∀ (n a : Nat),
    memReadBytes s a n = storedBytes s a n := by
  intro n
  induction n with
  | zero => intro a; rfl
  | succ n ih => intro a; rw [memReadBytes, storedBytes, coreByte_settled h, ih]

theorem descriptorWord_settled {s : State} (h : s.rxUnsettled = false) (a : Nat) :
    descriptorWord s a = storedWord s a := by
  rw [descriptorWord, memRead, memReadBytes_settled h, storedWord]

end Machine

end Sys2Proof
end

