-- ==== Sys2Proof/Laws/Ops.lean ====
section
/-! SUPPORT. What each named operation of CORE does when no move of the link agent lands inside it (`Quiet`): an equation
for the whole state. Later proofs cite these equations and do not unfold the operations. -/

namespace Sys2Proof.Machine

/-- `Quiet` reads two fields. -/
theorem Quiet.congr {s t : State} (h : Quiet s) (h1 : t.params = s.params) (h2 : t.windows = s.windows) : Quiet t := by
  unfold Quiet at *
  rw [h1, h2]
  exact h

theorem window_quiet {s : State} (h : Quiet s) : window s = s := by
  unfold window
  rcases h with h | h
  · rw [h]
  · rw [h]; cases s.params.granularity <;> rfl

@[simp] theorem putBytes_cs (a : Nat) (l : List Byte) (s : State) : (putBytes a l s).cs = s.cs := by
  rw [putBytes_sram_only]
@[simp] theorem putBytes_chepr (a : Nat) (l : List Byte) (s : State) : (putBytes a l s).chepr = s.chepr := by
  rw [putBytes_sram_only]
@[simp] theorem putBytes_params (a : Nat) (l : List Byte) (s : State) : (putBytes a l s).params = s.params := by
  rw [putBytes_sram_only]
@[simp] theorem putBytes_windows (a : Nat) (l : List Byte) (s : State) : (putBytes a l s).windows = s.windows := by
  rw [putBytes_sram_only]
@[simp] theorem putBytes_eraExt (a : Nat) (l : List Byte) (s : State) : (putBytes a l s).eraExt = s.eraExt := by
  rw [putBytes_sram_only]
@[simp] theorem putBytes_eraBoot (a : Nat) (l : List Byte) (s : State) : (putBytes a l s).eraBoot = s.eraBoot := by
  rw [putBytes_sram_only]

theorem Quiet.putBytes {s : State} (h : Quiet s) (a : Nat) (l : List Byte) : Quiet (putBytes a l s) :=
  h.congr (by simp) (by simp)

theorem memWrite_quiet {s : State} (h : Quiet s) (a n v : Nat) : memWrite a n v s = putBytes a (leBytes n v) s := by
  rw [memWrite, window_quiet h]

theorem memWriteBytes_quiet (l : List Byte) : ∀ (a : Nat) {s : State}, Quiet s →
    memWriteBytes a l s = putBytes a l s := by
  induction l with
  | nil => intro a s _; rfl
  | cons b l ih =>
    intro a s h
    rw [memWriteBytes, window_quiet h, putBytes]
    exact ih (a + 1) (h.congr rfl rfl)

@[simp] theorem low_half (v : Half) : (0#16 ++ v).extractLsb' 0 16 = v := by
  apply BitVec.eq_of_getLsbD_eq
  intro i hi
  rw [BitVec.getLsbD_extractLsb', BitVec.getLsbD_append]
  simp [hi]

/-- `EpUpdate` in one equation (R155). -/
theorem epUpdate_quiet {s : State} (h : Quiet s) (n : Fin 8) (req : EpReq) :
    epUpdate n req s = { s with chepr := s.chepr.set n (Chepr.updated s.chepr[n] req) } := by
  simp [epUpdate, regWrite, fence_eq, window_quiet h, peekReg, pokeReg, Chepr.write_deltas]

theorem regWrite_quiet {s : State} (h : Quiet s) (r : Reg) (w : Word) : regWrite r w s = pokeReg r w s := by
  rw [regWrite, window_quiet h]

theorem bdSetTx_quiet {s : State} (h : Quiet s) (n : Fin 8) (off count : Half) :
    bdSetTx n off count s = putBytes (txbdAddr n) (leBytes 4 (txbdWord off count).toNat) s := by
  rw [bdSetTx, memWrite_quiet h]

theorem armRx_quiet {s : State} (h : Quiet s) :
    armRx s = putBytes (rxbdAddr 0) (leBytes 4 (rxbdWord true 1#5 0#10 (rxOffset s)).toNat) s := by
  have h64 : rxCode Config.ep0Mps = some (true, 1#5) := by decide
  simp [armRx, bdSetRx, h64, memWrite_quiet h]

theorem stallBoth_quiet {s : State} (h : Quiet s) :
    stallBoth s = { s with chepr := s.chepr.set 0 (Chepr.updated s.chepr[(0 : Fin 8)]
      { statrx := some stStall, stattx := some stStall, clrRx := true }) } :=
  epUpdate_quiet h 0 _

/-- The ControlState part of `SendChunk` (R214). -/
theorem afterChunk_eq (rem : List Byte) (cb : TxTok) (c : ControlState) :
    afterChunk rem cb c =
      if 0 < (rem.drop Config.ep0Mps).length ∨ ((rem.take Config.ep0Mps).length = Config.ep0Mps ∧ c.short = true) then
        { c with txTail := some (rem.drop Config.ep0Mps), txTailCb := cb, postAckCb := .none }
      else { c with txTail := none, txTailCb := .none, postAckCb := cb } := by
  have h : (64 < rem.length ∨ (64 ≤ rem.length ∧ c.short = true)) ↔
      (0 < (rem.drop Config.ep0Mps).length ∨
        ((rem.take Config.ep0Mps).length = Config.ep0Mps ∧ c.short = true)) := by
    by_cases hs : c.short = true
    · simp only [List.length_drop, List.length_take, Config.ep0Mps, hs, and_true]
      omega
    · simp [hs, Config.ep0Mps]
  unfold afterChunk
  simp only [h]
  rfl

/-- `SendChunk` in one equation (R214). -/
theorem sendChunk_quiet {s : State} (h : Quiet s) (rem : List Byte) (cb : TxTok) :
    sendChunk rem cb s =
      { putBytes (txbdAddr 0) (leBytes 4 (txbdWord (txOffset s) (BitVec.ofNat 16 (rem.take 64).length)).toNat)
          (putBytes s.params.ep0TxOff (rem.take 64) s) with cs := afterChunk rem cb s.cs } := by
  have h2 : Quiet (putBytes s.params.ep0TxOff (rem.take 64) s) := h.putBytes _ _
  have pull : ∀ (c : Prop) [Decidable c] (t : State) (x y : ControlState),
      (if c then { t with cs := x } else { t with cs := y }) = { t with cs := if c then x else y } := by
    intros
    split <;> rfl
  rw [afterChunk_eq]
  simp only [sendChunk]
  rw [memWriteBytes_quiet _ _ h, bdSetTx_quiet (by exact h2), pull]
  simp only [putBytes_cs]
  rfl

/-- `SendChunk` writes ControlState and the SRAM, and nothing else (R214). -/
theorem sendChunk_state {s : State} (h : Quiet s) (rem : List Byte) (cb : TxTok) :
    sendChunk rem cb s = { s with cs := afterChunk rem cb s.cs, sram := (sendChunk rem cb s).sram } := by
  have twice : ∀ (a b : Nat) (l m : List Byte), putBytes a l (putBytes b m s) =
      { s with sram := (putBytes a l (putBytes b m s)).sram } := by
    intro a b l m
    rw [putBytes_sram_only l, putBytes_sram_only m]
  rw [sendChunk_quiet h]
  rw [twice]

/-- The offsets of endpoint 0 fit the sixteen bits of a descriptor (R71, R345). -/
theorem Params.layout (p : Params) : p.sramBytes ≤ 65536 ∧ 64 ≤ p.ep0RxOff ∧ p.ep0RxOff + 64 ≤ p.sramBytes ∧
    64 ≤ p.ep0TxOff ∧ p.ep0TxOff + 64 ≤ p.sramBytes ∧ p.ep0RxOff % 4 = 0 ∧ p.ep0TxOff % 4 = 0 ∧
    (p.ep0RxOff + 64 ≤ p.ep0TxOff ∨ p.ep0TxOff + 64 ≤ p.ep0RxOff) := by
  have h := p.legal
  simp only [Config.legalLayout, decide_eq_true_eq] at h
  omega

/-- The memory `SendChunk` leaves (R214). -/
theorem chunkStored_sendChunk {s : State} (h : Quiet s) (rem : List Byte) (cb : TxTok) :
    ChunkStored rem s (sendChunk rem cb s) := by
  obtain ⟨-, -, -, h4, -, -, -, -⟩ := Params.layout s.params
  rw [sendChunk_quiet h]
  have hlen : (rem.take 64).length = min rem.length 64 := by rw [List.length_take, Nat.min_comm]
  have key : ∀ a, storedByte
      { putBytes (txbdAddr 0) (leBytes 4 (txbdWord (txOffset s) (BitVec.ofNat 16 (rem.take 64).length)).toNat)
          (putBytes s.params.ep0TxOff (rem.take 64) s) with cs := afterChunk rem cb s.cs } a =
      storedByte (putBytes (txbdAddr 0)
        (leBytes 4 (txbdWord (txOffset s) (BitVec.ofNat 16 (rem.take 64).length)).toNat)
          (putBytes s.params.ep0TxOff (rem.take 64) s)) a := fun _ => rfl
  constructor
  · rw [storedWord_congr (fun x _ _ => key x), storedWord_putBytes, hlen]; rfl
  · intro i hi
    rw [key, storedByte_putBytes_outside _ _ _ _ (by simp [txbdAddr]; omega), storedByte_putBytes,
      if_pos (by omega)]
    have : s.params.ep0TxOff + i - s.params.ep0TxOff = i := by omega
    rw [this, List.getD_eq_getElem?_getD, List.getD_eq_getElem?_getD, List.getElem?_take, if_pos (by omega)]
  · intro a h1 h2
    rw [key, storedByte_putBytes_outside _ _ _ _ (by simp only [leBytes_length]; omega),
      storedByte_putBytes_outside _ _ _ _ (by omega)]

end Sys2Proof.Machine
end

