-- ==== Sys2Proof/Laws/Link.lean ====
section
/-! SUPPORT. What the moves of the link agent and the windows they land in can change (R270): the frame, and that the SRAM
stays canonical and in range. -/

namespace Sys2Proof.Machine

theorem LinkFrame.refl (s : State) : LinkFrame s s := rfl

theorem LinkFrame.trans {s t u : State} (h1 : LinkFrame s t) (h2 : LinkFrame t u) : LinkFrame s u := by
  unfold LinkFrame at *
  rw [h2, h1]

section fields
variable {s t : State} (h : LinkFrame s t)
include h
theorem LinkFrame.cs : t.cs = s.cs := by rw [h]
theorem LinkFrame.cntr : t.cntr = s.cntr := by rw [h]
theorem LinkFrame.pos : t.pos = s.pos := by rw [h]
theorem LinkFrame.any : t.any = s.any := by rw [h]
theorem LinkFrame.returned : t.returned = s.returned := by rw [h]
theorem LinkFrame.calls : t.calls = s.calls := by rw [h]
theorem LinkFrame.errors : t.errors = s.errors := by rw [h]
theorem LinkFrame.script : t.script = s.script := by rw [h]
theorem LinkFrame.oracles : t.oracles = s.oracles := by rw [h]
theorem LinkFrame.badCode : t.badCode = s.badCode := by rw [h]
theorem LinkFrame.params : t.params = s.params := by rw [h]
theorem LinkFrame.tick : t.tick = s.tick := by rw [h]
end fields

theorem linkFrame_sram (s : State) (m : List Host.Cell) : LinkFrame s { s with sram := m } := rfl

theorem linkFrame_putBytes (a : Nat) (l : List Byte) (s : State) : LinkFrame s (putBytes a l s) := by
  rw [putBytes_sram_only]

theorem linkFrame_setRxCount (n : Fin 8) (c : Nat) (s : State) : LinkFrame s (setRxCount n c s) := rfl

theorem linkFrame_landPacket (bytes : List Byte) (reg : Half) (e : WireEvent) (s : State) :
    LinkFrame s (landPacket bytes reg e s) := by
  have h1 := linkFrame_putBytes (rxbdOff (storedWord s 4)).toNat bytes s
  exact h1.trans rfl

/-- The two bytes of `RXBD[0]` that the count touches (R272). -/
theorem storedByte_setRxCount (c : Nat) (s : State) (a : Nat) : storedByte (setRxCount 0 c s) a =
    if a = 7 then (storedByte s 7 &&& 0xFC#8) ||| (BitVec.ofNat 8 (c / 256) &&& 0x03#8)
    else if a = 6 then BitVec.ofNat 8 c else storedByte s a := by
  simp only [setRxCount, rxbdAddr]
  rw [storedByte_putByte, storedByte_putByte]
  rfl

/-- What a packet that lands leaves (R272, R273), where its buffer is not the descriptor itself. -/
theorem landPacket_spec (bytes : List Byte) (reg : Half) (ev : WireEvent) (s : State) (hl : bytes.length ≤ 64)
   (h8 : 8 ≤ (rxbdOff (storedWord s 4)).toNat) :
   let off := (rxbdOff (storedWord s 4)).toNat
   let t := landPacket bytes reg ev s
   t = { s with
          chepr := s.chepr.set 0 reg
          rxUnsettled := true
          wire := s.wire ++ [ev]
          sram := t.sram } ∧
        storedBytes t off bytes.length = bytes ∧
        rxbdCount (storedWord t 4) = BitVec.ofNat 10 bytes.length ∧
        rxbdBl (storedWord t 4) = rxbdBl (storedWord s 4) ∧ rxbdNb (storedWord t 4) = rxbdNb (storedWord s 4) ∧
        rxbdOff (storedWord t 4) = rxbdOff (storedWord s 4) ∧
        ∀ a, ¬(off ≤ a ∧ a < off + bytes.length) → a ≠ 6 → a ≠ 7 → storedByte t a = storedByte s a := by
  intro off t
  have hb : ∀ a, storedByte t a = storedByte (setRxCount 0 bytes.length (putBytes off bytes s)) a := fun a => rfl
  have out : ∀ a, a < 8 → storedByte (putBytes off bytes s) a = storedByte s a := by
    intro a ha
    exact storedByte_putBytes_outside _ _ _ _ (.inl (by omega))
  have w : storedWord t 4 = ((storedByte s 7 &&& 0xFC#8) ||| (BitVec.ofNat 8 (bytes.length / 256) &&& 0x03#8)) ++ (BitVec.ofNat 8 bytes.length ++ (storedByte s 5 ++ storedByte s 4)) := by
    rw [storedWord_bytes]
    simp only [hb, storedByte_setRxCount]
    simp [out]
  refine ⟨?_, ?_, ?_, ?_, ?_, ?_, ?_⟩
  · have : t = landPacket bytes reg ev s := rfl
    rw [this]
    simp only [landPacket, setRxCount, putByte]
    rw [putBytes_sram_only]
  · have : storedBytes t off bytes.length = storedBytes (putBytes off bytes s) off bytes.length := by
      apply storedBytes_congr
      intro x h1 h2
      rw [hb, storedByte_setRxCount, if_neg (by omega), if_neg (by omega)]
    rw [this, storedBytes_putBytes]
  · rw [w]
    have e0 : bytes.length / 256 = 0 := by omega
    have : ∀ n, n ≤ 64 → ((BitVec.ofNat 10 n) = (BitVec.ofNat 8 n).setWidth 10) := by decide
    rw [this _ hl, e0]
    apply BitVec.eq_of_getLsbD_eq
    intro i hi
    simp only [rxbdCount, BitVec.getLsbD_extractLsb', BitVec.getLsbD_append, BitVec.getLsbD_or, BitVec.getLsbD_and, BitVec.getLsbD_setWidth]
    interval_cases i <;> simp
  · rw [w, storedWord_bytes]
    simp only [rxbdBl, BitVec.getLsbD_append, BitVec.getLsbD_or, BitVec.getLsbD_and]
    simp
  · rw [w, storedWord_bytes]
    apply BitVec.eq_of_getLsbD_eq
    intro i hi
    simp only [rxbdNb, BitVec.getLsbD_extractLsb', BitVec.getLsbD_append, BitVec.getLsbD_or, BitVec.getLsbD_and]
    interval_cases i <;> simp
  · rw [w, storedWord_bytes]
    apply BitVec.eq_of_getLsbD_eq
    intro i hi
    simp only [rxbdOff, BitVec.getLsbD_extractLsb', BitVec.getLsbD_append, BitVec.getLsbD_or, BitVec.getLsbD_and]
    interval_cases i <;> simp
  · intro a h1 h2 h3
    rw [hb, storedByte_setRxCount, if_neg h3, if_neg h2, storedByte_putBytes_outside _ _ _ _ (by omega)]

theorem receivePacket_done {bytes : List Byte} {reg : Half} {e : WireEvent} {s t : State}
    (h : receivePacket bytes reg e s = .done t) :
    t = landPacket bytes reg e s ∧ (rxbdOff (storedWord s 4)).toNat + bytes.length ≤ s.params.sramBytes := by
  simp only [receivePacket] at h
  split at h
  · cases h
  · split at h
    · rename_i hb
      exact ⟨(LinkResult.done.inj h).symm, hb⟩
    · cases h

/-- What each move makes of the state (R272 to R278), the guards included. -/
theorem linkMove_cases {m : LinkMove} {s t : State} (h : linkMove m s = .done t) :
    (∃ bytes reg e, (m = .setupPacket bytes ∧ reg = Chepr.afterSetup s.chepr[(0 : Fin 8)] ∧ e = .setupAck bytes ∧
        Chepr.statrx s.chepr[(0 : Fin 8)] ≠ stDisabled ∨
        m = .outPacket bytes ∧ reg = Chepr.afterOut s.chepr[(0 : Fin 8)] ∧ e = .outAck bytes ∧
        Chepr.statrx s.chepr[(0 : Fin 8)] = stValid) ∧
      bytes.length ≤ 64 ∧ daddrEf s.daddr = true ∧ Chepr.vtrx s.chepr[(0 : Fin 8)] = false ∧
      (rxbdOff (storedWord s 4)).toNat + bytes.length ≤ s.params.sramBytes ∧ t = landPacket bytes reg e s) ∨
    (m = .inPacket ∧ daddrEf s.daddr = true ∧ Chepr.stattx s.chepr[(0 : Fin 8)] = stValid ∧
      Chepr.vttx s.chepr[(0 : Fin 8)] = false ∧
      t = { s with wire := s.wire ++ [.inData (armedPacket s)],
                   chepr := s.chepr.set 0 (Chepr.afterIn s.chepr[(0 : Fin 8)]) }) ∨
    (∃ e, (m = .inStall ∧ e = .inStall ∨ m = .outStall ∧ e = .outStall) ∧ daddrEf s.daddr = true ∧
      t = { s with wire := s.wire ++ [e] }) ∨
    (m = .reset ∧ t = linkReset s) ∨ (m = .sof ∧ t = linkSof s) ∨
    (∃ k, m = .ext k .tx ∧ daddrEf s.daddr = true ∧ Chepr.stattx s.chepr[capEp k] = stValid ∧
      Chepr.vttx s.chepr[capEp k] = false ∧
      t = { s with chepr := s.chepr.set (capEp k) (Chepr.afterIn s.chepr[capEp k]) }) ∨
    (∃ k, m = .ext k .rx ∧ daddrEf s.daddr = true ∧ Chepr.statrx s.chepr[capEp k] = stValid ∧
      Chepr.vtrx s.chepr[capEp k] = false ∧
      t = { drawRxCount (capEp k) (drawOutside s) with
              chepr := s.chepr.set (capEp k) (Chepr.afterExtRx s.chepr[capEp k]) }) := by
  cases m with
  | setupPacket bytes =>
    simp only [linkMove, linkSetup] at h
    split at h
    · rename_i hg
      obtain ⟨ht, hb⟩ := receivePacket_done h
      exact .inl ⟨bytes, _, _, .inl ⟨rfl, rfl, rfl, hg.2.2.1⟩, hg.1, hg.2.1, hg.2.2.2, hb, ht⟩
    · cases h
  | outPacket bytes =>
    simp only [linkMove, linkOut] at h
    split at h
    · rename_i hg
      obtain ⟨ht, hb⟩ := receivePacket_done h
      exact .inl ⟨bytes, _, _, .inr ⟨rfl, rfl, rfl, hg.2.2.1⟩, hg.1, hg.2.1, hg.2.2.2, hb, ht⟩
    · cases h
  | inPacket =>
    simp only [linkMove, linkIn] at h
    split at h
    · rename_i hg
      split at h
      · exact .inr (.inl ⟨rfl, hg.1, hg.2.1, hg.2.2, (LinkResult.done.inj h).symm⟩)
      · cases h
    · cases h
  | inStall =>
    simp only [linkMove, linkInStall] at h
    split at h
    · rename_i hg
      exact .inr (.inr (.inl ⟨_, .inl ⟨rfl, rfl⟩, hg.1, (LinkResult.done.inj h).symm⟩))
    · cases h
  | outStall =>
    simp only [linkMove, linkOutStall] at h
    split at h
    · rename_i hg
      exact .inr (.inr (.inl ⟨_, .inr ⟨rfl, rfl⟩, hg.1, (LinkResult.done.inj h).symm⟩))
    · cases h
  | reset => exact .inr (.inr (.inr (.inl ⟨rfl, (LinkResult.done.inj h).symm⟩)))
  | sof => exact .inr (.inr (.inr (.inr (.inl ⟨rfl, (LinkResult.done.inj h).symm⟩))))
  | ext k dir =>
    cases dir with
    | tx =>
      simp only [linkMove, linkExt] at h
      split at h
      · rename_i hg
        exact .inr (.inr (.inr (.inr (.inr (.inl
          ⟨k, rfl, hg.1, hg.2.1, hg.2.2, (LinkResult.done.inj h).symm⟩)))))
      · cases h
    | rx =>
      simp only [linkMove, linkExt] at h
      split at h
      · rename_i hg
        exact .inr (.inr (.inr (.inr (.inr (.inr
          ⟨k, rfl, hg.1, hg.2.1, hg.2.2, (LinkResult.done.inj h).symm⟩)))))
      · cases h

/-- A disabled function sees no transaction (R272 to R278): a bus reset and a start of frame are all that can happen. -/
theorem linkMove_disabled {s : State} (h : daddrEf s.daddr = false) {m : LinkMove} (h1 : m ≠ .reset) (h2 : m ≠ .sof) :
    linkMove m s = .notEnabled := by
  cases m with
  | reset => exact absurd rfl h1
  | sof => exact absurd rfl h2
  | setupPacket bytes => simp [linkMove, linkSetup, h]
  | outPacket bytes => simp [linkMove, linkOut, h]
  | inPacket => simp [linkMove, linkIn, h]
  | inStall => simp [linkMove, linkInStall, h]
  | outStall => simp [linkMove, linkOutStall, h]
  | ext k dir => cases dir <;> simp [linkMove, linkExt, h]

/-- What the link agent leaves alone (R270). -/
theorem linkMove_frame {m : LinkMove} {s t : State} (h : linkMove m s = .done t) : LinkFrame s t := by
  rcases linkMove_cases h with ⟨_, _, _, _, _, _, _, _, rfl⟩ | ⟨_, _, _, _, rfl⟩ | ⟨_, _, _, rfl⟩ | ⟨_, rfl⟩ |
    ⟨_, rfl⟩ | ⟨_, _, _, _, _, rfl⟩ | ⟨_, _, _, _, _, rfl⟩
  · exact linkFrame_landPacket _ _ _ s
  all_goals rfl

theorem SramInv.congr {s t : State} (h : SramInv s) (h1 : t.sram = s.sram) (h2 : t.params = s.params) :
    SramInv t := by
  unfold SramInv at *
  rw [h1, h2]
  exact h

theorem SramInv.putBytes {s : State} (h : SramInv s) {a : Nat} {l : List Byte}
    (hl : a + l.length ≤ s.params.sramBytes) : SramInv (putBytes a l s) :=
  ⟨wf_putBytes l a s h.1, by rw [putBytes_params]; exact below_putBytes l a _ s h.2 hl⟩

theorem SramInv.putByte {s : State} (h : SramInv s) {a : Nat} (b : Byte) (ha : a < s.params.sramBytes) :
    SramInv (putByte a b s) :=
  ⟨Sram.wf_put _ _ _ h.1, Sram.below_put _ _ _ _ h.2 ha⟩

theorem SramInv.drawOutside {s : State} (h : SramInv s) : SramInv (drawOutside s) :=
  ⟨Sram.wf_filter _ _ h.1, Sram.below_filter _ _ _ h.2⟩

/-- The table lies inside the SRAM (R48, R345). -/
theorem Params.table_in_sram (p : Params) {a : Nat} (h : a < 64) : a < p.sramBytes := by
  obtain ⟨-, -, h3, -, -, -, -, -⟩ := Params.layout p
  omega

theorem rxbdAddr_lt (n : Fin 8) : rxbdAddr n + 3 < 64 := by
  have := n.isLt
  simp only [rxbdAddr]
  omega

theorem SramInv.setRxCount {s : State} (h : SramInv s) (n : Fin 8) (c : Nat) : SramInv (setRxCount n c s) := by
  have h1 := rxbdAddr_lt n
  exact (h.putByte _ (Params.table_in_sram _ (by omega))).putByte _ (Params.table_in_sram _ h1)

theorem SramInv.drawRxCount {s : State} (h : SramInv s) (n : Fin 8) : SramInv (drawRxCount n s) := by
  have h1 := rxbdAddr_lt n
  exact (h.putByte _ (Params.table_in_sram _ (by omega))).putByte _ (Params.table_in_sram _ h1)

theorem SramInv.landPacket {s : State} (h : SramInv s) {bytes : List Byte} (reg : Half) (e : WireEvent)
    (hb : (rxbdOff (storedWord s 4)).toNat + bytes.length ≤ s.params.sramBytes) :
    SramInv (landPacket bytes reg e s) := by
  have h1 := (h.putBytes hb).setRxCount 0 bytes.length
  exact h1.congr rfl rfl

theorem linkMove_sramInv {m : LinkMove} {s t : State} (h : linkMove m s = .done t) (hi : SramInv s) : SramInv t := by
  rcases linkMove_cases h with ⟨_, _, _, _, _, _, _, hb, rfl⟩ | ⟨_, _, _, _, rfl⟩ | ⟨_, _, _, rfl⟩ | ⟨_, rfl⟩ |
    ⟨_, rfl⟩ | ⟨_, _, _, _, _, rfl⟩ | ⟨k, _, _, _, _, rfl⟩
  · exact hi.landPacket _ _ hb
  all_goals first | exact hi | exact (hi.drawOutside.drawRxCount (capEp k)).congr rfl rfl

/-- A property that every done move keeps is kept by a move that lands in a window. -/
theorem offerMove_induct {P : State → State → Prop} (hr : ∀ s, P s s)
    (hm : ∀ m s t, linkMove m s = .done t → P s t) (m : LinkMove) (s : State) : P s (offerMove s m) := by
  unfold offerMove
  split
  · exact hm _ _ _ ‹_›
  all_goals exact hr s

/-- A transitive property that every done move and the taking of a window keep is kept by `window`. -/
theorem window_induct {P : State → State → Prop} (hr : ∀ s, P s s) (ht : ∀ s t u, P s t → P t u → P s u)
    (hw : ∀ s ws, P s { s with windows := ws }) (hm : ∀ m s t, linkMove m s = .done t → P s t) (s : State) :
    P s (window s) := by
  have fold : ∀ (ms : List LinkMove) (u : State), P u (ms.foldl offerMove u) := by
    intro ms
    induction ms with
    | nil => exact hr
    | cons m ms ih => exact fun u => ht _ _ _ (offerMove_induct hr hm m u) (ih (offerMove u m))
  unfold window
  split
  · exact ht _ _ _ (hw s _) (fold _ _)
  · exact hr s
  · exact hr s

/-- A window keeps the frame of the link agent. -/
theorem window_frame (s : State) : LinkFrame s (window s) :=
  window_induct (P := LinkFrame) LinkFrame.refl (fun _ _ _ => LinkFrame.trans) (fun _ _ => rfl)
    (fun _ _ _ => linkMove_frame) s

/-- A window keeps the SRAM canonical and in range. -/
theorem window_sramInv {s : State} (h : SramInv s) : SramInv (window s) :=
  window_induct (P := fun s t => SramInv s → SramInv t) (fun _ h => h) (fun _ _ _ h1 h2 h => h2 (h1 h))
    (fun _ _ h => h) (fun _ _ _ hm hi => linkMove_sramInv hm hi) s h

end Sys2Proof.Machine
end

