-- ==== Sys2Proof/Laws/Closure.lean ====
section
/-! SUPPORT. One induction for every operation of CORE and of its collaborators: a reflexive and transitive relation that the
single accesses and the windows before them respect is respected by every operation, whatever the link agent does in the
windows. The statements about every step take this and supply the relation. -/

namespace Sys2Proof.Machine

/-- A relation between a state and a later one that the single accesses respect. -/
structure Closed (P : State → State → Prop) : Prop where
  refl : ∀ s, P s s
  trans : ∀ s t u, P s t → P t u → P s u
  window : ∀ s, P s (window s)
  byte : ∀ a b s, a < s.params.sramBytes → P s (putByte a b s)
  draw : ∀ s, P s (drawOutside s)
  chepr : ∀ v s, P s { s with chepr := v }

namespace Closed

variable {P : State → State → Prop} (hP : Closed P)
include hP

theorem putBytes (l : List Byte) : ∀ (a : Nat) (s : State), a + l.length ≤ s.params.sramBytes →
    P s (Machine.putBytes a l s) := by
  induction l with
  | nil => intro a s _; exact hP.refl s
  | cons b l ih =>
    intro a s h
    rw [List.length_cons] at h
    rw [Machine.putBytes]
    exact hP.trans _ _ _ (hP.byte a b s (by omega)) (ih (a + 1) (putByte a b s) (by rw [putByte_params]; omega))

theorem memWrite (a n v : Nat) (s : State) (h : a + n ≤ s.params.sramBytes) : P s (memWrite a n v s) := by
  refine hP.trans _ _ _ (hP.window s) (hP.putBytes _ _ _ ?_)
  rw [leBytes_length, (window_frame s).params]
  exact h

theorem memWriteBytes (l : List Byte) : ∀ (a : Nat) (s : State), a + l.length ≤ s.params.sramBytes →
    P s (memWriteBytes a l s) := by
  induction l with
  | nil => intro a s _; exact hP.refl s
  | cons b l ih =>
    intro a s h
    rw [List.length_cons] at h
    have e := (window_frame s).params
    rw [Machine.memWriteBytes]
    refine hP.trans _ _ _ (hP.window s) (hP.trans _ _ _ (hP.byte a b (Machine.window s) ?_) (ih (a + 1) _ ?_))
    · rw [e]; omega
    · rw [putByte_params, e]; omega

theorem epUpdate (n : Fin 8) (req : EpReq) (s : State) : P s (epUpdate n req s) := by
  unfold Machine.epUpdate
  exact hP.trans _ _ _ (hP.window s) (hP.trans _ _ _ (hP.window _) (hP.chepr _ _))

/-- A descriptor lies in the SRAM (R48, R345). -/
theorem bdSetTx (n : Fin 8) (off count : Half) (s : State) : P s (bdSetTx n off count s) := by
  refine hP.memWrite _ _ _ _ ?_
  have h1 := n.isLt
  have h2 := Params.table_in_sram s.params (a := 63) (by omega)
  simp only [txbdAddr]
  omega

theorem bdSetRx {n : Fin 8} {off : Half} {size : Nat} {s t : State} (h : bdSetRx n off size s = some t) : P s t := by
  simp only [Machine.bdSetRx] at h
  cases hc : rxCode size with
  | none => rw [hc] at h; cases h
  | some c =>
    rw [hc] at h
    cases h
    refine hP.memWrite _ _ _ _ ?_
    have h1 := rxbdAddr_lt n
    have h2 := Params.table_in_sram s.params (a := 63) (by omega)
    omega

theorem armRx (s : State) : P s (armRx s) := by
  unfold Machine.armRx
  cases h : Machine.bdSetRx 0 (rxOffset s) Config.ep0Mps s with
  | none => exact hP.refl s
  | some t => exact hP.bdSetRx h

theorem foldl {α : Type} (f : State → α → State) (hf : ∀ s x, P s (f s x)) (l : List α) :
    ∀ s, P s (l.foldl f s) := by
  induction l with
  | nil => exact hP.refl
  | cons x l ih => exact fun s => hP.trans _ _ _ (hf s x) (ih _)

theorem capOp (k : Cap) (op : CapOp) (s : State) : P s (capOp k op s) := by
  cases op with
  | update req => exact hP.epUpdate _ _ _
  | setTx off count => exact hP.bdSetTx _ _ _ _
  | setRx off size =>
    simp only [Machine.capOp]
    cases h : Machine.bdSetRx (capEp k) off size s with
    | none => exact hP.refl s
    | some t => exact hP.bdSetRx h
  | store a bytes =>
    simp only [Machine.capOp]
    split
    · rename_i h
      simp only [storeLegal, Bool.and_eq_true, decide_eq_true_eq] at h
      exact hP.memWriteBytes _ _ _ h.1
    · exact hP.refl s

theorem drawEntry (k : Cap) (s : State) : P s (drawEntry k s) := by
  have h1 := (capEp k).isLt
  have h2 := Params.table_in_sram s.params (a := 63) (by omega)
  have ht : P s (Machine.putBytes (txbdAddr (capEp k))
      ((List.range 4).map fun i => Config.freeDesc s.eraExt (txbdAddr (capEp k) + i)) s) := by
    apply hP.putBytes
    simp only [txbdAddr, List.length_map, List.length_range]
    omega
  simp only [Machine.drawEntry]
  split
  · refine hP.trans _ _ _ ht (hP.putBytes _ _ _ ?_)
    rw [leBytes_length, putBytes_params]
    simp only [rxbdAddr]
    omega
  · exact ht

theorem drawCap (k : Cap) (clrRx clrTx : Bool) (s : State) : P s (drawCap k clrRx clrTx s) :=
  hP.trans _ _ _ (hP.draw s) (hP.trans _ _ _ (hP.drawEntry k _) (hP.chepr _ _))

theorem freeCap (k : Cap) (clrRx clrTx : Bool) (s : State) : P s (freeCap k clrRx clrTx s) :=
  hP.trans _ _ _ (hP.drawCap k clrRx clrTx s) (hP.trans _ _ _ (hP.window _) (hP.drawCap k false false _))

theorem freeCaps (s : State) : P s (allCaps.foldl (fun t k => Machine.freeCap k false false t) s) :=
  hP.foldl (fun t k => Machine.freeCap k false false t) (fun s k => hP.freeCap k false false s) allCaps s

theorem freeEffect (c : Call) (s : State) : P s (freeEffect c s) := by
  cases c with
  | device => exact hP.refl s
  | config hd => exact hP.refl s
  | string i => exact hP.refl s
  | init k => exact hP.freeCap k _ _ s
  | sof k => exact hP.freeCap k _ _ s
  | txHandler k => exact hP.freeCap k _ _ s
  | rxHandler k => exact hP.freeCap k _ _ s
  | wanted k hd => exact hP.freeCap k _ _ s
  | handler k hd => exact hP.freeCap k _ _ s
  | txDone t hd => rw [Machine.freeEffect]; exact hP.freeCaps s
  | rxDone t => rw [Machine.freeEffect]; exact hP.freeCaps s

theorem effectOf (c : Call) (s : State) : P s (effectOf c s) := by
  simp only [Machine.effectOf]
  split
  · split
    · split
      · exact hP.foldl _ (fun s o => hP.capOp _ o s) _ s
      · exact hP.freeEffect c s
    · exact hP.freeEffect c s
  · exact hP.refl s

variable (hc : ∀ c s, P s { s with calls := c })
include hc

theorem perform (c : Call) (s : State) : P s (perform c s) :=
  hP.trans _ _ _ (hc _ s) (hP.trans _ _ _ (hP.window _) (hP.effectOf c _))

theorem performAll (f : Cap → Call) (s : State) : P s (performAll f s) :=
  hP.foldl (fun t k => Machine.perform (f k) t) (fun s k => hP.perform hc (f k) s) allCaps s

theorem offerRequest (h : SetupHeader) : ∀ (ks : List Cap) (s : State), P s (offerRequest h ks s).1 := by
  intro ks
  induction ks with
  | nil => exact hP.refl
  | cons k ks ih =>
    intro s
    simp only [Machine.offerRequest]
    split
    · exact hP.trans _ _ _ (hP.perform hc (.wanted k h) s) (hP.perform hc (.handler k h) _)
    · exact hP.trans _ _ _ (hP.perform hc (.wanted k h) s) (ih _)

end Closed

/-- The fields no access of CORE, of a collaborator or of the link agent writes: they change only where a rule names
them. -/
abbrev AccessFrame (s t : State) : Prop := t = { s with
    chepr := t.chepr, istrReset := t.istrReset, istrSof := t.istrSof, daddr := t.daddr, sram := t.sram
    rxUnsettled := t.rxUnsettled, wire := t.wire, windows := t.windows, calls := t.calls, eraExt := t.eraExt }

theorem accessFrame_closed : Closed AccessFrame where
  refl := fun _ => rfl
  trans := by
    intro s t u h1 h2
    unfold AccessFrame at *
    rw [h2, h1]
  window := fun s => by
    have h := window_frame s
    unfold AccessFrame
    rw [h]
  byte := fun _ _ _ _ => rfl
  draw := fun _ => rfl
  chepr := fun _ _ => rfl

/-- The SRAM stays canonical and in range through every operation (R71). -/
theorem sramInv_closed : Closed fun s t => SramInv s → SramInv t where
  refl := fun _ h => h
  trans := fun _ _ _ h1 h2 h => h2 (h1 h)
  window := fun _ h => window_sramInv h
  byte := fun _ b _ ha h => h.putByte b ha
  draw := fun _ h => h.drawOutside
  chepr := fun _ _ h => h

/-- Nothing but `perform` logs a call. -/
theorem calls_closed : Closed fun s t => t.calls = s.calls where
  refl := fun _ => rfl
  trans := fun _ _ _ h1 h2 => h2.trans h1
  window := fun s => (window_frame s).calls
  byte := fun _ _ _ _ => rfl
  draw := fun _ => rfl
  chepr := fun _ _ => rfl

/-- A call is logged once, whatever the link agent does meanwhile. -/
theorem perform_logs (c : Call) (s : State) : (perform c s).calls = s.calls ++ [c] :=
  (calls_closed.effectOf c _).trans (window_frame { s with calls := s.calls ++ [c] }).calls

theorem performAll_logs (f : Cap → Call) (s : State) : (performAll f s).calls = s.calls ++ allCaps.map f := by
  have key : ∀ (ks : List Cap) (u : State), (ks.foldl (fun t k => perform (f k) t) u).calls = u.calls ++ ks.map f := by
    intro ks
    induction ks with
    | nil => intro u; simp
    | cons k ks ih => intro u; rw [List.foldl_cons, ih, perform_logs]; simp
  exact key allCaps s

section fields
variable {s t : State} (h : AccessFrame s t)
include h
theorem AccessFrame.cs : t.cs = s.cs := by rw [h]
theorem AccessFrame.cntr : t.cntr = s.cntr := by rw [h]
theorem AccessFrame.pos : t.pos = s.pos := by rw [h]
theorem AccessFrame.any : t.any = s.any := by rw [h]
theorem AccessFrame.errors : t.errors = s.errors := by rw [h]
theorem AccessFrame.oracles : t.oracles = s.oracles := by rw [h]
theorem AccessFrame.badCode : t.badCode = s.badCode := by rw [h]
theorem AccessFrame.params : t.params = s.params := by rw [h]
theorem AccessFrame.tick : t.tick = s.tick := by rw [h]
end fields

end Sys2Proof.Machine
end

