-- ==== Sys2Proof/Laws/Access.lean ====
section
/-! SUPPORT. What the handlers do to ControlState, the recorded classes and the control registers, whatever the link agent does
in the windows: an `AccessFrame` from the state with the named fields already changed. -/

namespace Sys2Proof.Machine

theorem AccessFrame.refl (s : State) : AccessFrame s s := rfl

theorem AccessFrame.trans {s t u : State} (h1 : AccessFrame s t) (h2 : AccessFrame t u) : AccessFrame s u :=
  accessFrame_closed.trans s t u h1 h2

/-- A change of ControlState after the accesses is a change before them. -/
theorem AccessFrame.with_cs {s t : State} (h : AccessFrame s t) (c : ControlState) :
    AccessFrame { s with cs := c } { t with cs := c } := by
  unfold AccessFrame at *
  rw [h]

theorem AccessFrame.with_pos {s t : State} (h : AccessFrame s t) (p : Pos) :
    AccessFrame { s with pos := p } { t with pos := p } := by
  unfold AccessFrame at *
  rw [h]

theorem epUpdate_access (n : Fin 8) (req : EpReq) (s : State) : AccessFrame s (epUpdate n req s) :=
  accessFrame_closed.epUpdate n req s

theorem perform_access (c : Call) (s : State) : AccessFrame s (perform c s) := accessFrame_closed.perform (fun _ _ => rfl) c s

theorem performAll_access (f : Cap → Call) (s : State) : AccessFrame s (performAll f s) :=
  accessFrame_closed.performAll (fun _ _ => rfl) f s

theorem offerRequest_access (h : SetupHeader) (ks : List Cap) (s : State) :
    AccessFrame s (offerRequest h ks s).1 := accessFrame_closed.offerRequest (fun _ _ => rfl) h ks s

theorem window_access (s : State) : AccessFrame s (window s) := accessFrame_closed.window s

/-- `SendChunk` (R214). -/
theorem sendChunk_access (rem : List Byte) (cb : TxTok) (s : State) :
    AccessFrame { s with cs := afterChunk rem cb s.cs } (sendChunk rem cb s) := by
  have hb : s.params.ep0TxOff + (rem.take Config.ep0Mps).length ≤ s.params.sramBytes := by
    have h5 := (Params.layout s.params).2.2.2.2.1
    have h6 := List.length_take_le Config.ep0Mps rem
    simp only [Config.ep0Mps] at h6 ⊢
    omega
  have h := (accessFrame_closed.memWriteBytes (rem.take Config.ep0Mps) s.params.ep0TxOff s hb).trans
    (accessFrame_closed.bdSetTx 0 (txOffset s) (BitVec.ofNat 16 (rem.take Config.ep0Mps).length) _)
  have hc := h.cs
  rw [afterChunk_eq]
  simp only [sendChunk]
  generalize bdSetTx 0 (txOffset s) (BitVec.ofNat 16 (rem.take Config.ep0Mps).length)
    (memWriteBytes s.params.ep0TxOff (rem.take Config.ep0Mps) s) = u at h hc
  rw [hc]
  split
  · exact h.with_cs _
  · exact h.with_cs _

/-- `ApplyTx` (R211). -/
theorem applyTx_access (data : List Byte) (cb : TxTok) (h : SetupHeader) (s : State) :
    AccessFrame { s with cs := (afterChunk (data.take (min data.length h.length.toNat)) cb
      { s.cs with short := decide (data.length < h.length.toNat) } : ControlState) } (applyTx data cb h s) :=
  (sendChunk_access (data.take (min data.length h.length.toNat)) cb
    { s with cs := { s.cs with short := decide (data.length < h.length.toNat) } }).trans (epUpdate_access _ _ _)

/-- `ApplyRx` (R212). -/
theorem applyRx_access (cb : RxTok) (s : State) :
    AccessFrame { s with cs := { s.cs with rxCb := cb } } (applyRx cb s) := by
  have h := accessFrame_closed.armRx s
  have hc := h.cs
  simp only [applyRx]
  refine AccessFrame.trans ?_ (epUpdate_access _ _ _)
  rw [hc]
  exact h.with_cs _

/-- The stall (R213). -/
theorem raiseStall_access (e : ErrorClass) (s : State) :
    AccessFrame { s with errors := s.errors ++ [e] } (raiseStall e s) := epUpdate_access _ _ _

/-- The ControlState a result leaves (R210). -/
def afterResult (res : SetupResult) (h : SetupHeader) (c : ControlState) : ControlState :=
  match res with
  | .tx data cb =>
    afterChunk (data.take (min data.length h.length.toNat)) cb { c with short := decide (data.length < h.length.toNat) }
  | .rx n cb => if n = h.length ∧ n ≠ 0#16 then { c with rxCb := cb } else c

/-- The classes a result records (R302). -/
def resultErrors (res : SetupResult) (h : SetupHeader) : List ErrorClass :=
  match res with
  | .tx _ _ => []
  | .rx n _ => if n = h.length ∧ n ≠ 0#16 then [] else [.unsupported]

/-- A served request (R180, R210). -/
theorem finishRequest_access (res : SetupResult) (h : SetupHeader) (s : State) :
    AccessFrame { s with pos := .reread, cs := afterResult res h s.cs, errors := s.errors ++ resultErrors res h }
      (finishRequest res h s) := by
  have key : AccessFrame { s with cs := afterResult res h s.cs, errors := s.errors ++ resultErrors res h }
      (applyResult res h s) := by
    cases res with
    | tx data cb =>
      simp only [applyResult, afterResult, resultErrors, List.append_nil]
      exact applyTx_access data cb h s
    | rx n cb =>
      simp only [applyResult, afterResult, resultErrors]
      split
      · rw [List.append_nil]; exact applyRx_access cb s
      · exact raiseStall_access .unsupported s
  exact key.with_pos .reread

/-- Invoking a token (R226). -/
theorem invokeTxDone_access (cb : TxTok) (h : SetupHeader) (s : State) :
    AccessFrame { s with cs := { s.cs with
      pendingAddr := if cb = .applyAddress then none else s.cs.pendingAddr } } (invokeTxDone cb h s) := by
  cases cb with
  | none => rfl
  | applyAddress =>
    cases hp : s.cs.pendingAddr with
    | none =>
      simp only [invokeTxDone, hp, if_true]
      unfold AccessFrame
      rw [← hp]
    | some a =>
      simp only [invokeTxDone, hp, if_true]
      have h1 := window_access s
      have hc := h1.cs
      simp only [regWrite, pokeReg]
      rw [hc]
      exact AccessFrame.trans (h1.with_cs _) rfl
  | ext t => exact perform_access _ s

/-- `ControlInit` (R256). -/
theorem controlInit_access (s : State) : AccessFrame { s with cs := ControlState.cleared } (controlInit s) :=
  (accessFrame_closed.bdSetTx _ _ _ _).trans ((accessFrame_closed.armRx _).trans (epUpdate_access _ _ _))

/-- `DeviceInit` (R257). -/
theorem deviceInit_access (s : State) :
    AccessFrame { s with cs := ControlState.cleared, cntr := 0x8600#16 } (deviceInit s) := by
  have h1 := (controlInit_access s).trans (performAll_access .init _)
  have h2 := h1.trans (window_access _)
  unfold deviceInit
  generalize performAll .init (controlInit s) = u at h1 h2
  have h3 : AccessFrame { s with cs := ControlState.cleared, cntr := 0x8600#16 }
      (regWrite .cntr (0#16 ++ Config.irqMask) u) := by
    have e : (0#16 ++ Config.irqMask : Word).extractLsb' 0 16 &&& Config.irqMask = 0x8600#16 := by decide
    simp only [regWrite, pokeReg, e]
    unfold AccessFrame at *
    rw [h2]
  exact h3.trans ((window_access _).trans rfl)

end Sys2Proof.Machine
end

