-- ==== Sys2Proof/Laws/Transfer.lean ====
section
/-! SUPPORT. What applying a result leaves (R210 to R214), when no move of the link agent lands inside: one lemma for each
of the three cases, and one for all of them. -/

namespace Sys2Proof.Machine

theorem applyTx_quiet {s : State} (h : Quiet s) (data : List Byte) (cb : TxTok) (hd : SetupHeader) :
    TxApplied data cb hd s (setPos .reread (applyTx data cb hd s)) := by
  have h1 : Quiet { s with cs := { s.cs with short := decide (data.length < hd.length.toNat) } } := h
  have hs := sendChunk_state h1 (data.take (min data.length hd.length.toNat)) cb
  have hm := chunkStored_sendChunk h1 (data.take (min data.length hd.length.toNat)) cb
  simp only [applyTx]
  generalize sendChunk (data.take (min data.length hd.length.toNat)) cb
      { s with cs := { s.cs with short := decide (data.length < hd.length.toNat) } } = u at hs hm
  have hq : Quiet u := by rw [hs]; exact h
  have hu := epUpdate_quiet hq 0 { stattx := some stValid, clrRx := true }
  constructor
  · rw [hu, hs]
    simp [setPos, Chepr.updated]
  · rw [hu]
    exact ⟨hm.descriptor, hm.chunk, hm.frame⟩

/-- A descriptor of endpoint `n` is stored and nothing else changes (R160). -/
theorem bdSetTx_spec {s : State} (h : Quiet s) (n : Fin 8) (off count : Half) :
    bdSetTx n off count s = { s with sram := (bdSetTx n off count s).sram } ∧
      storedWord (bdSetTx n off count s) (txbdAddr n) = txbdWord off count ∧
      ∀ a, ¬(txbdAddr n ≤ a ∧ a < txbdAddr n + 4) → storedByte (bdSetTx n off count s) a = storedByte s a := by
  rw [bdSetTx_quiet h]
  refine ⟨putBytes_sram_only _ _ _, storedWord_putBytes _ _ _, fun a ha => ?_⟩
  rw [storedByte_putBytes_outside _ _ _ _ (by rw [leBytes_length]; omega)]

/-- A zero count at the TX buffer (R160, R225, R256). -/
theorem txbdWord_zero (s : State) : txbdWord (txOffset s) 0#16 = BitVec.ofNat 32 s.params.ep0TxOff := by
  obtain ⟨hl, -, -, -, h5, -, -, -⟩ := Params.layout s.params
  apply BitVec.eq_of_toNat_eq
  simp only [txbdWord, txOffset, BitVec.toNat_append, BitVec.toNat_ofNat]
  simp only [Nat.zero_mod, Nat.zero_shiftLeft, Nat.zero_or]
  omega

/-- The word `BdSetRx(0, EP0_RX_OFF, 64)` stores (R106, R162). -/
theorem rxbdWord_armed (s : State) :
    rxbdWord true 1#5 0#10 (rxOffset s) = 0x84000000#32 ||| BitVec.ofNat 32 s.params.ep0RxOff := by
  obtain ⟨hl1, hl2, hl3, -, -, -, -, -⟩ := Params.layout s.params
  have h : (rxOffset s).setWidth 32 = BitVec.ofNat 32 s.params.ep0RxOff := by
    apply BitVec.eq_of_toNat_eq
    simp only [rxOffset, BitVec.toNat_setWidth, BitVec.toNat_ofNat]
    omega
  rw [← h]
  apply BitVec.eq_of_getLsbD_eq
  intro i hi
  simp only [rxbdWord, BitVec.getLsbD_append, BitVec.getLsbD_or, BitVec.getLsbD_setWidth]
  interval_cases i <;> simp

/-- The RX descriptor of endpoint 0 is armed and nothing else changes (R212, R256). -/
theorem armRx_spec {s : State} (h : Quiet s) :
    armRx s = { s with sram := (armRx s).sram } ∧
      storedWord (armRx s) (rxbdAddr 0) = 0x84000000#32 ||| BitVec.ofNat 32 s.params.ep0RxOff ∧
      ∀ a, ¬(rxbdAddr 0 ≤ a ∧ a < rxbdAddr 0 + 4) → storedByte (armRx s) a = storedByte s a := by
  rw [armRx_quiet h]
  refine ⟨putBytes_sram_only _ _ _, ?_, fun a ha => ?_⟩
  · rw [storedWord_putBytes, rxbdWord_armed]
  · rw [storedByte_putBytes_outside _ _ _ _ (by rw [leBytes_length]; omega)]

theorem applyRx_quiet {s : State} (h : Quiet s) (cb : RxTok) : RxArmed cb s (setPos .reread (applyRx cb s)) := by
  obtain ⟨h1, h2, h3⟩ := armRx_spec h
  simp only [applyRx]
  generalize armRx s = u at h1 h2 h3
  have hq : Quiet { u with cs := { u.cs with rxCb := cb } } := by rw [h1]; exact h
  rw [epUpdate_quiet hq]
  refine ⟨?_, h2, h3⟩
  rw [h1]
  simp [setPos, Chepr.updated]

theorem raiseStall_quiet {s : State} (h : Quiet s) (e : ErrorClass) :
    Stalled e s (setPos .reread (raiseStall e s)) := by
  have hq : Quiet (raise e s) := h
  rw [Stalled, raiseStall, stallBoth_quiet hq]
  simp [setPos, raise, Chepr.updated]

/-- What a served request leaves (R180, R210). -/
theorem finishRequest_quiet {s : State} (h : Quiet s) (res : SetupResult) (hd : SetupHeader) :
    ResultApplied res hd s (finishRequest res hd s) := by
  cases res with
  | tx data cb => exact applyTx_quiet h data cb hd
  | rx n cb =>
    simp only [ResultApplied, finishRequest, applyResult]
    split
    · exact applyRx_quiet h cb
    · exact raiseStall_quiet h .unsupported

end Sys2Proof.Machine
end

