-- ==== Sys2Proof/Laws/Collab.lean ====
section
/-! SUPPORT. What collaborator calls may change (R322): every call, and every sequence of calls, keeps the frame of the
contract and is logged in order. -/

namespace Sys2Proof.Machine

theorem RegisterKept.refl (v : Half) : RegisterKept v v := ⟨rfl, rfl, id, id⟩

theorem RegisterKept.trans {u v w : Half} (h1 : RegisterKept u v) (h2 : RegisterKept v w) : RegisterKept u w :=
  ⟨h2.setup.trans h1.setup, h2.epkind.trans h1.epkind, h1.vtrx ∘ h2.vtrx, h1.vttx ∘ h2.vttx⟩

/-- An `EpUpdate` keeps what R322 and R155 keep. -/
theorem RegisterKept.updated (v : Half) (req : EpReq) : RegisterKept v (Chepr.updated v req) := by
  constructor <;> simp [Chepr.updated]
  all_goals exact fun h _ => h

theorem RegisterKept.afterCapability (v free : Half) (clrRx clrTx : Bool) :
    RegisterKept v (Chepr.afterCapability v free clrRx clrTx) := by
  constructor <;> simp [Chepr.afterCapability]
  all_goals exact fun h _ _ => h

namespace CapabilityFrame

theorem refl (s : State) : CapabilityFrame s s := ⟨rfl, rfl, fun _ _ => rfl, fun _ => RegisterKept.refl _⟩

theorem params {s t : State} (h : CapabilityFrame s t) : t.params = s.params := by rw [h.state]
theorem windows {s t : State} (h : CapabilityFrame s t) : t.windows = s.windows := by rw [h.state]
theorem oracles {s t : State} (h : CapabilityFrame s t) : t.oracles = s.oracles := by rw [h.state]
theorem tick {s t : State} (h : CapabilityFrame s t) : t.tick = s.tick := by rw [h.state]
theorem cs {s t : State} (h : CapabilityFrame s t) : t.cs = s.cs := by rw [h.state]

theorem trans {s t u : State} (h1 : CapabilityFrame s t) (h2 : CapabilityFrame t u) : CapabilityFrame s u where
  state := by rw [h2.state, h1.state]
  endpointZero := by rw [h2.endpointZero, h1.endpointZero]
  memory := by
    intro a ha
    rw [h2.memory a (by rw [h1.params]; exact ha), h1.memory a ha]
  registers := fun n => (h1.registers n).trans (h2.registers n)

theorem quiet {s t : State} (h : CapabilityFrame s t) (hq : Quiet s) : Quiet t := hq.congr h.params h.windows

end CapabilityFrame

theorem capEp_ne_zero (k : Cap) : capEp k ≠ 0 := Fin.succ_ne_zero k

/-- A byte that R322 keeps from the capabilities is not a byte of the descriptors of entries 1 to 7. -/
theorem owned_outside_entry (p : Params) (k : Cap) {a : Nat}
    (ha : a < 8 ∨ inRxBuffer p a = true ∨ inTxBuffer p a = true) :
    a < 8 * (capEp k).val ∨ 8 * (capEp k).val + 8 ≤ a := by
  obtain ⟨-, h2, -, h4, -, -, -, -⟩ := Params.layout p
  have h8 : (capEp k).val = k.val + 1 := by simp [capEp]
  have hk := k.isLt
  simp only [inRxBuffer, inTxBuffer, decide_eq_true_eq] at ha
  omega

theorem inRegions_of_owned (p : Params) {a : Nat} (ha : a < 8 ∨ inRxBuffer p a = true ∨ inTxBuffer p a = true) :
    inRegions p a = true := by
  simp only [inRegions, Bool.or_eq_true, inTable, decide_eq_true_eq]
  rcases ha with h | h | h
  · exact .inl (.inl (by omega))
  · exact .inl (.inr h)
  · exact .inr h

/-- A call may be logged (R60). -/
theorem capabilityFrame_calls (s : State) (c : List Call) : CapabilityFrame s { s with calls := c } :=
  ⟨rfl, rfl, fun _ _ => rfl, fun _ => RegisterKept.refl _⟩

namespace OwnerFrame

variable {k : Cap}

theorem refl (s : State) : OwnerFrame k s s :=
  ⟨CapabilityFrame.refl s, fun _ _ => rfl, fun _ _ _ _ _ => rfl, .inl rfl⟩

theorem trans {s t u : State} (h1 : OwnerFrame k s t) (h2 : OwnerFrame k t u) : OwnerFrame k s u where
  toCapabilityFrame := h1.toCapabilityFrame.trans h2.toCapabilityFrame
  others := fun j hj => (h2.others j hj).trans (h1.others j hj)
  entries := fun j hj a ha hb => (h2.entries j hj a ha hb).trans (h1.entries j hj a ha hb)
  receive := by
    rcases h2.receive with h | h
    · exact h1.receive.imp h.trans fun ⟨off, size, c, hc, e⟩ => ⟨off, size, c, hc, h.trans e⟩
    · exact .inr h

/-- A change of the memory that avoids all of the three regions but the own entry. -/
theorem of_memory {s t : State} (hs : t = { s with sram := t.sram, eraExt := t.eraExt })
    (hm : ∀ x, inRegions s.params x = true → (x < 8 * (capEp k).val ∨ 8 * (capEp k).val + 8 ≤ x) →
      storedByte t x = storedByte s x)
    (hr : storedWord t (rxbdAddr (capEp k)) = storedWord s (rxbdAddr (capEp k)) ∨
      ∃ off size c, rxCode size = some c ∧ storedWord t (rxbdAddr (capEp k)) = rxbdWord c.1 c.2 0#10 off) :
    OwnerFrame k s t where
  state := by rw [hs]
  endpointZero := by rw [hs]
  memory := fun x hx => hm x (inRegions_of_owned _ hx) (owned_outside_entry _ k hx)
  registers := fun n => by rw [hs]; exact RegisterKept.refl _
  others := fun j _ => by rw [hs]
  entries := by
    intro j hj x h1 h2
    have h3 := (capEp j).isLt
    have h4 : (capEp j).val ≠ (capEp k).val := fun h => hj (Fin.succ_injective _ (Fin.ext h))
    refine hm x ?_ (by omega)
    simp only [inRegions, inTable, Bool.or_eq_true, decide_eq_true_eq]
    exact .inl (.inl (by omega))
  receive := hr

/-- A stored sequence that avoids all of the three regions but the own TX descriptor. -/
theorem putBytes {s : State} (a : Nat) (l : List Byte)
    (h : ∀ x, inRegions s.params x = true → (x < 8 * (capEp k).val ∨ 8 * (capEp k).val + 4 ≤ x) →
      x < a ∨ a + l.length ≤ x) : OwnerFrame k s (Machine.putBytes a l s) := by
  refine of_memory (by rw [putBytes_sram_only])
    (fun x hx ho => storedByte_putBytes_outside l a s x (h x hx (by omega))) (.inl ?_)
  have h3 := (capEp k).isLt
  apply storedWord_congr
  intro x h1 h2
  simp only [rxbdAddr] at h1 h2
  refine storedByte_putBytes_outside l a s x (h x ?_ (by omega))
  simp only [inRegions, inTable, Bool.or_eq_true, decide_eq_true_eq]
  exact .inl (.inl (by omega))

/-- A TX descriptor of the own entry. -/
theorem putTx {s : State} (l : List Byte) (hl : l.length = 4) :
    OwnerFrame k s (Machine.putBytes (txbdAddr (capEp k)) l s) := by
  apply putBytes
  intro x _ ho
  simp only [txbdAddr]
  omega

/-- An RX descriptor as `BdSetRx` stores it (R162). -/
theorem putRx {s : State} {size : Nat} {c : Bool × BitVec 5} (hc : rxCode size = some c) (off : Half) :
    OwnerFrame k s (Machine.putBytes (rxbdAddr (capEp k)) (leBytes 4 (rxbdWord c.1 c.2 0#10 off).toNat) s) := by
  refine of_memory (by rw [putBytes_sram_only]) (fun x _ ho => storedByte_putBytes_outside _ _ s x ?_)
    (.inr ⟨off, size, c, hc, storedWord_putBytes _ _ _⟩)
  simp only [rxbdAddr, leBytes_length]
  omega

/-- A value of the own register. -/
theorem chepr {s : State} {v : Half} (h : RegisterKept s.chepr[capEp k] v) :
    OwnerFrame k s { s with chepr := s.chepr.set (capEp k) v } where
  state := rfl
  endpointZero := by
    have h : (capEp k).val ≠ 0 := fun h => capEp_ne_zero k (Fin.ext h)
    simp [h]
  memory := fun _ _ => rfl
  registers := by
    intro n
    by_cases hn : (capEp k).val = n.val
    · have e : capEp k = n := Fin.ext hn
      subst e
      simpa using h
    · simpa [hn] using RegisterKept.refl s.chepr[n]
  others := by
    intro j hj
    have h4 : (capEp k).val ≠ (capEp j).val := fun h => hj (Fin.succ_injective _ (Fin.ext h.symm))
    simp [h4]
  entries := fun _ _ _ _ _ => rfl
  receive := .inl rfl

theorem drawOutside (s : State) : OwnerFrame k s (Machine.drawOutside s) := by
  refine of_memory rfl (fun x hx _ => storedByte_drawOutside s hx) (.inl (storedWord_congr fun x h1 h2 => ?_))
  have h3 := (capEp k).isLt
  simp only [rxbdAddr] at h1 h2
  refine storedByte_drawOutside s ?_
  simp only [inRegions, inTable, Bool.or_eq_true, decide_eq_true_eq]
  exact .inl (.inl (by omega))

/-- A sequence of steps each of which keeps the contract keeps it. -/
theorem foldl {α : Type} (f : State → α → State) (hf : ∀ s x, Quiet s → OwnerFrame k s (f s x)) (l : List α) :
    ∀ {s : State}, Quiet s → OwnerFrame k s (l.foldl f s) := by
  induction l with
  | nil => intro s _; exact refl s
  | cons x l ih =>
    intro s h
    have h1 := hf s x h
    exact h1.trans (ih (h1.toCapabilityFrame.quiet h))

end OwnerFrame

/-- A fixed operation of a capability keeps the contract (R322 (d)). -/
theorem capOp_owner {s : State} (h : Quiet s) (k : Cap) (op : CapOp) : OwnerFrame k s (capOp k op s) := by
  cases op with
  | update req => simp only [capOp]; rw [epUpdate_quiet h]; exact .chepr (.updated _ _)
  | setTx off count => simp only [capOp]; rw [bdSetTx_quiet h]; exact .putTx _ (leBytes_length _ _)
  | setRx off size =>
    simp only [capOp, bdSetRx]
    cases hc : rxCode size with
    | none => exact .refl s
    | some c => simp only [Option.map_some, Option.getD_some]; rw [memWrite_quiet h]; exact .putRx hc off
  | store a bytes =>
    simp only [capOp]
    split
    · rename_i hl
      rw [memWriteBytes_quiet _ _ h]
      apply OwnerFrame.putBytes
      intro x hx _
      by_contra hc
      simp only [storeLegal, Bool.and_eq_true, decide_eq_true_eq, List.all_eq_true, List.mem_range] at hl
      have h1 := hl.2 (x - a) (by omega)
      have h2 : a + (x - a) = x := by omega
      rw [h2, hx] at h1
      cases h1
    · exact .refl s

/-- A draw of the descriptors of an entry is what `BdSetTx` and `BdSetRx` can store. -/
theorem drawEntry_owner (k : Cap) (s : State) : OwnerFrame k s (drawEntry k s) := by
  simp only [drawEntry]
  refine (OwnerFrame.putTx ((List.range 4).map fun i => Config.freeDesc s.eraExt (txbdAddr (capEp k) + i)) (by simp)).trans ?_
  split
  · rename_i c hc; exact .putRx hc _
  · exact .refl _

theorem drawCap_owner (k : Cap) (clrRx clrTx : Bool) (s : State) : OwnerFrame k s (drawCap k clrRx clrTx s) :=
  (OwnerFrame.drawOutside s).trans ((drawEntry_owner k _).trans (.chepr (.afterCapability _ _ _ _)))

/-- What a capability does freely keeps the contract (R322 (d)). -/
theorem freeCap_owner {s : State} (h : Quiet s) (k : Cap) (clrRx clrTx : Bool) :
    OwnerFrame k s (freeCap k clrRx clrTx s) := by
  have h1 := drawCap_owner k clrRx clrTx s
  rw [freeCap, window_quiet (h1.toCapabilityFrame.quiet h)]
  exact h1.trans (drawCap_owner k _ _ _)

theorem freeCap_frame {s : State} (h : Quiet s) (k : Cap) (clrRx clrTx : Bool) :
    CapabilityFrame s (freeCap k clrRx clrTx s) := (freeCap_owner h k clrRx clrTx).toCapabilityFrame

theorem capOp_frame {s : State} (h : Quiet s) (k : Cap) (op : CapOp) : CapabilityFrame s (capOp k op s) :=
  (capOp_owner h k op).toCapabilityFrame

/-- A sequence of steps each of which keeps the contract keeps it. -/
theorem CapabilityFrame.foldl {α : Type} (f : State → α → State)
    (hf : ∀ s x, Quiet s → CapabilityFrame s (f s x)) (l : List α) :
    ∀ {s : State}, Quiet s → CapabilityFrame s (l.foldl f s) := by
  induction l with
  | nil => intro s _; exact CapabilityFrame.refl s
  | cons x l ih =>
    intro s h
    have h1 := hf s x h
    exact h1.trans (ih (h1.quiet h))

theorem freeEffect_frame {s : State} (h : Quiet s) (c : Call) : CapabilityFrame s (freeEffect c s) := by
  cases c with
  | device => exact CapabilityFrame.refl s
  | config hd => exact CapabilityFrame.refl s
  | string i => exact CapabilityFrame.refl s
  | init k => exact freeCap_frame h k _ _
  | sof k => exact freeCap_frame h k _ _
  | txHandler k => exact freeCap_frame h k _ _
  | rxHandler k => exact freeCap_frame h k _ _
  | wanted k hd => exact freeCap_frame h k _ _
  | handler k hd => exact freeCap_frame h k _ _
  | txDone t hd => exact CapabilityFrame.foldl (fun t k => freeCap k false false t) (fun s k _ => freeCap_frame (by assumption) k _ _) allCaps h
  | rxDone t => exact CapabilityFrame.foldl (fun t k => freeCap k false false t) (fun s k _ => freeCap_frame (by assumption) k _ _) allCaps h

theorem effectOf_frame {s : State} (h : Quiet s) (c : Call) : CapabilityFrame s (effectOf c s) := by
  simp only [effectOf]
  split
  · split
    · split
      · exact CapabilityFrame.foldl _ (fun s o hq => capOp_frame hq _ o) _ h
      · exact freeEffect_frame h c
    · exact freeEffect_frame h c
  · exact CapabilityFrame.refl s

/-- A call when no move of the link agent lands before it (R60). -/
theorem perform_quiet {s : State} (h : Quiet s) (c : Call) : perform c s = effectOf c { s with calls := s.calls ++ [c] } := by
  have h1 : Quiet { s with calls := s.calls ++ [c] } := h
  rw [perform, window_quiet h1]

/-- One call: the contract is kept (R322). -/
theorem perform_frame {s : State} (h : Quiet s) (c : Call) : CapabilityFrame s (perform c s) := by
  rw [perform_quiet h]
  exact (capabilityFrame_calls s _).trans (effectOf_frame (s := { s with calls := s.calls ++ [c] }) h c)

theorem window_calls_quiet {s : State} (h : Quiet s) : (window s).calls = s.calls := by rw [window_quiet h]

theorem capOp_calls {s : State} (h : Quiet s) (k : Cap) (op : CapOp) : (capOp k op s).calls = s.calls := by
  have hp : ∀ a l, (putBytes a l s).calls = s.calls := fun a l => by rw [putBytes_sram_only]
  cases op with
  | update req => simp only [capOp]; rw [epUpdate_quiet h]
  | setTx off count => simp only [capOp]; rw [bdSetTx_quiet h, hp]
  | setRx off size =>
    simp only [capOp, bdSetRx]
    cases rxCode size with
    | none => rfl
    | some c => simp only [Option.map_some, Option.getD_some]; rw [memWrite_quiet h, hp]
  | store a bytes =>
    simp only [capOp]
    split
    · rw [memWriteBytes_quiet _ _ h, hp]
    · rfl

theorem drawCap_calls (k : Cap) (clrRx clrTx : Bool) (s : State) : (drawCap k clrRx clrTx s).calls = s.calls := by
  have hp : ∀ a l u, (putBytes a l u).calls = u.calls := fun a l u => by rw [putBytes_sram_only]
  simp only [drawCap, drawEntry]
  split <;> simp only [hp] <;> rfl

theorem freeCap_calls {s : State} (h : Quiet s) (k : Cap) (clrRx clrTx : Bool) :
    (freeCap k clrRx clrTx s).calls = s.calls := by
  rw [freeCap, drawCap_calls, window_calls_quiet ((drawCap_owner k clrRx clrTx s).toCapabilityFrame.quiet h), drawCap_calls]

theorem foldl_calls {α : Type} (f : State → α → State) (hf : ∀ s x, Quiet s → CapabilityFrame s (f s x))
    (hc : ∀ s x, Quiet s → (f s x).calls = s.calls) (l : List α) :
    ∀ {s : State}, Quiet s → (l.foldl f s).calls = s.calls := by
  induction l with
  | nil => intro s _; rfl
  | cons x l ih => intro s h; rw [List.foldl_cons, ih ((hf s x h).quiet h), hc s x h]

theorem freeEffect_calls {s : State} (h : Quiet s) (c : Call) : (freeEffect c s).calls = s.calls := by
  cases c with
  | device => rfl
  | config hd => rfl
  | string i => rfl
  | init k => exact freeCap_calls h k _ _
  | sof k => exact freeCap_calls h k _ _
  | txHandler k => exact freeCap_calls h k _ _
  | rxHandler k => exact freeCap_calls h k _ _
  | wanted k hd => exact freeCap_calls h k _ _
  | handler k hd => exact freeCap_calls h k _ _
  | txDone t hd =>
    rw [freeEffect]
    exact foldl_calls (fun t k => freeCap k false false t) (fun s k _ => freeCap_frame (by assumption) k _ _)
      (fun s k _ => freeCap_calls (by assumption) k _ _) allCaps h
  | rxDone t =>
    rw [freeEffect]
    exact foldl_calls (fun t k => freeCap k false false t) (fun s k _ => freeCap_frame (by assumption) k _ _)
      (fun s k _ => freeCap_calls (by assumption) k _ _) allCaps h

theorem effectOf_calls {s : State} (h : Quiet s) (c : Call) : (effectOf c s).calls = s.calls := by
  simp only [effectOf]
  split
  · split
    · split
      · exact foldl_calls _ (fun s o hq => capOp_frame hq _ o) (fun s o hq => capOp_calls hq _ o) _ h
      · exact freeEffect_calls h c
    · exact freeEffect_calls h c
  · rfl

/-- One call is logged (R60). -/
theorem perform_calls {s : State} (h : Quiet s) (c : Call) : (perform c s).calls = s.calls ++ [c] := by
  rw [perform_quiet h]
  exact effectOf_calls (s := { s with calls := s.calls ++ [c] }) h c

/-- A call that acts for one capability leaves the others alone (R322 (d)). -/
theorem perform_owner {s : State} (h : Quiet s) {c : Call} {k : Cap} (hk : actsFor s c = some k) :
    OwnerFrame k s (perform c s) := by
  have h1 : Quiet { s with calls := s.calls ++ [c] } := h
  have h0 : OwnerFrame k s { s with calls := s.calls ++ [c] } :=
    ⟨capabilityFrame_calls s _, fun _ _ => rfl, fun _ _ _ _ _ => rfl, .inl rfl⟩
  rw [perform_quiet h]
  refine h0.trans ?_
  have hb : ∀ x, behaviour { s with calls := s.calls ++ [c] } x = behaviour s x := fun _ => rfl
  simp only [effectOf, hb]
  cases c <;> simp only [actsFor, reduceCtorEq, Option.some.injEq] at hk <;> simp only [callSite, siteMayAct, if_true]
  case txDone tok hd =>
    cases hx : behaviour s (.txDone tok) with
    | none => rw [hx] at hk; cases hk
    | some b =>
      rw [hx] at hk
      cases ho : b.ops with
      | none => simp [ho] at hk
      | some ops =>
        simp only [ho, Option.bind_some, Option.map_some, Option.some.injEq] at hk
        simp only [callOwner, hk, ho]
        exact OwnerFrame.foldl _ (fun s o hq => capOp_owner hq k o) _ h1
  case rxDone tok =>
    cases hx : behaviour s (.rxDone tok) with
    | none => rw [hx] at hk; cases hk
    | some b =>
      rw [hx] at hk
      cases ho : b.ops with
      | none => simp [ho] at hk
      | some ops =>
        simp only [ho, Option.bind_some, Option.map_some, Option.some.injEq] at hk
        simp only [callOwner, hk, ho]
        exact OwnerFrame.foldl _ (fun s o hq => capOp_owner hq k o) _ h1
  all_goals
    subst hk
    split
    · split
      · exact OwnerFrame.foldl _ (fun s o hq => capOp_owner hq _ o) _ h1
      · exact freeCap_owner h1 _ _ _
    · exact freeCap_owner h1 _ _ _

/-- The Descriptor Provider only answers (R12 (3)). -/
theorem perform_provider {s : State} (h : Quiet s) {c : Call} (hc : siteMayAct (callSite c) = false) :
    perform c s = { s with calls := s.calls ++ [c] } := by
  rw [perform_quiet h, effectOf, hc]
  rfl

/-- A call of a list of capabilities in order: the contract, and the log (R244, R257). -/
theorem foldl_perform (f : Cap → Call) (ks : List Cap) : ∀ {s : State}, Quiet s →
    CapabilityFrame s (ks.foldl (fun t k => perform (f k) t) s) ∧
      (ks.foldl (fun t k => perform (f k) t) s).calls = s.calls ++ ks.map f := by
  induction ks with
  | nil => intro s _; exact ⟨CapabilityFrame.refl s, by simp⟩
  | cons k ks ih =>
    intro s h
    have h1 := perform_frame h (f k)
    obtain ⟨h2, h3⟩ := ih (h1.quiet h)
    refine ⟨h1.trans h2, ?_⟩
    rw [List.foldl_cons, h3, perform_calls h]
    simp

theorem performAll_frame {s : State} (h : Quiet s) (f : Cap → Call) : CapabilityFrame s (performAll f s) :=
  (foldl_perform f allCaps h).1

theorem performAll_calls {s : State} (h : Quiet s) (f : Cap → Call) :
    (performAll f s).calls = s.calls ++ allCaps.map f := (foldl_perform f allCaps h).2

theorem verdictOf_congr {s t : State} (h1 : t.oracles = s.oracles) (h2 : t.tick = s.tick) (c : Call) :
    verdictOf t c = verdictOf s c := by
  simp only [verdictOf, behaviour, h1, h2]

theorem answerOf_congr {s t : State} (h1 : t.oracles = s.oracles) (h2 : t.tick = s.tick) (c : Call) :
    answerOf t c = answerOf s c := by
  simp only [answerOf, behaviour, h1, h2]

theorem verdictOf_frame {s t : State} (h : CapabilityFrame s t) (c : Call) : verdictOf t c = verdictOf s c :=
  verdictOf_congr h.oracles h.tick c

theorem answerOf_frame {s t : State} (h : CapabilityFrame s t) (c : Call) : answerOf t c = answerOf s c :=
  answerOf_congr h.oracles h.tick c

/-- The offer when a capability accepts: the earlier ones refused, it handles the request, no later one is asked
(R195, R196). -/
theorem offerRequest_accept (hd : SetupHeader) (k : Cap) (ks : List Cap) : ∀ (pre : List Cap) {s : State}, Quiet s →
    (∀ j ∈ pre, verdictOf s (.wanted j hd) = false) → verdictOf s (.wanted k hd) = true →
    CapabilityFrame s (offerRequest hd (pre ++ k :: ks) s).1 ∧
      (offerRequest hd (pre ++ k :: ks) s).1.calls =
        s.calls ++ pre.map (fun j => .wanted j hd) ++ [.wanted k hd, .handler k hd] ∧
      (offerRequest hd (pre ++ k :: ks) s).2 = answerOf s (.handler k hd) := by
  intro pre
  induction pre with
  | nil =>
    intro s h _ hk
    have h1 := perform_frame h (.wanted k hd)
    have h2 := perform_frame (h1.quiet h) (.handler k hd)
    simp only [List.nil_append, offerRequest, hk, if_true, List.map_nil, List.append_nil]
    refine ⟨h1.trans h2, ?_, answerOf_frame h1 _⟩
    rw [perform_calls (h1.quiet h), perform_calls h]
    simp
  | cons j pre ih =>
    intro s h hj hk
    have h1 := perform_frame h (.wanted j hd)
    have hfalse := hj j (by simp)
    obtain ⟨h2, h3, h4⟩ := ih (h1.quiet h)
      (fun i hi => by rw [verdictOf_frame h1]; exact hj i (by simp [hi])) (by rw [verdictOf_frame h1]; exact hk)
    simp only [List.cons_append, offerRequest, hfalse, Bool.false_eq_true, if_false]
    refine ⟨h1.trans h2, ?_, ?_⟩
    · rw [h3, perform_calls h]; simp
    · rw [h4, answerOf_frame h1]

/-- The offer when nobody accepts (R195). -/
theorem offerRequest_none (hd : SetupHeader) : ∀ (ks : List Cap) {s : State}, Quiet s →
    (∀ j ∈ ks, verdictOf s (.wanted j hd) = false) →
    CapabilityFrame s (offerRequest hd ks s).1 ∧
      (offerRequest hd ks s).1.calls = s.calls ++ ks.map (fun j => .wanted j hd) ∧
      (offerRequest hd ks s).2 = mkError := by
  intro ks
  induction ks with
  | nil => intro s _ _; exact ⟨CapabilityFrame.refl s, by simp [offerRequest], rfl⟩
  | cons j ks ih =>
    intro s h hj
    have h1 := perform_frame h (.wanted j hd)
    have hfalse := hj j (by simp)
    obtain ⟨h2, h3, h4⟩ := ih (h1.quiet h) (fun i hi => by rw [verdictOf_frame h1]; exact hj i (by simp [hi]))
    simp only [offerRequest, hfalse, Bool.false_eq_true, if_false]
    refine ⟨h1.trans h2, ?_, h4⟩
    rw [h3, perform_calls h]; simp

/-- The RX block-size code accepts exactly the sizes of R106. -/
theorem rxCode_isSome (size : Nat) : (rxCode size).isSome = true ↔
    (size % 2 = 0 ∧ 2 ≤ size ∧ size ≤ 62) ∨ (size % 32 = 0 ∧ 64 ≤ size ∧ size ≤ 1024) ∨ size = 1023 := by
  unfold rxCode
  split
  · simp_all
  · split
    · simp_all
    · split
      · simp_all
      · simp_all

/-- An operation is refused exactly if it is not legal (R163, R322 (d)). -/
theorem capOpFault_none (p : Params) (op : CapOp) : capOpFault p op = none ↔ OpLegal p op := by
  cases op with
  | update _ => simp [capOpFault, OpLegal]
  | setTx _ _ => simp [capOpFault, OpLegal]
  | setRx off size =>
    simp only [capOpFault, OpLegal]
    rw [← rxCode_isSome]
    cases (rxCode size).isSome <;> simp
  | store a bytes =>
    have h : storeLegal p a bytes = true ↔ OpLegal p (.store a bytes) := by simp [storeLegal, OpLegal]
    rw [← h]
    simp only [capOpFault]
    cases storeLegal p a bytes <;> simp

theorem any_clearsTx (ops : List CapOp) :
    ops.any clearsTx = true ↔ ∃ req, CapOp.update req ∈ ops ∧ req.clrTx = true := by
  rw [List.any_eq_true]
  constructor
  · rintro ⟨op, h1, h2⟩
    cases op with
    | update req => exact ⟨req, h1, h2⟩
    | setTx _ _ => cases h2
    | setRx _ _ => cases h2
    | store _ _ => cases h2
  · rintro ⟨req, h1, h2⟩
    exact ⟨_, h1, h2⟩

theorem any_clearsRx (ops : List CapOp) :
    ops.any clearsRx = true ↔ ∃ req, CapOp.update req ∈ ops ∧ req.clrRx = true := by
  rw [List.any_eq_true]
  constructor
  · rintro ⟨op, h1, h2⟩
    cases op with
    | update req => exact ⟨req, h1, h2⟩
    | setTx _ _ => cases h2
    | setRx _ _ => cases h2
    | store _ _ => cases h2
  · rintro ⟨req, h1, h2⟩
    exact ⟨_, h1, h2⟩

theorem clearsServed_iff (x : Site) (ops : List CapOp) : clearsServed ops x = true ↔ ClearsServed x ops := by
  cases x <;> simp [clearsServed, ClearsServed, ← any_clearsTx, ← any_clearsRx]

/-- The operations in force for a function clear its flag (R322 (e)). -/
theorem OracleInv.clears {s : State} (h : OracleInv s) {x : Site} {b : Behaviour} {ops : List CapOp}
    (hb : behaviour s x = some b) (ho : b.ops = some ops) : clearsServed ops x = true := by
  unfold behaviour at hb
  cases hf : s.oracles.find? (fun o => decide (o.site = x)) with
  | none => rw [hf] at hb; cases hb
  | some o =>
    rw [hf] at hb
    have hx : o.site = x := by simpa using List.find?_some hf
    have hok := h o (List.mem_of_find?_eq_some hf)
    have hbe : o.behaviour = b := by simpa using hb
    unfold oracleFault at hok
    split at hok
    · cases hok
    · rw [hbe, ho, hx] at hok
      simp only [Option.bind_some, opsFault] at hok
      split at hok
      · cases hok
      · split at hok
        · cases hok
        · split at hok
          · assumption
          · cases hok

/-- What a completion handler does: its free effect, or the operations of the line in force. -/
theorem perform_handler {s : State} (h : Quiet s) (k : Cap) (rx : Bool) :
    let c : Call := if rx then .rxHandler k else .txHandler k
    perform c s = freeCap k rx (!rx) { s with calls := s.calls ++ [c] } ∨
      ∃ b ops, behaviour s (callSite c) = some b ∧ b.ops = some ops ∧
        perform c s = ops.foldl (fun t o => capOp k o t) { s with calls := s.calls ++ [c] } := by
  have hb : ∀ c x, behaviour { s with calls := s.calls ++ [c] } x = behaviour s x := fun _ _ => rfl
  cases rx
  all_goals
    dsimp only
    rw [perform_quiet h]
    simp only [effectOf, hb, if_true, callSite, siteMayAct, Bool.false_eq_true, if_false]
    split
    · rename_i b hx
      cases ho : b.ops with
      | none => exact .inl rfl
      | some ops => exact .inr ⟨b, ops, hx, ho, rfl⟩
    · exact .inl rfl

/-- A flag that one operation clears stays clear (R152). -/
theorem foldl_capOp_clears (k : Cap) (ops : List CapOp) : ∀ {s : State}, Quiet s →
    (ops.any clearsTx = true → Chepr.vttx (ops.foldl (fun t o => capOp k o t) s).chepr[capEp k] = false) ∧
    (ops.any clearsRx = true → Chepr.vtrx (ops.foldl (fun t o => capOp k o t) s).chepr[capEp k] = false) := by
  induction ops with
  | nil => intro s _; exact ⟨fun h => (by cases h), fun h => (by cases h)⟩
  | cons o ops ih =>
    intro s h
    have f := (CapabilityFrame.foldl (fun t o => capOp k o t) (fun s o hq => capOp_frame hq k o) ops
      ((capOp_frame h k o).quiet h)).registers (capEp k)
    obtain ⟨i1, i2⟩ := ih ((capOp_frame h k o).quiet h)
    have e : ∀ req, capOp k (.update req) s = { s with
        chepr := s.chepr.set (capEp k) (Chepr.updated s.chepr[capEp k] req) } := epUpdate_quiet h (capEp k)
    rw [List.foldl_cons]
    constructor
    · intro ha
      by_cases hc : ops.any clearsTx = true
      · exact i1 hc
      · have ho : clearsTx o = true := by rw [List.any_cons] at ha; simpa [hc] using ha
        cases o with
        | update req =>
          have h0 : Chepr.vttx (capOp k (.update req) s).chepr[capEp k] = false := by
            simp only [clearsTx] at ho
            simp [e, Chepr.updated, ho]
          exact Bool.eq_false_iff.2 fun hx => by cases h0.symm.trans (f.vttx hx)
        | setTx _ _ => cases ho
        | setRx _ _ => cases ho
        | store _ _ => cases ho
    · intro ha
      by_cases hc : ops.any clearsRx = true
      · exact i2 hc
      · have ho : clearsRx o = true := by rw [List.any_cons] at ha; simpa [hc] using ha
        cases o with
        | update req =>
          have h0 : Chepr.vtrx (capOp k (.update req) s).chepr[capEp k] = false := by
            simp only [clearsRx] at ho
            simp [e, Chepr.updated, ho]
          exact Bool.eq_false_iff.2 fun hx => by cases h0.symm.trans (f.vtrx hx)
        | setTx _ _ => cases ho
        | setRx _ _ => cases ho
        | store _ _ => cases ho

end Sys2Proof.Machine
end

