-- ==== Sys2Proof/Laws/Init.lean ====
section
/-! SUPPORT. What `ControlInit` leaves (R256), when no move of the link agent lands inside. -/

namespace Sys2Proof.Machine

/-- `ControlInit`: ControlState, endpoint 0's register and its two descriptors; nothing else (R256). -/
theorem controlInit_spec {s : State} (h : Quiet s) :
    controlInit s = { s with cs := ControlState.cleared, chepr := (controlInit s).chepr, sram := (controlInit s).sram } ∧
      (controlInit s).chepr = s.chepr.set 0 (Chepr.pack false false stValid (Chepr.setup s.chepr[(0 : Fin 8)]) 1#2
        (Chepr.epkind s.chepr[(0 : Fin 8)]) false false stNak 0#4) ∧
      storedWord (controlInit s) (txbdAddr 0) = BitVec.ofNat 32 s.params.ep0TxOff ∧
      storedWord (controlInit s) (rxbdAddr 0) = 0x84000000#32 ||| BitVec.ofNat 32 s.params.ep0RxOff ∧
      ∀ a, 8 ≤ a → storedByte (controlInit s) a = storedByte s a := by
  have h0 : Quiet { s with cs := ControlState.cleared } := h
  obtain ⟨a1, a2, a3⟩ := bdSetTx_spec h0 0 (txOffset s) 0#16
  simp only [controlInit]
  generalize bdSetTx 0 (txOffset s) 0#16 { s with cs := ControlState.cleared } = u at a1 a2 a3
  have hu : Quiet u := by rw [a1]; exact h
  obtain ⟨b1, b2, b3⟩ := armRx_spec hu
  generalize armRx u = v at b1 b2 b3
  have hv : Quiet v := by rw [b1]; exact hu
  rw [epUpdate_quiet hv]
  refine ⟨by rw [b1, a1], ?_, ?_, ?_, ?_⟩
  · rw [b1, a1]
    simp [Chepr.updated, controlInitReq]
  · rw [← txbdWord_zero s, ← a2]
    apply storedWord_congr
    intro x hx1 hx2
    have e := b3 x (by simp only [txbdAddr, rxbdAddr] at *; simp at *; omega)
    exact e
  · have e : u.params = s.params := by rw [a1]
    rw [← e, ← b2]
    rfl
  · intro a ha
    have e1 := b3 a (by simp only [rxbdAddr]; simp; omega)
    have e2 := a3 a (by simp only [txbdAddr]; simp; omega)
    exact e1.trans e2

end Sys2Proof.Machine
end

