-- ==== Sys2Proof/Laws/Completion.lean ====
section
/-! SUPPORT. What the completions of endpoint 0 leave (R221, R224, R225, R226), when no move of the link agent lands
inside. -/

namespace Sys2Proof.Machine

/-- The value DADDR takes (R107). -/
theorem daddrOf_eq (a : BitVec 7) : (0#24 ++ daddrOf a : Word).extractLsb' 0 8 = 0x80#8 ||| a.setWidth 8 := by
  apply BitVec.eq_of_getLsbD_eq
  intro i hi
  simp only [daddrOf, BitVec.getLsbD_extractLsb', BitVec.getLsbD_append, BitVec.getLsbD_or, BitVec.getLsbD_setWidth]
  interval_cases i <;> simp

theorem invokePostAck_quiet {s : State} (h : Quiet s) : TokenInvoked s (invokePostAck s) := by
  unfold TokenInvoked invokePostAck
  cases hs : s.cs.setup with
  | none => rfl
  | some hd =>
    cases hp : s.cs.postAckCb with
    | none => rfl
    | applyAddress =>
      simp only [invokeTxDone]
      cases ha : s.cs.pendingAddr with
      | none => rfl
      | some a => simp only [regWrite_quiet h, pokeReg, daddrOf_eq]
    | ext t => exact ⟨perform_frame h _, perform_calls h _⟩

/-- Invoking a token writes nothing of endpoint 0 (R322). -/
theorem TokenInvoked.frame {s u : State} (h : TokenInvoked s u) (hq : Quiet s) :
    Quiet u ∧ u.chepr[(0 : Fin 8)] = s.chepr[(0 : Fin 8)] := by
  unfold TokenInvoked at h
  split at h
  · subst h; exact ⟨hq, rfl⟩
  · subst h; exact ⟨hq, rfl⟩
  · split at h
    · subst h; exact ⟨hq, rfl⟩
    · subst h; exact ⟨hq, rfl⟩
  · exact ⟨h.1.quiet hq, h.1.endpointZero⟩

theorem endTransfer_quiet {s : State} (h : Quiet s) : endTransfer s = { s with
    cs := { s.cs with postAckCb := .none, setup := none }
    chepr := s.chepr.set 0 (Chepr.updated s.chepr[(0 : Fin 8)]
      { statrx := some stValid, dtogrx := some false, clrTx := true }) } := by
  have h1 : Quiet { s with cs := { s.cs with postAckCb := .none, setup := none } } := h
  exact epUpdate_quiet h1 0 _

theorem discardOut_quiet {s : State} (h : Quiet s) : discardOut s = { s with
    cs := { s.cs with txTail := none, txTailCb := .none }
    chepr := s.chepr.set 0 (Chepr.updated s.chepr[(0 : Fin 8)]
      { statrx := some stValid, stattx := some stNak, clrRx := true }) } := by
  have h1 : Quiet { s with cs := { s.cs with txTail := none, txTailCb := .none } } := h
  exact epUpdate_quiet h1 0 _

theorem finishOut_accepted {s : State} (h : Quiet s) : OutAccepted s (setPos .reread (finishOut none s)) := by
  have h1 : Quiet { s with cs := { s.cs with rxCb := .none, setup := none } } := h
  have et : txOffset { s with cs := { s.cs with rxCb := .none, setup := none } } = txOffset s := rfl
  obtain ⟨a1, a2, a3⟩ := bdSetTx_spec h1 0 (txOffset s) 0#16
  simp only [finishOut]
  rw [et]
  generalize bdSetTx 0 (txOffset s) 0#16 { s with cs := { s.cs with rxCb := .none, setup := none } } = u at a1 a2 a3
  have hu : Quiet u := by rw [a1]; exact h
  rw [epUpdate_quiet hu]
  refine ⟨?_, ?_, a3⟩
  · rw [a1]; simp [setPos, Chepr.updated]
  · rw [← txbdWord_zero, ← a2]; rfl

theorem finishOut_rejected {s : State} (h : Quiet s) (e : ErrorClass) :
    OutRejected e s (setPos .reread (finishOut (some e) s)) := by
  have h1 : Quiet (raise e { s with cs := { s.cs with rxCb := .none, setup := none } }) := h
  simp only [finishOut]
  rw [epUpdate_quiet h1]
  simp [setPos, Chepr.updated, raise]

end Sys2Proof.Machine
end

