-- ==== Sys2Proof/Laws/Decode.lean ====
section
/-! SUPPORT. The encodings: the fields of an ISTR value, and decoding an event word reduces to the case analysis of its
format (R100 to R102, R110, R131). -/

namespace Sys2Proof

/-- The fields of the ISTR layout (R40, R102). -/
theorem istrWord_fields (sof reset ctr : Bool) (code : BitVec 5) :
    (istrWord sof reset ctr code).getLsbD 9 = sof ∧ (istrWord sof reset ctr code).getLsbD 10 = reset ∧
    (istrWord sof reset ctr code).getLsbD 15 = ctr ∧ (istrWord sof reset ctr code).extractLsb' 0 5 = code := by
  refine ⟨?_, ?_, ?_, ?_⟩
  · simp only [istrWord, BitVec.getLsbD_append]; simp
  · simp only [istrWord, BitVec.getLsbD_append]; simp
  · simp only [istrWord, BitVec.getLsbD_append]; simp
  · apply BitVec.eq_of_getLsbD_eq
    intro k hk
    interval_cases k <;> simp only [istrWord, BitVec.getLsbD_extractLsb', BitVec.getLsbD_append] <;> simp

/-- A 16-bit value is its two bytes, the low one first (R72). -/
theorem half_of_bytes (v : Half) : v.extractLsb' 8 8 ++ v.extractLsb' 0 8 = v := by
  apply BitVec.eq_of_getLsbD_eq
  intro k hk
  interval_cases k <;> simp only [BitVec.getLsbD_extractLsb', BitVec.getLsbD_append] <;> simp

theorem decode_istrEvent (v : Half) : decode (istrEvent v) = decodeIstr v := by
  simp only [decode, istrEvent]
  rw [half_of_bytes]

theorem decode_codeEvent (c : BitVec 5) (b : Bool) : decode (codeEvent c b) = .ok (decodeCc5 c b) := by
  have h1 : (0#3 ++ c).extractLsb' 5 3 = 0#3 := by
    apply BitVec.eq_of_getLsbD_eq
    intro k hk
    interval_cases k <;> simp only [BitVec.getLsbD_extractLsb', BitVec.getLsbD_append] <;> simp
  have h2 : (0#3 ++ c).extractLsb' 0 5 = c := by
    apply BitVec.eq_of_getLsbD_eq
    intro k hk
    interval_cases k <;> simp only [BitVec.getLsbD_extractLsb', BitVec.getLsbD_append] <;> simp
  simp only [decode, codeEvent]
  rw [if_pos h1, h2]

/-- Parsing the bytes of a header gives the header back (R131). -/
theorem parseBytes_bytes (h : SetupHeader) : parseBytes h.bytes = some h := by
  simp only [SetupHeader.bytes, parseBytes, headerOf]
  rw [half_of_bytes, half_of_bytes]

theorem decode_headerEvent (h : SetupHeader) : decode (headerEvent h) = .ok (decodeHeader h) := by
  simp only [decode, headerEvent]
  rw [parseBytes_bytes]

theorem decodeIstr_word (sof reset ctr : Bool) (code : BitVec 5) :
    decodeIstr (istrWord sof reset ctr code) =
      if sof then .ok (.irqSof reset ctr code)
      else if reset then .ok (.irqReset ctr code)
      else if ctr then .ok (.irqCtr code)
      else .error .noCause := by
  obtain ⟨h1, h2, h3, h4⟩ := istrWord_fields sof reset ctr code
  simp only [decodeIstr, h1, h2, h3, h4]

theorem decodeCc5_capTx : ∀ k : Cap, decodeCc5 (0#2 ++ capBits k) false = .ctrCapTx k := by decide
theorem decodeCc5_capRx : ∀ k : Cap, decodeCc5 (2#2 ++ capBits k) false = .ctrCapRx k := by decide
theorem decodeCc5_bad : ∀ (rx : Bool) (low : BitVec 3),
    decodeCc5 (BitVec.ofBool rx ++ (1#1 ++ low)) false = .ctrUndispatchable rx low := by decide

end Sys2Proof
end

