-- ==== Sys2Proof/Laws/Istr.lean ====
section
/-! SUPPORT. The derived bits of ISTR (R41): which slots are pending, and that what is reported is one of them. -/

namespace Sys2Proof.Machine

/-- The pending slots, by the flag that makes each one pending. -/
theorem mem_pendingSlots (s : State) (c : BitVec 5) : c ∈ pendingSlots s ↔
    (∃ n : Fin 8, Chepr.vtrx s.chepr[n] = true ∧ c = BitVec.ofNat 5 (16 + n.val)) ∨
    (∃ n : Fin 8, Chepr.vttx s.chepr[n] = true ∧ c = BitVec.ofNat 5 n.val) := by
  simp only [pendingSlots, List.mem_append, List.mem_map, List.mem_filter, List.mem_finRange, true_and]
  constructor
  · rintro (⟨n, h, rfl⟩ | ⟨n, h, rfl⟩)
    · exact .inl ⟨n, h, rfl⟩
    · exact .inr ⟨n, h, rfl⟩
  · rintro (⟨n, h, rfl⟩ | ⟨n, h, rfl⟩)
    · exact .inl ⟨n, h, rfl⟩
    · exact .inr ⟨n, h, rfl⟩

theorem pickSlot_mem (pick : Option (BitVec 5)) (tick : Nat) (c : BitVec 5) (rest : List (BitVec 5)) :
    pickSlot pick tick c rest ∈ c :: rest := by
  have free : (c :: rest).getD (Config.freePick tick % (rest.length + 1)) c ∈ c :: rest := by
    have h : Config.freePick tick % (rest.length + 1) < (c :: rest).length := by
      rw [List.length_cons]
      exact Nat.mod_lt _ (Nat.succ_pos _)
    rw [List.getD_eq_getElem _ _ h]
    exact List.getElem_mem h
  unfold pickSlot
  split
  · split
    · assumption
    · exact free
  · exact free

/-- What ISTR reports when no code is forced: nothing if nothing is pending, else a pending slot (R41). -/
theorem reportedCode_cases {s : State} (h : s.badCode = none) :
    (reportedCode s = none ∧ pendingSlots s = []) ∨ ∃ c, reportedCode s = some c ∧ c ∈ pendingSlots s := by
  simp only [reportedCode, h]
  cases hp : pendingSlots s with
  | nil => exact .inl ⟨rfl, rfl⟩
  | cons c rest =>
    cases rest with
    | nil => exact .inr ⟨c, rfl, List.mem_cons_self⟩
    | cons d rest => exact .inr ⟨_, rfl, pickSlot_mem _ _ _ _⟩

theorem istrValue_ctr (s : State) : (istrValue s).getLsbD 15 = (reportedCode s).isSome :=
  (istrWord_fields _ _ _ _).2.2.1

theorem istrValue_code (s : State) : (istrValue s).extractLsb' 0 5 = (reportedCode s).getD 0#5 :=
  (istrWord_fields _ _ _ _).2.2.2

theorem istrValue_sof (s : State) : (istrValue s).getLsbD 9 = s.istrSof := (istrWord_fields _ _ _ _).1

theorem istrValue_reset (s : State) : (istrValue s).getLsbD 10 = s.istrReset := (istrWord_fields _ _ _ _).2.1

/-- The code of a pending slot names an endpoint (R101): bit 3 is 0. -/
theorem pendingSlots_bit3 {s : State} {c : BitVec 5} (h : c ∈ pendingSlots s) : c.getLsbD 3 = false := by
  have rx : ∀ n : Fin 8, (BitVec.ofNat 5 (16 + n.val)).getLsbD 3 = false := by decide
  have tx : ∀ n : Fin 8, (BitVec.ofNat 5 n.val).getLsbD 3 = false := by decide
  rcases (mem_pendingSlots s c).1 h with ⟨n, _, rfl⟩ | ⟨n, _, rfl⟩
  · exact rx n
  · exact tx n

end Sys2Proof.Machine
end

