-- ==== Sys2Proof/Laws/Request.lean ====
section
/-! SUPPORT. What every request has in common (R185): it applies one result to one header, after collaborator calls that
leave endpoint 0 alone. -/

namespace Sys2Proof.Machine

/-- The offer keeps the contract, and its result is `ERROR` or a capability's answer (R195, R196). -/
theorem offerRequest_spec (hd : SetupHeader) : ∀ (ks : List Cap) {s : State}, Quiet s →
    CapabilityFrame s (offerRequest hd ks s).1 ∧
      ((offerRequest hd ks s).2 = mkError ∨ ∃ c, (offerRequest hd ks s).2 = answerOf s c) := by
  intro ks
  induction ks with
  | nil => intro s _; exact ⟨CapabilityFrame.refl s, .inl rfl⟩
  | cons k ks ih =>
    intro s h
    have h1 := perform_frame h (.wanted k hd)
    simp only [offerRequest]
    split
    · exact ⟨h1.trans (perform_frame (h1.quiet h) (.handler k hd)), .inr ⟨_, answerOf_frame h1 _⟩⟩
    · obtain ⟨h2, h3⟩ := ih (h1.quiet h)
      refine ⟨h1.trans h2, h3.imp id ?_⟩
      rintro ⟨c, hc⟩
      exact ⟨c, hc.trans (answerOf_frame h1 c)⟩

/-- What one request applies: the result `res`, in a state that differs from `s` by calls and by at most one field of
ControlState. -/
def RequestShape (s : State) (hd : SetupHeader) (o : Host.Outcome State Fault Refusal) : Prop :=
  ∃ res c u, o = .next (finishRequest res hd u) ∧ CapabilityFrame { s with cs := c } u ∧
    (c = s.cs ∧ (res = mkError ∨ res = ack ∨ res = .tx [0x00#8, 0x00#8] .none ∨ ∃ k, res = answerOf s k) ∨
      (∃ a, c = { s.cs with pendingAddr := some a } ∧ res = .tx [] .applyAddress) ∨
      c = { s.cs with configured := true } ∧ res = ack)

theorem RequestShape.same {s u : State} (hd : SetupHeader) {res : SetupResult} (f : CapabilityFrame s u)
    (hr : res = mkError ∨ res = ack ∨ res = .tx [0x00#8, 0x00#8] .none ∨ ∃ k, res = answerOf s k) :
    RequestShape s hd (.next (finishRequest res hd u)) := ⟨res, s.cs, u, rfl, f, .inl ⟨rfl, hr⟩⟩

/-- One request (R185). -/
theorem exec_request {i : Instr} {hd : SetupHeader} {s : State} (hi : i.header? = some hd) (h : Quiet s) :
    RequestShape s hd (exec i s) := by
  cases i <;> simp only [Instr.header?, Option.some.injEq, reduceCtorEq] at hi <;> subst hi
  · exact .same _ (CapabilityFrame.refl s) (.inr (.inr (.inl rfl)))
  · rename_i vlo vhi idx len
    exact ⟨_, _, _, rfl, CapabilityFrame.refl _, .inr (.inl ⟨addressOperand vlo, rfl, rfl⟩)⟩
  · exact .same _ (perform_frame h .device) (.inr (.inr (.inr ⟨_, rfl⟩)))
  · rename_i vlo idx len
    exact .same _ (perform_frame h (.config ⟨0x80#8, 0x06#8, vlo, 2#8, idx, len⟩)) (.inr (.inr (.inr ⟨_, rfl⟩)))
  · rename_i vlo idx len
    exact .same _ (perform_frame h (.string vlo)) (.inr (.inr (.inr ⟨_, rfl⟩)))
  · exact .same _ (CapabilityFrame.refl s) (.inl rfl)
  · exact .same _ (CapabilityFrame.refl s) (.inr (.inl rfl))
  · rename_i vhi idx len
    have f := performAll_frame h .init
    refine ⟨ack, { s.cs with configured := true },
      { performAll .init s with cs := { (performAll .init s).cs with configured := true } }, rfl, ?_, .inr (.inr ⟨rfl, rfl⟩)⟩
    generalize performAll .init s = u at f
    exact ⟨by rw [f.state], f.endpointZero, f.memory, f.registers⟩
  · exact .same _ (CapabilityFrame.refl s) (.inl rfl)
  · exact .same _ (CapabilityFrame.refl s) (.inr (.inl rfl))
  · rename_i rt rq vlo vhi idx len
    obtain ⟨f, hr⟩ := offerRequest_spec ⟨rt, rq, vlo, vhi, idx, len⟩ allCaps h
    exact .same _ f (hr.imp id fun h => .inr (.inr h))

end Sys2Proof.Machine
end

