-- ==== Sys2Proof/Laws/Falls.lean ====
section
/-! SUPPORT. What the events do to the complete flags when no move of the link agent lands inside (R152, R254): none is ever
set, and the flag an event serves falls. -/

namespace Sys2Proof.Machine

/-- Between two states no complete flag is set, and what decides the course of an invocation is kept. -/
structure Falls (s t : State) : Prop where
  rx : ∀ n : Fin 8, Chepr.vtrx t.chepr[n] = true → Chepr.vtrx s.chepr[n] = true
  tx : ∀ n : Fin 8, Chepr.vttx t.chepr[n] = true → Chepr.vttx s.chepr[n] = true
  params : t.params = s.params
  windows : t.windows = s.windows
  oracles : t.oracles = s.oracles
  badCode : t.badCode = s.badCode
  script : t.script = s.script

namespace Falls

theorem refl (s : State) : Falls s s := ⟨fun _ => id, fun _ => id, rfl, rfl, rfl, rfl, rfl⟩

theorem trans {s t u : State} (h1 : Falls s t) (h2 : Falls t u) : Falls s u :=
  ⟨fun n => h1.rx n ∘ h2.rx n, fun n => h1.tx n ∘ h2.tx n, h2.params.trans h1.params, h2.windows.trans h1.windows,
    h2.oracles.trans h1.oracles, h2.badCode.trans h1.badCode, h2.script.trans h1.script⟩

theorem quiet {s t : State} (h : Falls s t) (hq : Quiet s) : Quiet t := hq.congr h.params h.windows

theorem oracleInv {s t : State} (h : Falls s t) (ho : OracleInv s) : OracleInv t := by
  unfold OracleInv
  rw [h.oracles, h.params]
  exact ho

/-- The registers are the same. -/
theorem of_same {s t : State} (hc : t.chepr = s.chepr) (h1 : t.params = s.params) (h2 : t.windows = s.windows)
    (h3 : t.oracles = s.oracles) (h4 : t.badCode = s.badCode) (h5 : t.script = s.script) : Falls s t :=
  ⟨by rw [hc]; exact fun _ => id, by rw [hc]; exact fun _ => id, h1, h2, h3, h4, h5⟩

theorem of_capability {s t : State} (f : CapabilityFrame s t) : Falls s t :=
  ⟨fun n => (f.registers n).vtrx, fun n => (f.registers n).vttx, f.params, f.windows, f.oracles, by rw [f.state],
    by rw [f.state]⟩

/-- A register of endpoint 0 whose flags fell. -/
theorem of_register {s : State} (v : Half) (hr : Chepr.vtrx v = true → Chepr.vtrx s.chepr[(0 : Fin 8)] = true)
    (ht : Chepr.vttx v = true → Chepr.vttx s.chepr[(0 : Fin 8)] = true) :
    Falls s { s with chepr := s.chepr.set 0 v } := by
  refine ⟨fun n h => ?_, fun n h => ?_, rfl, rfl, rfl, rfl, rfl⟩
  · by_cases hn : (0 : Fin 8) = n
    · subst hn; exact hr (by simpa using h)
    · have h0 : (0 : Nat) ≠ n.val := fun h => hn (Fin.ext h)
      simpa [h0] using h
  · by_cases hn : (0 : Fin 8) = n
    · subst hn; exact ht (by simpa using h)
    · have h0 : (0 : Nat) ≠ n.val := fun h => hn (Fin.ext h)
      simpa [h0] using h

/-- No new slot is pending. -/
theorem pendingSlots {s t : State} (f : Falls s t) : Machine.pendingSlots t ⊆ Machine.pendingSlots s := by
  intro c hc
  rw [mem_pendingSlots] at *
  rcases hc with ⟨n, h, e⟩ | ⟨n, h, e⟩
  · exact .inl ⟨n, f.rx n h, e⟩
  · exact .inr ⟨n, f.tx n h, e⟩

end Falls

/-- An `EpUpdate` of endpoint 0: no flag is set, and those it is to clear are clear (R155). -/
theorem epUpdate_falls {s t : State} (hq : Quiet s) (f : Falls s t) (req : EpReq) :
    Falls s (epUpdate 0 req t) ∧
      (req.clrRx = true → Chepr.vtrx (epUpdate 0 req t).chepr[(0 : Fin 8)] = false) ∧
      (req.clrTx = true → Chepr.vttx (epUpdate 0 req t).chepr[(0 : Fin 8)] = false) := by
  rw [epUpdate_quiet (f.quiet hq)]
  refine ⟨f.trans (.of_register _ ?_ ?_), fun h => ?_, fun h => ?_⟩
  · simp [Chepr.updated]
    exact fun h _ => h
  · simp [Chepr.updated]
    exact fun h _ => h
  · simp [Chepr.updated, h]
  · simp [Chepr.updated, h]

theorem bdSetTx_falls {s t : State} (hq : Quiet s) (f : Falls s t) (n : Fin 8) (off count : Half) :
    Falls s (bdSetTx n off count t) := by
  rw [bdSetTx_quiet (f.quiet hq), putBytes_sram_only]
  exact f.trans (.of_same rfl rfl rfl rfl rfl rfl)

theorem armRx_falls {s t : State} (hq : Quiet s) (f : Falls s t) : Falls s (armRx t) := by
  rw [armRx_quiet (f.quiet hq), putBytes_sram_only]
  exact f.trans (.of_same rfl rfl rfl rfl rfl rfl)

theorem sendChunk_falls {s t : State} (hq : Quiet s) (f : Falls s t) (rem : List Byte) (cb : TxTok) :
    Falls s (sendChunk rem cb t) := by
  rw [sendChunk_state (f.quiet hq)]
  exact f.trans (.of_same rfl rfl rfl rfl rfl rfl)

/-- Every way of applying a result clears VTRX of endpoint 0 (R211, R212, R213). -/
theorem applyResult_falls {s : State} (hq : Quiet s) (res : SetupResult) (hd : SetupHeader) :
    Falls s (applyResult res hd s) ∧ Chepr.vtrx (applyResult res hd s).chepr[(0 : Fin 8)] = false := by
  cases res with
  | tx data cb =>
    have h0 : Falls s { s with cs := { s.cs with short := decide (data.length < hd.length.toNat) } } :=
      .of_same rfl rfl rfl rfl rfl rfl
    have h1 := epUpdate_falls hq (sendChunk_falls hq h0 (data.take (min data.length hd.length.toNat)) cb)
      { stattx := some stValid, clrRx := true }
    exact ⟨h1.1, h1.2.1 rfl⟩
  | rx n cb =>
    by_cases hc : n = hd.length ∧ n ≠ 0#16
    · have e : applyResult (.rx n cb) hd s = applyRx cb s := if_pos hc
      have h0 : Falls s { armRx s with cs := { (armRx s).cs with rxCb := cb } } :=
        (armRx_falls hq (.refl s)).trans (.of_same rfl rfl rfl rfl rfl rfl)
      have h1 := epUpdate_falls hq h0 { statrx := some stValid, dtogrx := some true, clrRx := true }
      rw [e]
      exact ⟨h1.1, h1.2.1 rfl⟩
    · have e : applyResult (.rx n cb) hd s = applyError s := if_neg hc
      have h0 : Falls s (raise .unsupported s) := .of_same rfl rfl rfl rfl rfl rfl
      have h1 := epUpdate_falls hq h0 { statrx := some stStall, stattx := some stStall, clrRx := true }
      rw [e]
      exact ⟨h1.1, h1.2.1 rfl⟩

/-- A request serves the SETUP completion (R180). -/
theorem request_falls {i : Instr} {hd : SetupHeader} {s : State} (hi : i.header? = some hd) (hq : Quiet s) :
    ∃ t, exec i s = .next t ∧ Falls s t ∧ Chepr.vtrx t.chepr[(0 : Fin 8)] = false ∧ t.pos = .reread ∧
      t.any = s.any := by
  obtain ⟨res, c, u, e, f, -⟩ := exec_request hi hq
  have h0 : Falls s { s with cs := c } := .of_same rfl rfl rfl rfl rfl rfl
  have h1 := h0.trans (.of_capability f)
  obtain ⟨a, b⟩ := applyResult_falls (h1.quiet hq) res hd
  refine ⟨_, e, (h1.trans a).trans (.of_same rfl rfl rfl rfl rfl rfl), b, rfl, ?_⟩
  rw [(finishRequest_access res hd u).any]
  show u.any = s.any
  rw [f.state]

/-- `ControlTxDone` clears VTTX of endpoint 0 (R221, R223). -/
theorem controlTxDone_falls {s : State} (hq : Quiet s) :
    Falls s (controlTxDone s) ∧ Chepr.vttx (controlTxDone s).chepr[(0 : Fin 8)] = false := by
  cases ht : s.cs.txTail with
  | some rem =>
    have e : controlTxDone s = epUpdate 0 { stattx := some stValid, clrTx := true } (sendChunk rem s.cs.txTailCb s) := by
      simp only [controlTxDone, ht]
    have h1 := epUpdate_falls hq (sendChunk_falls hq (.refl s) rem s.cs.txTailCb)
      { stattx := some stValid, clrTx := true }
    rw [e]
    exact ⟨h1.1, h1.2.2 rfl⟩
  | none =>
    have e : controlTxDone s = endTransfer (invokePostAck s) := by simp only [controlTxDone, ht]
    have h0 : Falls s (invokePostAck s) := by
      have hi := invokePostAck_quiet hq
      generalize invokePostAck s = u at hi
      unfold TokenInvoked at hi
      split at hi
      · subst hi; exact .refl _
      · subst hi; exact .refl _
      · split at hi
        · subst hi; exact .of_same rfl rfl rfl rfl rfl rfl
        · subst hi; exact .refl _
      · exact .of_capability hi.1
    have h1 := epUpdate_falls hq (h0.trans (.of_same (t := { invokePostAck s with cs := { (invokePostAck s).cs with
      postAckCb := .none, setup := none } }) rfl rfl rfl rfl rfl rfl))
      { statrx := some stValid, dtogrx := some false, clrTx := true }
    rw [e]
    exact ⟨h1.1, h1.2.2 rfl⟩

/-- `HandleOut` discards the packet, or judges it after what was called left ControlState alone (R224, R225). -/
theorem handleOut_cases {s : State} (hq : Quiet s) :
    (handleOut s = discardOut s ∧ ∀ h, s.cs.setup = some h → h.length = 0#16) ∨
      ∃ e u, CapabilityFrame s u ∧ handleOut s = finishOut e u := by
  unfold handleOut
  split
  · rename_i hs
    exact .inl ⟨rfl, fun h hh => by rw [hs] at hh; cases hh⟩
  · rename_i hs
    split
    · rename_i hz
      exact .inl ⟨rfl, fun h hh => by rw [hs] at hh; cases hh; exact hz⟩
    · right
      unfold handleOutData
      simp only [fence_eq, window_quiet hq]
      split
      · exact ⟨_, s, .refl s, rfl⟩
      · split
        · exact ⟨_, s, .refl s, rfl⟩
        · exact ⟨_, _, perform_frame hq _, rfl⟩

/-- `HandleOut` clears VTRX of endpoint 0 (R224, R225). -/
theorem handleOut_falls {s : State} (hq : Quiet s) :
    Falls s (handleOut s) ∧ Chepr.vtrx (handleOut s).chepr[(0 : Fin 8)] = false := by
  rcases handleOut_cases hq with ⟨e, -⟩ | ⟨e, u, f, h⟩
  · have h1 := epUpdate_falls hq (.of_same (s := s) (t := { s with cs := { s.cs with
      txTail := none, txTailCb := .none } }) rfl rfl rfl rfl rfl rfl)
      { statrx := some stValid, stattx := some stNak, clrRx := true }
    rw [e]
    exact ⟨h1.1, h1.2.1 rfl⟩
  · have h0 : Falls s { u with cs := { u.cs with rxCb := .none, setup := none } } :=
      (Falls.of_capability f).trans (.of_same rfl rfl rfl rfl rfl rfl)
    rw [h]
    cases e with
    | none =>
      have h1 := epUpdate_falls hq (bdSetTx_falls hq h0 0 (txOffset u) 0#16)
        { statrx := some stValid, stattx := some stValid, clrRx := true }
      exact ⟨h1.1, h1.2.1 rfl⟩
    | some c =>
      have h1 := epUpdate_falls hq (h0.trans (.of_same (t := raise c { u with cs := { u.cs with
        rxCb := .none, setup := none } }) rfl rfl rfl rfl rfl rfl))
        { statrx := some stValid, stattx := some stStall, clrRx := true }
      exact ⟨h1.1, h1.2.1 rfl⟩

/-- `HandleSetup` stalls a short packet, which clears VTRX, or leaves the latched header to be classified (R180, R184). -/
theorem handleSetup_falls {s : State} (hq : Quiet s) : Falls s (handleSetup s) ∧
    ((handleSetup s).pos = .reread ∧ Chepr.vtrx (handleSetup s).chepr[(0 : Fin 8)] = false ∨
      ∃ h, (handleSetup s).pos = .request h) := by
  have hc : Quiet (clearTransfer s) := hq
  unfold handleSetup
  simp only [fence_eq, window_quiet hc]
  split
  · have h1 := epUpdate_falls hq (.of_same (s := s) (t := raise .shortSetup { clearTransfer s with
      cs := { (clearTransfer s).cs with setup := none } }) rfl rfl rfl rfl rfl rfl)
      { statrx := some stStall, stattx := some stStall, clrRx := true }
    exact ⟨h1.1.trans (.of_same rfl rfl rfl rfl rfl rfl), .inl ⟨rfl, h1.2.1 rfl⟩⟩
  · exact ⟨.of_same rfl rfl rfl rfl rfl rfl, .inr ⟨_, rfl⟩⟩

/-- `DeviceInit` sets no complete flag (R256). -/
theorem deviceInit_falls {s : State} (hq : Quiet s) : Falls s (deviceInit s) := by
  obtain ⟨c1, c2, -⟩ := controlInit_spec hq
  unfold deviceInit
  generalize controlInit s = u at c1 c2
  have hu : Quiet u := by rw [c1]; exact hq
  have f1 : Falls s u := by
    rw [c1, c2]
    exact (Falls.of_register (s := s) _ (by simp) (by simp)).trans (.of_same rfl rfl rfl rfl rfl rfl)
  have f := f1.trans (.of_capability (performAll_frame hu .init))
  generalize performAll .init u = v at f
  have hv := f.quiet hq
  rw [regWrite_quiet hv, regWrite_quiet (s := pokeReg .cntr _ v) hv]
  exact f.trans (.of_same rfl rfl rfl rfl rfl rfl)

end Sys2Proof.Machine
end

