-- ==== Sys2Proof/Laws/Invariant.lean ====
section
/-! SUPPORT. Ways to meet the invariants of R69 (R211, R214, R182): they look only at ControlState and CHEPR[0]; a cleared
continuation meets them, and so does what `SendChunk` leaves. -/

namespace Sys2Proof.Machine

theorem TransferInv.congr {s t : State} (h : TransferInv s) (hc : t.cs = s.cs) : TransferInv t := by
  obtain ⟨a, b, c, d, e, f⟩ := h
  exact ⟨by unfold TailTokenInv; rw [hc]; exact a, by unfold OneTokenInv; rw [hc]; exact b,
    by unfold PostAckInv; rw [hc]; exact c, by unfold PredicateInv; rw [hc]; exact d,
    by unfold AddressInv; rw [hc]; exact e, by unfold TailLengthInv; rw [hc]; exact f⟩

theorem EndpointZeroInv.congr {s t : State} (h : EndpointZeroInv s) (hc : t.cs = s.cs)
    (hr : t.chepr[(0 : Fin 8)] = s.chepr[(0 : Fin 8)]) : EndpointZeroInv t := by
  obtain ⟨a, b, c, d⟩ := h
  exact ⟨by rw [hc]; exact a, by rw [hc]; exact b, by rw [hc, hr]; exact c, by rw [hc, hr]; exact d⟩

/-- No continuation, no token, no deferred address (R182). -/
theorem transferInv_cleared {s : State} (h1 : s.cs.txTail = none) (h2 : s.cs.txTailCb = .none)
    (h3 : s.cs.postAckCb = .none) (h4 : s.cs.pendingAddr = none) (h5 : PredicateInv s) :
    TransferInv s ∧ EndpointZeroInv s := by
  have hn : ¬(s.cs.txTail ≠ none ∨ s.cs.postAckCb ≠ .none) := fun h => h.elim (absurd h1) (absurd h3)
  exact ⟨⟨fun _ => h2, .inl h2, fun h => absurd h3 h, h5, fun h => absurd h4 h, fun r h => by rw [h1] at h; cases h⟩,
    ⟨fun _ => h3, fun h => absurd h1 h, fun h => absurd h hn, fun h => absurd h hn⟩⟩

/-- After `SendChunk` (R214). -/
theorem transferInv_afterChunk {rem : List Byte} {cb : TxTok} {c : ControlState} {s : State}
    (hc : s.cs = afterChunk rem cb c) (hl : rem.length ≤ Config.maxDataLen) (hset : c.setup ≠ none) (hrx : c.rxCb = .none)
    (hp : c.pendingAddr ≠ none → cb = .applyAddress) (hst : Chepr.statrx s.chepr[(0 : Fin 8)] ≠ stValid)
    (hv : Chepr.vtrx s.chepr[(0 : Fin 8)] = true → Chepr.setup s.chepr[(0 : Fin 8)] = true) :
    TransferInv s ∧ EndpointZeroInv s := by
  unfold afterChunk at hc
  split at hc
  · refine ⟨⟨?_, ?_, ?_, ?_, ?_, ?_⟩, ⟨?_, ?_, fun _ => hst, fun _ => hv⟩⟩
    · intro h; rw [hc] at h; cases h
    · right; rw [hc]
    · intro h; rw [hc] at h; exact absurd rfl h
    · intro h; rw [hc] at h; exact absurd hrx h
    · intro h; right; rw [hc] at h ⊢; exact hp h
    · intro r h
      rw [hc] at h
      cases h
      rw [List.length_drop]
      omega
    · intro _; rw [hc]
    · intro _; rw [hc]; exact hset
  · refine ⟨⟨?_, ?_, ?_, ?_, ?_, ?_⟩, ⟨?_, ?_, fun _ => hst, fun _ => hv⟩⟩
    · intro _; rw [hc]
    · left; rw [hc]
    · intro _; rw [hc]; exact hset
    · intro h; rw [hc] at h; exact absurd hrx h
    · intro h; left; rw [hc] at h ⊢; exact hp h
    · intro r h; rw [hc] at h; cases h
    · intro h; rw [hc] at h; exact absurd rfl h
    · intro h; rw [hc] at h; exact absurd rfl h

end Sys2Proof.Machine
end

