-- ==== Sys2Proof/Laws/PerInstr.lean ====
section
/-! SUPPORT. One family of statements about the syntax: every event's encoding has the format and the size of a row of
spec/opcode_table.json that bears its mnemonic (R100, R101, R102, R110). One lemma for each constructor. -/

namespace Sys2Proof.Laws.EncodedForm

/-- The encoding of `i` is a word of its row's format, with as many bytes as the format has. -/
def Statement (i : Instr) : Prop :=
  (∃ r ∈ tableInterrupt ++ tableRequest, r.mnemonic = i.mnemonic ∧ r.format = (encode i).format) ∧
    tableFormat (8 * (encode i).bytes.length) = some ((encode i).format, (encode i).bytes.length)

theorem of_row {i : Instr} (r : TableRow) (h1 : r ∈ tableInterrupt ++ tableRequest) (h2 : r.mnemonic = i.mnemonic)
    (h3 : r.format = (encode i).format)
    (h4 : tableFormat (8 * (encode i).bytes.length) = some ((encode i).format, (encode i).bytes.length)) :
    Statement i := ⟨⟨r, h1, h2, h3⟩, h4⟩

theorem irqSof (reset ctr : Bool) (code : BitVec 5) : Statement (.irqSof reset ctr code) :=
  of_row ((tableInterrupt ++ tableRequest)[0]) (by decide) rfl rfl rfl

theorem irqReset (ctr : Bool) (code : BitVec 5) : Statement (.irqReset ctr code) :=
  of_row ((tableInterrupt ++ tableRequest)[1]) (by decide) rfl rfl rfl

theorem irqCtr (code : BitVec 5) : Statement (.irqCtr code) :=
  of_row ((tableInterrupt ++ tableRequest)[2]) (by decide) rfl rfl rfl

theorem ctrEp0Tx : Statement (.ctrEp0Tx) :=
  of_row ((tableInterrupt ++ tableRequest)[3]) (by decide) rfl rfl rfl

theorem ctrEp0RxSetup : Statement (.ctrEp0RxSetup) :=
  of_row ((tableInterrupt ++ tableRequest)[4]) (by decide) rfl rfl rfl

theorem ctrEp0RxOut : Statement (.ctrEp0RxOut) :=
  of_row ((tableInterrupt ++ tableRequest)[5]) (by decide) rfl rfl rfl

theorem ctrCapTx (k : Cap) : Statement (.ctrCapTx k) :=
  of_row ((tableInterrupt ++ tableRequest)[6]) (by decide) rfl rfl rfl

theorem ctrCapRx (k : Cap) : Statement (.ctrCapRx k) :=
  of_row ((tableInterrupt ++ tableRequest)[7]) (by decide) rfl rfl rfl

theorem ctrUndispatchable (rx : Bool) (low : BitVec 3) : Statement (.ctrUndispatchable rx low) :=
  of_row ((tableInterrupt ++ tableRequest)[8]) (by decide) rfl rfl rfl

theorem getStatus (vlo vhi : Byte) (idx len : Half) : Statement (.getStatus vlo vhi idx len) :=
  of_row ((tableInterrupt ++ tableRequest)[9]) (by decide) rfl rfl rfl

theorem setAddress (vlo vhi : Byte) (idx len : Half) : Statement (.setAddress vlo vhi idx len) :=
  of_row ((tableInterrupt ++ tableRequest)[10]) (by decide) rfl rfl rfl

theorem getDescriptorDevice (vlo : Byte) (idx len : Half) : Statement (.getDescriptorDevice vlo idx len) :=
  of_row ((tableInterrupt ++ tableRequest)[11]) (by decide) rfl rfl rfl

theorem getDescriptorConfig (vlo : Byte) (idx len : Half) : Statement (.getDescriptorConfig vlo idx len) :=
  of_row ((tableInterrupt ++ tableRequest)[12]) (by decide) rfl rfl rfl

theorem getDescriptorString (vlo : Byte) (idx len : Half) : Statement (.getDescriptorString vlo idx len) :=
  of_row ((tableInterrupt ++ tableRequest)[13]) (by decide) rfl rfl rfl

theorem getDescriptorOther (vlo vhi : Byte) (idx len : Half) : Statement (.getDescriptorOther vlo vhi idx len) :=
  of_row ((tableInterrupt ++ tableRequest)[14]) (by decide) rfl rfl rfl

theorem setConfiguration0 (vhi : Byte) (idx len : Half) : Statement (.setConfiguration0 vhi idx len) :=
  of_row ((tableInterrupt ++ tableRequest)[15]) (by decide) rfl rfl rfl

theorem setConfiguration1 (vhi : Byte) (idx len : Half) : Statement (.setConfiguration1 vhi idx len) :=
  of_row ((tableInterrupt ++ tableRequest)[16]) (by decide) rfl rfl rfl

theorem setConfigurationOther (vlo vhi : Byte) (idx len : Half) : Statement (.setConfigurationOther vlo vhi idx len) :=
  of_row ((tableInterrupt ++ tableRequest)[17]) (by decide) rfl rfl rfl

theorem setInterface (vlo vhi : Byte) (idx len : Half) : Statement (.setInterface vlo vhi idx len) :=
  of_row ((tableInterrupt ++ tableRequest)[18]) (by decide) rfl rfl rfl

theorem classDispatch (rt rq vlo vhi : Byte) (idx len : Half) : Statement (.classDispatch rt rq vlo vhi idx len) :=
  of_row ((tableInterrupt ++ tableRequest)[19]) (by decide) rfl rfl rfl

end Sys2Proof.Laws.EncodedForm
end

