-- ==== Sys2Proof/Laws/Step.lean ====
section
/-! SUPPORT. What a step can do, whatever the link agent does in the windows: one induction over all events for relations that
look at memory, the control registers and the parameters, and, for each event, what it does to ControlState. -/

namespace Sys2Proof.Machine

/-- A closed relation that also respects every change of the fields outside the memory and the parameters. -/
structure Loose (P : State → State → Prop) : Prop extends Closed P where
  cs : ∀ c s, P s { s with cs := c }
  invocation : ∀ p a r s, P s { s with pos := p, any := a, returned := r }
  logs : ∀ c e s, P s { s with calls := c, errors := e }
  mask : ∀ s, P s { s with cntr := 0x8600#16 }
  address : ∀ d s, daddrEf d = true → P s { s with daddr := d }
  causes : ∀ r f u s, P s { s with istrReset := r, istrSof := f, rxUnsettled := u }

/-- An address is written with the enable bit (R45, R226). -/
theorem daddrEf_daddrOf (a : BitVec 7) : daddrEf ((0#24 ++ daddrOf a : Word).extractLsb' 0 8) = true := by
  revert a
  decide

namespace Loose

variable {P : State → State → Prop} (hP : Loose P)
include hP

theorem two {s t u : State} (h1 : P s t) (h2 : P t u) : P s u := hP.trans _ _ _ h1 h2

theorem calls (c : List Call) (s : State) : P s { s with calls := c } := hP.logs c s.errors s

theorem perform (c : Call) (s : State) : P s (perform c s) := hP.toClosed.perform hP.calls c s

theorem performAll (f : Cap → Call) (s : State) : P s (performAll f s) := hP.toClosed.performAll hP.calls f s

theorem setPos (p : Pos) (s : State) : P s (setPos p s) := hP.invocation p s.any s.returned s

theorem writeIstr (w : Word) (s : State) : P s (regWrite .istr w s) :=
  hP.two (hP.window s) (hP.causes _ _ (Machine.window s).rxUnsettled _)

theorem writeMask (s : State) : P s (regWrite .cntr (0#16 ++ Config.irqMask) s) := by
  have e : (0#16 ++ Config.irqMask : Word).extractLsb' 0 16 &&& Config.irqMask = 0x8600#16 := by decide
  refine hP.two (hP.window s) ?_
  simp only [regWrite, pokeReg, e]
  exact hP.mask _

theorem writeAddress (w : Word) (s : State) (h : daddrEf (w.extractLsb' 0 8) = true) : P s (regWrite .daddr w s) :=
  hP.two (hP.window s) (hP.address _ _ h)

theorem raise (e : ErrorClass) (s : State) : P s (raise e s) := hP.logs s.calls _ s

theorem raiseStall (e : ErrorClass) (s : State) : P s (raiseStall e s) :=
  hP.two (hP.raise e s) (hP.epUpdate _ _ _)

theorem deviceInit (s : State) : P s (deviceInit s) :=
  hP.two (hP.cs _ s) (hP.two (hP.bdSetTx _ _ _ _) (hP.two (hP.armRx _) (hP.two (hP.epUpdate _ _ _)
    (hP.two (hP.performAll _ _) (hP.two (hP.writeMask _) (hP.writeAddress _ _ (by decide)))))))

theorem sendChunk (rem : List Byte) (cb : TxTok) (s : State) : P s (sendChunk rem cb s) := by
  have hb : s.params.ep0TxOff + (rem.take Config.ep0Mps).length ≤ s.params.sramBytes := by
    have h5 := (Params.layout s.params).2.2.2.2.1
    have h6 := List.length_take_le Config.ep0Mps rem
    simp only [Config.ep0Mps] at h6 ⊢
    omega
  have h1 : P s _ := hP.two (hP.memWriteBytes (rem.take Config.ep0Mps) s.params.ep0TxOff s hb)
    (hP.bdSetTx 0 (txOffset s) (BitVec.ofNat 16 (rem.take Config.ep0Mps).length) _)
  simp only [Machine.sendChunk]
  split
  · exact hP.two h1 (hP.cs _ _)
  · exact hP.two h1 (hP.cs _ _)

theorem applyResult (res : SetupResult) (h : SetupHeader) (s : State) : P s (applyResult res h s) := by
  cases res with
  | tx data cb => exact hP.two (hP.cs _ s) (hP.two (hP.sendChunk _ _ _) (hP.epUpdate _ _ _))
  | rx n cb =>
    simp only [Machine.applyResult]
    split
    · exact hP.two (hP.armRx s) (hP.two (hP.cs _ _) (hP.epUpdate _ _ _))
    · exact hP.raiseStall _ s

theorem finishRequest (res : SetupResult) (h : SetupHeader) (s : State) : P s (finishRequest res h s) :=
  hP.two (hP.applyResult res h s) (hP.setPos _ _)

theorem invokeTxDone (cb : TxTok) (h : SetupHeader) (s : State) : P s (invokeTxDone cb h s) := by
  cases cb with
  | none => exact hP.refl s
  | applyAddress =>
    simp only [Machine.invokeTxDone]
    split
    · exact hP.two (hP.writeAddress _ s (daddrEf_daddrOf _)) (hP.cs _ _)
    · exact hP.refl s
  | ext t => exact hP.perform _ s

theorem controlTxDone (s : State) : P s (controlTxDone s) := by
  unfold Machine.controlTxDone
  split
  · exact hP.two (hP.sendChunk _ _ s) (hP.epUpdate _ _ _)
  · refine hP.two (t := invokePostAck s) ?_ (hP.two (hP.cs _ _) (hP.epUpdate _ _ _))
    unfold invokePostAck
    split
    · exact hP.invokeTxDone _ _ s
    · exact hP.refl s

theorem handleSetup (s : State) : P s (handleSetup s) := by
  have h1 : P s (Machine.window (fence (clearTransfer s))) := hP.two (hP.cs _ s) (hP.window _)
  simp only [Machine.handleSetup]
  split
  · exact hP.two h1 (hP.two (hP.cs _ _) (hP.two (hP.raiseStall _ _) (hP.setPos _ _)))
  · exact hP.two h1 (hP.two (hP.window _) (hP.two (hP.cs _ _) (hP.setPos _ _)))

theorem finishOut (e : Option ErrorClass) (s : State) : P s (finishOut e s) := by
  cases e with
  | none => exact hP.two (hP.cs _ s) (hP.two (hP.bdSetTx _ _ _ _) (hP.epUpdate _ _ _))
  | some c => exact hP.two (hP.cs _ s) (hP.two (hP.raise _ _) (hP.epUpdate _ _ _))

theorem discardOut (s : State) : P s (discardOut s) := hP.two (hP.cs _ s) (hP.epUpdate _ _ _)

theorem handleOut (s : State) : P s (handleOut s) := by
  unfold Machine.handleOut
  split
  · exact hP.discardOut s
  · split
    · exact hP.discardOut s
    · have h1 : P s (Machine.window (fence s)) := hP.window s
      unfold handleOutData
      dsimp only
      split
      · exact hP.two h1 (hP.finishOut _ _)
      · split
        · exact hP.two h1 (hP.finishOut _ _)
        · exact hP.two h1 (hP.two (hP.perform _ _) (hP.finishOut _ _))

/-- Every event respects the relation. -/
theorem exec {i : Instr} {s t : State} (h : exec i s = .next t) : P s t := by
  cases i <;> obtain rfl := Host.Outcome.next.inj h
  case irqSof => exact hP.two (hP.performAll _ s) (hP.setPos _ _)
  case irqReset => exact hP.two (hP.invocation s.pos true s.returned s) (hP.two (hP.deviceInit _) (hP.setPos _ _))
  case irqCtr => exact hP.invocation _ _ s.returned s
  case ctrEp0Tx => exact hP.two (hP.controlTxDone s) (hP.setPos _ _)
  case ctrEp0RxSetup => exact hP.handleSetup s
  case ctrEp0RxOut => exact hP.two (hP.handleOut s) (hP.setPos _ _)
  case ctrCapTx => exact hP.two (hP.perform _ s) (hP.setPos _ _)
  case ctrCapRx => exact hP.two (hP.window s) (hP.two (hP.causes _ _ false _) (hP.two (hP.perform _ _) (hP.setPos _ _)))
  case ctrUndispatchable => exact hP.two (hP.raise _ s) (hP.invocation _ _ _ _)
  case getStatus => exact hP.finishRequest _ _ s
  case setAddress => exact hP.two (hP.cs _ s) (hP.finishRequest _ _ _)
  case getDescriptorDevice => exact hP.two (hP.perform _ s) (hP.finishRequest _ _ _)
  case getDescriptorConfig => exact hP.two (hP.perform _ s) (hP.finishRequest _ _ _)
  case getDescriptorString => exact hP.two (hP.perform _ s) (hP.finishRequest _ _ _)
  case getDescriptorOther => exact hP.finishRequest _ _ s
  case setConfiguration0 => exact hP.finishRequest _ _ s
  case setConfiguration1 => exact hP.two (hP.performAll _ s) (hP.two (hP.cs _ _) (hP.finishRequest _ _ _))
  case setConfigurationOther => exact hP.finishRequest _ _ s
  case setInterface => exact hP.finishRequest _ _ s
  case classDispatch => exact hP.two (hP.toClosed.offerRequest hP.calls _ _ s) (hP.finishRequest _ _ _)

/-- Fetching an event word respects the relation. -/
theorem fetch {s s1 : State} {w : EventWord} (h : fetch s = some (w, s1)) : P s s1 := by
  unfold Machine.fetch at h
  split at h
  · cases h
  · cases h; exact hP.refl s
  · dsimp only at h
    split at h
    · cases h; exact hP.two (hP.window s) (hP.two (hP.causes _ _ false _) (hP.window _))
    · cases h; exact hP.refl s
  · cases h; exact hP.refl s
  · cases h

theorem enterDispatch (s : State) : P s (enterDispatch s) :=
  hP.two (hP.window s) (hP.two (hP.writeIstr _ _) (hP.invocation _ _ (Machine.regWrite .istr _ _).returned _))

theorem rereadIstr (s : State) : P s (rereadIstr s) :=
  hP.two (hP.window s) (hP.invocation _ (Machine.window s).any (Machine.window s).returned _)

theorem returnDispatch (r : Bool) (s : State) : P s (returnDispatch r s) := hP.invocation _ s.any _ s

end Loose

/-- The SRAM stays canonical and in range (R71). -/
theorem sramInv_loose : Loose fun s t => SramInv s → SramInv t where
  toClosed := sramInv_closed
  cs := fun _ _ h => h
  invocation := fun _ _ _ _ h => h
  logs := fun _ _ _ h => h
  mask := fun _ h => h
  address := fun _ _ _ h => h
  causes := fun _ _ _ _ h => h

/-- The fields no event writes. -/
theorem fixed_loose : Loose fun s t =>
    t.params = s.params ∧ t.badCode = s.badCode ∧ t.oracles = s.oracles ∧ t.script = s.script ∧ t.tick = s.tick where
  refl := fun _ => ⟨rfl, rfl, rfl, rfl, rfl⟩
  trans := fun _ _ _ h1 h2 => ⟨h2.1.trans h1.1, h2.2.1.trans h1.2.1, h2.2.2.1.trans h1.2.2.1,
    h2.2.2.2.1.trans h1.2.2.2.1, h2.2.2.2.2.trans h1.2.2.2.2⟩
  window := fun s => ⟨(window_frame s).params, (window_frame s).badCode, (window_frame s).oracles,
    (window_frame s).script, (window_frame s).tick⟩
  byte := fun _ _ _ _ => ⟨rfl, rfl, rfl, rfl, rfl⟩
  draw := fun _ => ⟨rfl, rfl, rfl, rfl, rfl⟩
  chepr := fun _ _ => ⟨rfl, rfl, rfl, rfl, rfl⟩
  cs := fun _ _ => ⟨rfl, rfl, rfl, rfl, rfl⟩
  invocation := fun _ _ _ _ => ⟨rfl, rfl, rfl, rfl, rfl⟩
  logs := fun _ _ _ => ⟨rfl, rfl, rfl, rfl, rfl⟩
  mask := fun _ => ⟨rfl, rfl, rfl, rfl, rfl⟩
  address := fun _ _ _ => ⟨rfl, rfl, rfl, rfl, rfl⟩
  causes := fun _ _ _ _ => ⟨rfl, rfl, rfl, rfl, rfl⟩

/-- What a step is: an event that was fetched, the return of the invocation, the re-read of ISTR, an invocation that
starts by itself, nothing, or a line of the script; then the step counter advances. -/
theorem step_cases {s t : State} (h : step s = .next t) : ∃ u, t = { u with tick := u.tick + 1 } ∧
    ((∃ w s1 i, fetch s = some (w, s1) ∧ decode w = .ok i ∧ exec i s1 = .next u) ∨
      (∃ w s1, fetch s = some (w, s1) ∧ decode w = .error .noCause ∧ u = returnDispatch s1.any s1) ∨
      (s.pos = .reread ∧ u = rereadIstr s) ∨
      (s.pos = .idle ∧ s.script = [] ∧ u = if irq s then enterDispatch s else s) ∨
      (s.pos = .idle ∧ ∃ line rest, s.script = line :: rest ∧ runLine line { s with script := rest } = .next u)) := by
  unfold step at h
  cases hb : stepBody s with
  | fault f => rw [hb] at h; cases h
  | refused r => rw [hb] at h; cases h
  | next u =>
    rw [hb] at h
    refine ⟨u, (Host.Outcome.next.inj h).symm, ?_⟩
    unfold stepBody at hb
    split at hb
    · rename_i w s1 hf
      split at hb
      · rename_i i hd; exact .inl ⟨w, s1, i, hf, hd, hb⟩
      · rename_i hd; exact .inr (.inl ⟨w, s1, hf, hd, (Host.Outcome.next.inj hb).symm⟩)
      · cases hb
      · cases hb
      · cases hb
    · rename_i hf
      split at hb
      · rename_i hp; exact .inr (.inr (.inl ⟨hp, (Host.Outcome.next.inj hb).symm⟩))
      · rename_i hp
        unfold idleStep at hb
        split at hb
        · rename_i line rest hs; exact .inr (.inr (.inr (.inr ⟨hp, line, rest, hs, hb⟩)))
        · rename_i hs; exact .inr (.inr (.inr (.inl ⟨hp, hs, (Host.Outcome.next.inj hb).symm⟩)))
      · rename_i v hp; simp [fetch, hp] at hf
      · rename_i c hp; by_cases hc : c = 16#5 <;> simp [fetch, hp, hc] at hf
      · rename_i hd hp; simp [fetch, hp] at hf

/-- What a line of the script does (R117). -/
theorem runLine_cases {line : ScriptLine} {s t : State} (h : runLine line s = .next t) :
    t = s ∨ (∃ m, line = .link m ∧ linkMove m s = .done t) ∨ (line = .dispatch ∧ t = enterDispatch s) ∨
    (line = .init ∧ t = deviceInit s) ∨ (line = .por ∧ t = powerOn s) ∨
    (∃ o, line = .oracle o ∧ oracleFault s.params o = none ∧ t = { s with oracles := o :: s.oracles }) ∨
    (∃ c, line = .pick c ∧ t = { s with pick := c }) := by
  cases line with
  | link m =>
    simp only [runLine] at h
    split at h <;> cases h
    · rename_i hm; exact .inr (.inl ⟨m, rfl, hm⟩)
    · exact .inl rfl
  | dispatch =>
    simp only [runLine] at h
    have h1 := Host.Outcome.next.inj h
    split at h1
    · exact .inr (.inr (.inl ⟨rfl, h1.symm⟩))
    · exact .inl h1.symm
  | init => exact .inr (.inr (.inr (.inl ⟨rfl, (Host.Outcome.next.inj h).symm⟩)))
  | por => exact .inr (.inr (.inr (.inr (.inl ⟨rfl, (Host.Outcome.next.inj h).symm⟩))))
  | oracle o =>
    simp only [runLine] at h
    split at h
    · cases h
    · rename_i hf
      exact .inr (.inr (.inr (.inr (.inr (.inl ⟨o, rfl, hf, (Host.Outcome.next.inj h).symm⟩)))))
  | pick c => exact .inr (.inr (.inr (.inr (.inr (.inr ⟨c, rfl, (Host.Outcome.next.inj h).symm⟩)))))

/-- A step on a fetched and decoded event (R97, R110). -/
theorem step_event {s s1 : State} {w : EventWord} {i : Instr} (hf : fetch s = some (w, s1)) (hd : decode w = .ok i) :
    step s = tickOutcome (exec i s1) := by
  simp only [step, stepBody, hf, hd]

theorem stepBody_idle {s : State} (hp : s.pos = .idle) : stepBody s = idleStep s := by
  have hf : fetch s = none := by simp [fetch, hp]
  unfold stepBody
  rw [hf]
  dsimp only
  rw [hp]

/-- A step on a line of the script (R117). -/
theorem step_line {s : State} {line : ScriptLine} {rest : List ScriptLine} (hp : s.pos = .idle)
    (hs : s.script = line :: rest) : step s = tickOutcome (runLine line { s with script := rest }) := by
  rw [step, stepBody_idle hp, idleStep, hs]

/-- A step when the script has ended (log 2). -/
theorem step_idle {s : State} (hp : s.pos = .idle) (hs : s.script = []) :
    step s = tickOutcome (.next (if irq s then enterDispatch s else s)) := by
  rw [step, stepBody_idle hp, idleStep, hs]

/-- Interrupt entry when no move of the link agent lands inside: SOF and RESET are acknowledged as they were read
(R242). -/
theorem enterDispatch_quiet {s : State} (h : Quiet s) : enterDispatch s =
    { s with istrReset := false, istrSof := false, any := false, pos := .causes (istrValue s) } := by
  unfold enterDispatch
  rw [window_quiet h]
  dsimp only
  rw [regWrite_quiet h]
  simp only [peekReg, low_half, pokeReg]
  have b9 := istrValue_sof s
  have b10 := istrValue_reset s
  have e1 : (0#16 ++ (istrValue s &&& Config.ackMask)).getLsbD 9 = s.istrSof := by
    rw [BitVec.getLsbD_append, ← b9]
    simp [Config.ackMask]
  have e2 : (0#16 ++ (istrValue s &&& Config.ackMask)).getLsbD 10 = s.istrReset := by
    rw [BitVec.getLsbD_append, ← b10]
    simp [Config.ackMask]
  rw [e1, e2]
  cases s.istrSof <;> cases s.istrReset <;> rfl

/-- The re-read keeps CTR and the code of the new read (R241). -/
theorem istrWord_reread (sof reset ctr : Bool) (code : BitVec 5) :
    istrWord sof reset ctr code &&& 0x801f#16 = istrWord false false ctr code := by
  revert sof reset ctr code
  decide

theorem step_reread {s : State} (h : Quiet s) (hp : s.pos = .reread) : step s = .next { s with
    pos := .causes (istrWord false false (reportedCode s).isSome ((reportedCode s).getD 0#5)), tick := s.tick + 1 } := by
  have hf : fetch s = none := by simp [fetch, hp]
  unfold step stepBody
  rw [hf]
  dsimp only
  rw [hp]
  dsimp only
  unfold rereadIstr
  rw [window_quiet h]
  simp only [peekReg, low_half, tickOutcome, istrValue, istrWord_reread]

end Sys2Proof.Machine
end

