-- ==== Sys2Proof/Tests/Slice0.lean ====
section
/-! SUPPORT. The model's own tests: ill-formed events are refused, words written out from the spec's encodings decode to
their events, one step of each event on values of spec/95_test_vectors.md (the vector is named in the comment), and, for
every statement with hypotheses, states and operands that meet them. -/

namespace Sys2Proof.Tests

open Sys2Proof.Machine

/-! ## Well-formedness -/

theorem test_wf_descriptor_type_1 : (Instr.getDescriptorOther 0#8 1#8 0#16 0#16).wf = false := by decide
theorem test_wf_descriptor_type_3 : (Instr.getDescriptorOther 0#8 3#8 0#16 0#16).wf = false := by decide
theorem test_wf_configuration_1 : (Instr.setConfigurationOther 1#8 0#8 0#16 0#16).wf = false := by decide
theorem test_wf_standard_pair : (Instr.classDispatch 0x80#8 0x06#8 0#8 0#8 0#16 0#16).wf = false := by decide
theorem test_wf_class_request : (Instr.classDispatch 0x21#8 0x20#8 0#8 0#8 1#16 7#16).wf = true := by decide

/-! ## Decoding: the words are written out from R100 to R102 and R110 -/

theorem test_decode_irqSof : decode ⟨.istr, [0x10#8, 0x82#8], false⟩ = .ok (.irqSof false true 16#5) := by decide
theorem test_decode_irqReset : decode ⟨.istr, [0x00#8, 0x04#8], false⟩ = .ok (.irqReset false 0#5) := by decide
theorem test_decode_irqCtr : decode ⟨.istr, [0x13#8, 0x80#8], false⟩ = .ok (.irqCtr 19#5) := by decide
theorem test_decode_no_cause : decode ⟨.istr, [0x13#8, 0x00#8], false⟩ = .error .noCause := by decide
theorem test_decode_ctrEp0Tx : decode ⟨.cc5, [0x00#8], true⟩ = .ok .ctrEp0Tx := by decide
theorem test_decode_ctrEp0RxSetup : decode ⟨.cc5, [0x10#8], true⟩ = .ok .ctrEp0RxSetup := by decide
theorem test_decode_ctrEp0RxOut : decode ⟨.cc5, [0x10#8], false⟩ = .ok .ctrEp0RxOut := by decide
theorem test_decode_ctrCapTx : decode ⟨.cc5, [0x03#8], false⟩ = .ok (.ctrCapTx 2) := by decide
theorem test_decode_ctrCapRx : decode ⟨.cc5, [0x17#8], false⟩ = .ok (.ctrCapRx 6) := by decide
theorem test_decode_ctrUndispatchable : decode ⟨.cc5, [0x08#8], false⟩ = .ok (.ctrUndispatchable false 0#3) := by
  decide
theorem test_decode_getStatus :
    decode ⟨.setup8, [0x80#8, 0x00#8, 0x00#8, 0x00#8, 0x00#8, 0x00#8, 0x02#8, 0x00#8], false⟩ =
      .ok (.getStatus 0#8 0#8 0#16 2#16) := by decide
theorem test_decode_status_of_interface :
    decode ⟨.setup8, [0x81#8, 0x00#8, 0x00#8, 0x00#8, 0x00#8, 0x00#8, 0x02#8, 0x00#8], false⟩ =
      .ok (.classDispatch 0x81#8 0#8 0#8 0#8 0#16 2#16) := by decide
theorem test_decode_setAddress :
    decode ⟨.setup8, [0x00#8, 0x05#8, 0x85#8, 0x00#8, 0x00#8, 0x00#8, 0x00#8, 0x00#8], false⟩ =
      .ok (.setAddress 0x85#8 0#8 0#16 0#16) := by decide
theorem test_decode_getDescriptorDevice :
    decode ⟨.setup8, [0x80#8, 0x06#8, 0x01#8, 0x01#8, 0x00#8, 0x00#8, 0x12#8, 0x00#8], false⟩ =
      .ok (.getDescriptorDevice 1#8 0#16 18#16) := by decide
theorem test_decode_getDescriptorConfig :
    decode ⟨.setup8, [0x80#8, 0x06#8, 0x00#8, 0x02#8, 0x00#8, 0x00#8, 0xff#8, 0x00#8], false⟩ =
      .ok (.getDescriptorConfig 0#8 0#16 255#16) := by decide
theorem test_decode_getDescriptorString :
    decode ⟨.setup8, [0x80#8, 0x06#8, 0x02#8, 0x03#8, 0x09#8, 0x04#8, 0xff#8, 0x00#8], false⟩ =
      .ok (.getDescriptorString 2#8 0x0409#16 255#16) := by decide
theorem test_decode_getDescriptorOther :
    decode ⟨.setup8, [0x80#8, 0x06#8, 0x00#8, 0x06#8, 0x00#8, 0x00#8, 0x0a#8, 0x00#8], false⟩ =
      .ok (.getDescriptorOther 0#8 6#8 0#16 10#16) := by decide
theorem test_decode_setConfiguration0 :
    decode ⟨.setup8, [0x00#8, 0x09#8, 0x00#8, 0x07#8, 0x00#8, 0x00#8, 0x00#8, 0x00#8], false⟩ =
      .ok (.setConfiguration0 7#8 0#16 0#16) := by decide
theorem test_decode_setConfiguration1 :
    decode ⟨.setup8, [0x00#8, 0x09#8, 0x01#8, 0x00#8, 0x00#8, 0x00#8, 0x00#8, 0x00#8], false⟩ =
      .ok (.setConfiguration1 0#8 0#16 0#16) := by decide
theorem test_decode_setConfigurationOther :
    decode ⟨.setup8, [0x00#8, 0x09#8, 0x02#8, 0x00#8, 0x00#8, 0x00#8, 0x00#8, 0x00#8], false⟩ =
      .ok (.setConfigurationOther 2#8 0#8 0#16 0#16) := by decide
theorem test_decode_setInterface :
    decode ⟨.setup8, [0x01#8, 0x0b#8, 0x00#8, 0x00#8, 0x00#8, 0x00#8, 0x00#8, 0x00#8], false⟩ =
      .ok (.setInterface 0#8 0#8 0#16 0#16) := by decide
/-- V40-4: the two 16-bit fields are low byte first. -/
theorem test_decode_classDispatch :
    decode ⟨.setup8, [0xa1#8, 0xfe#8, 0x34#8, 0x12#8, 0x78#8, 0x56#8, 0xbc#8, 0x9a#8], false⟩ =
      .ok (.classDispatch 0xa1#8 0xfe#8 0x34#8 0x12#8 0x5678#16 0x9abc#16) := by decide
/-- A short packet is rejected; a longer one is read up to its eighth byte (R114). -/
theorem test_decode_short : decode ⟨.setup8, [0x80#8, 0x06#8, 0x00#8, 0x01#8], false⟩ = .error .shortSetup := by decide
theorem test_decode_long :
    decode ⟨.setup8, [0x80#8, 0#8, 0#8, 0#8, 0#8, 0#8, 2#8, 0#8, 0xaa#8, 0xbb#8], false⟩ =
      .ok (.getStatus 0#8 0#8 0#16 2#16) := by decide
/-- The table's words, numbered as spec/opcode_table.json numbers them. -/
theorem test_table_word_getDescriptorDevice :
    decodeTableWord 64 0x01000680 = some (.getDescriptorDevice 0#8 0#16 0#16) := by decide
theorem test_table_word_irqReset : decodeTableWord 16 0x0400 = some (.irqReset false 0#5) := by decide

/-! ## One step -/

/-- S0, the state after `POR; CORE INIT` (spec/95), with the descriptors of entry 0 stored. -/
def S0 : State := { State.reset with
  chepr := State.reset.chepr.set 0 0x3220#16
  cntr := 0x8600#16
  daddr := 0x80#8
  sram := [(0, 0x80#8), (1, 0x00#8), (2, 0x00#8), (3, 0x00#8), (4, 0x40#8), (5, 0x00#8), (6, 0x00#8), (7, 0x84#8)] }

/-- S0 with another value of CHEPR[0]. -/
def at0 (v : Half) : State := { S0 with chepr := S0.chepr.set 0 v }

/-- S0 with an ORACLE line in force. -/
def withOracle (x : Site) (b : Behaviour) (s : State) : State := { s with oracles := ⟨x, b⟩ :: s.oracles }

/-- S0 in which all capabilities do nothing at the calls `f`. -/
def silent (f : Cap → Site) (s : State) : State := { s with oracles := allCaps.map (fun k => ⟨f k, { ops := some [] }⟩) ++ s.oracles }

/-- A field of the state an event leaves. -/
def after {α : Type} (f : State → α) (o : Host.Outcome State Fault Refusal) : Option α :=
  match o with
  | .next t => some (f t)
  | .fault _ => none
  | .refused _ => none

/-- CHEPR[0]. -/
abbrev ep0 (s : State) : Half := s.chepr[(0 : Fin 8)]

/-- The header of V42-13 and P3: `21 20 00 00 00 00 07 00`. -/
def h7 : SetupHeader := ⟨0x21#8, 0x20#8, 0#8, 0#8, 0#16, 7#16⟩

/-- V44-2: seven calls, in order. -/
theorem test_irqSof : after State.calls (exec (.irqSof false false 0#5) (silent .sof S0)) =
    some [.sof 0, .sof 1, .sof 2, .sof 3, .sof 4, .sof 5, .sof 6] := by decide
/-- V44-3 and P6: CHEPR[0], CNTR and DADDR after the re-initialisation from zero. -/
theorem test_irqReset : after (fun t => (ep0 t, t.cntr, t.daddr)) (exec (.irqReset false 0#5) (silent .init
    { at0 0x0000#16 with daddr := 0#8 })) = some (0x3220#16, 0x8600#16, 0x80#8) := by decide
/-- R256: `0x6A70` becomes `0x3A20`. -/
theorem test_irqReset_mid_transfer : after ep0 (exec (.irqReset false 0#5) (silent .init (at0 0x6a70#16))) =
    some 0x3a20#16 := by decide
/-- V44-7: code 0 is served next. -/
theorem test_irqCtr : after State.pos (exec (.irqCtr 0#5) S0) = some (.code 0#5) := by decide
/-- V43-6. -/
theorem test_ctrEp0Tx : after ep0 (exec .ctrEp0Tx (at0 0x6aa0#16)) = some 0x3a20#16 := by decide
/-- P4 line 6: the trailing empty packet; the token moves to `post_ack_cb`, CHEPR[0] is `0x6A70`. -/
theorem test_ctrEp0Tx_tail : after (fun t => (ep0 t, storedWord t 0, t.cs.txTail, t.cs.postAckCb)) (exec .ctrEp0Tx
    { at0 0x6ae0#16 with cs := { S0.cs with
        txTail := some [], txTailCb := .ext 9, short := true, setup := some h7 } }) =
    some (0x6a70#16, 0x00000080#32, none, .ext 9) := by decide
/-- V42-16: four bytes reported. -/
theorem test_ctrEp0RxSetup_short : after (fun t => (ep0 t, t.cs.setup, t.errors)) (exec .ctrEp0RxSetup
    (setRxCount 0 4 (at0 0xea60#16))) = some (0x5a50#16, none, [.shortSetup]) := by decide
/-- V40-1: the header `80 06 00 01 00 00 12 00`. -/
theorem test_ctrEp0RxSetup : after (fun t => t.cs.setup) (exec .ctrEp0RxSetup (setRxCount 0 8
    (putBytes 0x40 [0x80#8, 0x06#8, 0x00#8, 0x01#8, 0x00#8, 0x00#8, 0x12#8, 0x00#8] (at0 0xea60#16)))) =
    some (some ⟨0x80#8, 0x06#8, 0x00#8, 0x01#8, 0x0000#16, 0x0012#16⟩) := by decide
/-- V43-7. -/
theorem test_ctrEp0RxOut_discard : after ep0 (exec .ctrEp0RxOut (at0 0xe220#16)) = some 0x7220#16 := by decide
/-- V43-9: six bytes where seven were announced; the predicate is not called. -/
theorem test_ctrEp0RxOut_mismatch : after (fun t => (ep0 t, t.calls)) (exec .ctrEp0RxOut (setRxCount 0 6
    { at0 0xa260#16 with cs := { S0.cs with setup := some h7, rxCb := .ext 1 } })) = some (0x3250#16, []) := by decide
/-- S0 with another value of CHEPR[3], and a handler of `Cap[3]` that does `ops` when `x` is called. -/
def cap3 (v : Half) (x : Site) (ops : List CapOp) : State :=
  withOracle x { ops := some ops } { S0 with chepr := S0.chepr.set 3 v }
/-- V44-8, and R322 (e): the handler clears VTTX. -/
theorem test_ctrCapTx : after (fun t => (t.calls, t.chepr[(3 : Fin 8)])) (exec (.ctrCapTx 2)
    (cap3 0x00a0#16 (.txHandler 2) [.update { clrTx := true }])) = some ([.txHandler 2], 0x0020#16) := by decide
/-- V44-9: after the delay; and R322 (e). -/
theorem test_ctrCapRx : after (fun t => (t.calls, t.rxUnsettled, t.chepr[(3 : Fin 8)])) (exec (.ctrCapRx 2)
    { cap3 0xa000#16 (.rxHandler 2) [.update { clrRx := true }] with rxUnsettled := true }) =
    some ([.rxHandler 2], false, 0x2000#16) := by decide
/-- V44-11. -/
theorem test_ctrUndispatchable : after (fun t => (t.pos, t.returned, t.errors)) (exec (.ctrUndispatchable false 0#3)
    { S0 with any := true }) = some (.idle, some true, [.badCode]) := by decide
/-- V42-1. -/
theorem test_getStatus : after (fun t => (ep0 t, storedWord t 0)) (exec (.getStatus 0#8 0#8 0#16 2#16)
    (at0 0xea60#16)) = some (0x6a70#16, 0x00020080#32) := by decide
/-- V42-2: one byte requested. -/
theorem test_getStatus_one_byte : after (fun t => storedWord t 0) (exec (.getStatus 0#8 0#8 0#16 1#16)
    (at0 0xea60#16)) = some 0x00010080#32 := by decide
/-- V42-5: bit 7 of the value is ignored, DADDR stays. -/
theorem test_setAddress : after (fun t => (t.cs.pendingAddr, t.cs.postAckCb, t.daddr))
    (exec (.setAddress 0x85#8 0#8 0#16 0#16) (at0 0xea60#16)) = some (some 5#7, .applyAddress, 0x80#8) := by decide
/-- V42-6, with the 18 bytes of the oracle. -/
theorem test_getDescriptorDevice : after (fun t => (storedWord t 0, ep0 t, t.cs.short))
    (exec (.getDescriptorDevice 0#8 0#16 18#16) (withOracle .device
      { result := some (.tx (List.replicate 18 9#8) none) } (at0 0xea60#16))) =
    some (0x00120080#32, 0x6a70#16, false) := by decide
/-- R190: a 34-byte answer against nine requested bytes sends nine; the token waits for the completion. -/
theorem test_getDescriptorConfig : after (fun t => (storedWord t 0, t.cs.txTail, t.cs.postAckCb, t.cs.short))
    (exec (.getDescriptorConfig 0#8 0#16 9#16) (withOracle .config
      { result := some (.tx (List.replicate 34 3#8) (some 9)) } (at0 0xea60#16))) =
    some (0x00090080#32, none, .ext 9, false) := by decide
/-- V42-7: the provider answers `ERROR`. -/
theorem test_getDescriptorString : after (fun t => (ep0 t, t.calls)) (exec (.getDescriptorString 2#8 0x0409#16 255#16)
    (withOracle .string { result := some (.rx 0#16 none) } (at0 0xea60#16))) = some (0x5a50#16, [.string 2#8]) := by
  decide
/-- V42-7b. -/
theorem test_getDescriptorOther : after (fun t => (ep0 t, t.errors)) (exec (.getDescriptorOther 0#8 6#8 0#16 10#16)
    (at0 0xea60#16)) = some (0x5a50#16, [.unsupported]) := by decide
/-- V42-9. -/
theorem test_setConfiguration0 : after (fun t => (ep0 t, t.cs.configured)) (exec (.setConfiguration0 0#8 0#16 0#16)
    { at0 0xea60#16 with cs := { S0.cs with configured := true } }) = some (0x6a70#16, true) := by decide
/-- V42-8. -/
theorem test_setConfiguration1 : after (fun t => (ep0 t, t.cs.configured, t.calls))
    (exec (.setConfiguration1 0#8 0#16 0#16) (silent .init (at0 0xea60#16))) =
    some (0x6a70#16, true, [.init 0, .init 1, .init 2, .init 3, .init 4, .init 5, .init 6]) := by decide
/-- V42-10. -/
theorem test_setConfigurationOther : after (fun t => (ep0 t, t.cs.configured))
    (exec (.setConfigurationOther 2#8 0#8 0#16 0#16) { at0 0xea60#16 with cs := { S0.cs with configured := true } }) =
    some (0x5a50#16, true) := by decide
/-- V42-11. -/
theorem test_setInterface : after (fun t => (ep0 t, t.calls)) (exec (.setInterface 0#8 0#8 0#16 0#16)
    (at0 0xea60#16)) = some (0x6a70#16, []) := by decide

/-- `Cap[1]` refuses, `Cap[2]` accepts and answers `Rx(n, EXT(1))`. -/
def secondTakes (n : Half) : State :=
  withOracle (.wanted 0) { verdict := some false, ops := some [] }
    (withOracle (.wanted 1) { verdict := some true, ops := some [] }
      (withOracle (.handler 1) { result := some (.rx n (some 1)), ops := some [] } (at0 0xea60#16)))

/-- V42-13. -/
theorem test_classDispatch : after (fun t => (ep0 t, t.cs.rxCb, t.calls))
    (exec (.classDispatch 0x21#8 0x20#8 0#8 0#8 0#16 7#16) (secondTakes 7#16)) =
    some (0x7a60#16, .ext 1, [.wanted 0 h7, .wanted 1 h7, .handler 1 h7]) := by decide
/-- V42-14: the answer does not fit. -/
theorem test_classDispatch_unfit : after (fun t => (ep0 t, t.cs.rxCb))
    (exec (.classDispatch 0x21#8 0x20#8 0#8 0#8 0#16 7#16) (secondTakes 8#16)) = some (0x5a50#16, .none) := by decide

/-! ## Registers, descriptors, and the link agent -/

/-- V41-4 and V41-9. -/
theorem test_chepr_write : Chepr.write 0xea60#16 0xffff#16 = 0x9f1f#16 ∧ Chepr.write 0x3a20#16 0x0100#16 = 0x3920#16 := by
  decide
/-- V41-13 and V41-18: what `EpUpdate` writes. -/
theorem test_deltas : Chepr.deltas 0xea60#16 { stattx := some stValid, clrRx := true } = 0x0290#16 ∧
    Chepr.deltas 0x6aa0#16 { statrx := some stValid, dtogrx := some false, clrTx := true } = 0xd200#16 := by decide
/-- V41-24: a SETUP that lands between the read and the write. -/
theorem test_race : Chepr.write 0xeae0#16 (Chepr.deltas 0x6aa0#16 { stattx := some stValid, clrTx := true }) =
    0xea70#16 := by decide
/-- R35, R155: EPKIND (bit 8) survives what a capability does, R59: the default result is `Rx(0, NONE)`. -/
theorem test_epkind_kept : Chepr.afterCapability 0x0100#16 0x0000#16 false false = 0x0100#16 ∧
    Chepr.afterCapability 0x0000#16 0xffff#16 true true = 0x767f#16 := by decide
theorem test_default_result : (default : SetupResult) = .rx 0#16 .none := rfl
/-- V41-35 to V41-38. -/
theorem test_rxCode : rxCode 62 = some (false, 31#5) ∧ rxCode 96 = some (true, 2#5) ∧ rxCode 1023 = some (true, 31#5) ∧
    rxCode 63 = none ∧ rxCode 0 = none := by decide
/-- V45-1, V45-2. -/
theorem test_linkSetup : Chepr.afterSetup 0x3220#16 = 0xea60#16 ∧ Chepr.afterSetup 0x5a50#16 = 0xea60#16 := by decide
/-- V45-6, V45-7. -/
theorem test_linkOut : Chepr.afterOut 0x3a20#16 = 0xe220#16 ∧ Chepr.afterOut 0x7a60#16 = 0xa260#16 := by decide
/-- V45-5. -/
theorem test_linkIn : Chepr.afterIn 0x6a70#16 = 0x6aa0#16 := by decide
/-- V43-1. -/
theorem test_packetLengths : packetLengths 128 255 = [64, 64, 0] ∧ packetLengths 0 64 = [0] ∧
    packetLengths 200 100 = [64, 36] := by decide

/-! ## Witnesses: states and operands that meet the hypotheses of the statements -/

/-- S0 with a header stored in the RX buffer. -/
def buffered : State := putBytes 0x40 [0x21#8, 0x20#8, 0x00#8, 0x00#8, 0x00#8, 0x00#8, 0x07#8, 0x00#8] S0

/-- S0 in the middle of a control write: the header is stored, a predicate is armed, `n` bytes have arrived. -/
def writing (n : Nat) (cb : RxTok) : State :=
  setRxCount 0 n { at0 0xa260#16 with cs := { S0.cs with setup := some h7, rxCb := cb } }

/-- S0 where SET_ADDRESS(5) waits for its status packet, which has been taken. -/
def addressed : State := { at0 0x6aa0#16 with
  cs := { S0.cs with setup := some ⟨0#8, 5#8, 5#8, 0#8, 0#16, 0#16⟩, pendingAddr := some 5#7, postAckCb := .applyAddress } }

/-- A forced code 8 (log 15). -/
def hung : State := { S0 with badCode := some 8#5 }

/-- S0 under `GRANULARITY = access`. -/
def accessS0 : State := { S0 with params := { Params.default with granularity := .access } }

/-- Log 29: a bus reset lands right before DADDR is written. The write (R226) and the re-arming of RX (R221) are made in
the cleared registers, and RESET stays set (R241). -/
theorem test_reset_before_address :
    after (fun t => (t.daddr, Chepr.statrx (ep0 t), t.istrReset))
      (exec .ctrEp0Tx { addressed with params := accessS0.params, windows := [[.reset]] }) =
      some (0x85#8, stValid, true) := by decide

/-- Log 28: a transmit completion left from an older transfer is served while OUT data is expected: R222 clears the
header, and no clause of R220 clears the predicate. -/
theorem test_stale_tx_completion :
    after (fun t => (t.cs.setup, t.cs.rxCb))
      (exec .ctrEp0Tx { at0 0x7ae0#16 with cs := { S0.cs with setup := some h7, rxCb := .ext 1 } }) =
      some (none, .ext 1) := by decide

/-- Log 28: an OUT packet ends a transfer whose token is pending: R225 clears the header, and no clause of it clears the
token. -/
theorem test_out_under_token :
    after (fun t => (t.cs.setup, t.cs.postAckCb))
      (exec .ctrEp0RxOut (setRxCount 0 0 { at0 0xa260#16 with cs := { S0.cs with setup := some h7, postAckCb := .ext 1 } })) =
      some (none, .ext 1) := by decide

theorem quiet_S0 : Quiet S0 := by decide
/-- `Quiet` under the other granularity: no move is left to land. -/
theorem quiet_access : Quiet accessS0 := by decide

theorem wit_DecodeEncodeAgree : (Instr.getDescriptorOther 0#8 4#8 0#16 10#16).wf = true ∧
    (Instr.setConfigurationOther 255#8 0#8 0#16 0#16).wf = true ∧ (Instr.ctrUndispatchable true 7#3).wf = true := by decide
theorem wit_EncodeDecodeAgree : decode (headerEvent h7) = .ok (.classDispatch 0x21#8 0x20#8 0#8 0#8 0#16 7#16) ∧
    0x8210#16 &&& 0x861f#16 = 0x8210#16 ∧ decode (istrEvent 0x8210#16) = .ok (.irqSof false true 16#5) ∧
    decode (codeEvent 31#5 true) = .ok (.ctrUndispatchable true 7#3) := by decide
theorem wit_DecodeFollowsTablePriority : decode ⟨.setup8, [0x00#8, 0x09#8, 0x00#8, 0#8, 0#8, 0#8, 0#8, 0#8, 1#8], false⟩ =
    .ok (.setConfiguration0 0#8 0#16 0#16) ∧ (0x0400#16 : Half) &&& 0x8600#16 ≠ 0#16 ∧
    (0x7913#16 : Half) &&& 0x8600#16 = 0#16 := by decide
theorem wit_ParseRoundTrip : buffered.rxUnsettled = false ∧ 0x40 % 4 = 0 ∧ storedBytes buffered 0x40 8 = h7.bytes := by
  decide
theorem wit_ParseFieldOrder : buffered.rxUnsettled = false ∧ 0x40 % 4 = 0 := by decide
theorem wit_MemoryBytes : S0.rxUnsettled = false ∧ Quiet S0 ∧ 3 < 4 ∧ ¬(0x80 ≤ 0x84 ∧ 0x84 < 0x80 + 4) := by decide
theorem wit_UnsettledReadsAreDraws : { S0 with rxUnsettled := true }.rxUnsettled = true ∧
    inRxBuffer S0.params 0x40 = true ∧ inRxBuffer S0.params 0x7f = true ∧ inRxBuffer S0.params 0x80 = false ∧
    S0.rxUnsettled = false := by decide
theorem wit_RxCodeLegalSizes : rxCode 2 = some (false, 1#5) ∧ rxCode 64 = some (true, 1#5) ∧
    rxCode 1024 = some (true, 31#5) := by decide
theorem wit_DescriptorsStored : Quiet S0 ∧ S0.rxUnsettled = false ∧ rxCode 1023 = some (true, 31#5) := by decide
theorem wit_EpUpdateReachesTargets : Quiet S0 := by decide
theorem wit_IstrReportsPendingSlot : (at0 0xea60#16).badCode = none ∧ (istrValue (at0 0xea60#16)).getLsbD 15 = true ∧
    Chepr.vtrx (ep0 (at0 0xea60#16)) = true ∧ Chepr.vttx (ep0 (at0 0x6aa0#16)) = true ∧
    (istrValue S0).getLsbD 15 = false := by decide
theorem wit_PowerOnValues : { S0 with script := [.por] }.pos = .idle ∧ { S0 with script := [.por] }.script = [.por] :=
  ⟨rfl, rfl⟩
theorem wit_ReinitialisationValues : Quiet (at0 0#16) ∧ ep0 (at0 0#16) = 0#16 ∧
    { at0 0#16 with script := [.init] }.pos = .idle ∧ { at0 0#16 with script := [.init] }.script = [.init] := by decide
theorem wit_StepRunsDecoded : (∃ s1, fetch { S0 with pos := .causes 0x8010#16 } = some (istrEvent 0x8010#16, s1)) ∧
    decode (istrEvent 0x8010#16) = .ok (.irqCtr 16#5) ∧ Quiet { S0 with pos := .code 16#5 } ∧ (3#5 : BitVec 5) ≠ 16#5 :=
  ⟨⟨_, rfl⟩, by decide, by decide, by decide⟩
theorem wit_InvocationEntry : Quiet (at0 0xea60#16) ∧ (at0 0xea60#16).pos = .idle ∧ (at0 0xea60#16).script = [] ∧
    irq (at0 0xea60#16) = true ∧ irq S0 = false ∧ Quiet { S0 with pos := .reread } ∧
    { S0 with script := [.dispatch] }.script = [.dispatch] ∧ istrValue S0 &&& 0x8600#16 = 0#16 ∧
    irq { at0 0xea60#16 with cntr := 0#16 } = false ∧ istrValue { at0 0xea60#16 with cntr := 0#16 } &&& 0x8600#16 ≠ 0#16 := by
  decide
theorem wit_CausesServedInOrder : { S0 with pos := .causes 0x8610#16 }.pos = .causes (istrWord true true true 16#5) ∧
    istrWord false true false 0#5 = 0x0400#16 ∧ istrWord false false true 3#5 = 0x8003#16 ∧
    istrWord false false false 0#5 = 0#16 := by decide
theorem wit_OnlyScriptLinesStop : ∀ t, step { S0 with script := [.oracle ⟨.handler 0, { ops := some [.setRx 0#16 1] }⟩] } ≠
    .next t := by
  intro t h
  have h1 : step { S0 with script := [.oracle ⟨.handler 0, { ops := some [.setRx 0#16 1] }⟩] } = .refused .rxBlockSize := rfl
  rw [h1] at h
  cases h
/-- An invocation that starts by itself with one completion pending, one on a `DISPATCH` line with nothing pending (R315), and
sixteen completions. -/
theorem wit_InvocationEnds : (Quiet (at0 0xea60#16) ∧ OracleInv (at0 0xea60#16) ∧ (at0 0xea60#16).badCode = none ∧
      (at0 0xea60#16).pos = .idle ∧ ∃ u, step (at0 0xea60#16) = .next u ∧ u.pos ≠ .idle) ∧
    (∃ u, step { S0 with script := [.dispatch] } = .next u ∧ u.pos ≠ .idle) ∧
    (pendingSlots { S0 with chepr := Vector.replicate 8 0x8080#16 }).length = 16 :=
  ⟨⟨by decide, by decide, rfl, rfl, _, rfl, by decide⟩, ⟨_, rfl, by decide⟩, by decide⟩
theorem wit_StartOfFrame : Quiet S0 := by decide
theorem wit_BusReset : Quiet (at0 0#16) := by decide
/-- A handler whose effect is free, and one that an admitted line fixes. -/
theorem wit_CapabilityCompletions : Quiet S0 ∧ behaviour S0 (.txHandler 6) = none ∧ behaviour S0 (.rxHandler 0) = none ∧
    OracleInv (cap3 0x00a0#16 (.txHandler 2) [.update { clrTx := true }]) ∧
    OracleInv (cap3 0xa000#16 (.rxHandler 2) [.update { clrRx := true }]) := by decide
theorem wit_UndispatchableCode : Quiet hung ∧ hung.badCode = some 8#5 ∧ (8#5 : BitVec 5).getLsbD 3 = true ∧
    hung.istrReset = false ∧ hung.istrSof = false ∧ hung.cntr.getLsbD 15 = true ∧ hung.pos = .idle ∧ hung.script = [] := by
  decide
theorem wit_TxDoneSendsTail : Quiet { S0 with cs := { S0.cs with txTail := some [7#8] } } ∧
    { S0 with cs := { S0.cs with txTail := some [7#8] } }.cs.txTail = some [7#8] := by decide
theorem wit_TxDoneEndsTransfer : Quiet addressed ∧ addressed.cs.txTail = none ∧ Quiet S0 ∧ S0.cs.txTail = none := by decide
theorem wit_AddressAppliedLate : Quiet addressed ∧
    (∃ t, exec .ctrEp0Tx addressed = .next t ∧ t.daddr ≠ addressed.daddr) ∧
    ∃ t, exec (.irqReset false 0#5) { S0 with daddr := 0x85#8 } = .next t ∧ t.daddr ≠ 0x85#8 :=
  ⟨by decide, ⟨_, rfl, by decide⟩, ⟨_, rfl, by decide⟩⟩
theorem wit_ConfiguredWriters : (∃ t, exec (.setConfiguration1 0#8 0#16 0#16) (silent .init S0) = .next t ∧
      t.cs.configured ≠ (silent .init S0).cs.configured) ∧
    ∃ t, exec (.irqReset false 0#5) (silent .init { S0 with cs := { S0.cs with configured := true } }) = .next t ∧
      t.cs.configured ≠ true := ⟨⟨_, rfl, by decide⟩, ⟨_, rfl, by decide⟩⟩
theorem wit_SetupReceived : Quiet S0 ∧ bdRxCount 0 (setRxCount 0 7 S0) < 8 ∧ 8 ≤ bdRxCount 0 (setRxCount 0 8 S0) ∧
    S0.rxUnsettled = false := by decide
theorem wit_OutDiscarded : Quiet S0 ∧ (∀ h, S0.cs.setup = some h → h.length = 0#16) ∧
    ∀ h, addressed.cs.setup = some h → h.length = 0#16 := by
  refine ⟨by decide, fun h e => (by cases e), fun h e => ?_⟩
  cases e
  rfl
theorem wit_OutDataJudged : Quiet (writing 6 (.ext 1)) ∧ (writing 6 (.ext 1)).cs.setup = some h7 ∧ h7.length ≠ 0#16 ∧
    bdRxCount 0 (writing 6 (.ext 1)) ≠ h7.length.toNat ∧ bdRxCount 0 (writing 7 .none) = h7.length.toNat ∧
    (writing 7 .none).cs.rxCb = .none ∧ (writing 7 (.ext 1)).cs.rxCb = .ext 1 ∧
    verdictOf (withOracle (.rxDone 1) { verdict := some true } (writing 7 (.ext 1))) (.rxDone 1) = true ∧
    verdictOf (withOracle (.rxDone 1) { verdict := some false } (writing 7 (.ext 1))) (.rxDone 1) = false := by decide
theorem wit_requests : Quiet (at0 0xea60#16) := by decide
theorem wit_ClassRequestHandled : Quiet (secondTakes 7#16) ∧
    (∀ j : Cap, j < 1 → verdictOf (secondTakes 7#16) (.wanted j h7) = false) ∧
    verdictOf (secondTakes 7#16) (.wanted 1 h7) = true := by decide
/-- The last capability accepts. -/
theorem wit_ClassRequestHandled_last : ∀ j : Cap,
    verdictOf { S0 with oracles := allCaps.map fun k => ⟨.wanted k, { verdict := some (decide (k = 6)) }⟩ } (.wanted j h7) =
      decide (j = 6) := by decide
theorem wit_ClassRequestRefused : Quiet S0 ∧ ∀ j : Cap,
    verdictOf { S0 with oracles := allCaps.map fun k => ⟨.wanted k, { verdict := some false }⟩ } (.wanted j h7) = false := by
  decide
theorem wit_RxAnswerArmsOrStalls : Quiet S0 ∧ classifyResult (.rx 7#16 (.ext 1)) h7 = .receive ∧
    classifyResult (.rx 8#16 (.ext 1)) h7 ≠ .receive ∧
    classifyResult (.rx 0#16 (.ext 1)) ⟨0#8, 0#8, 0#8, 0#8, 0#16, 0#16⟩ ≠ .receive := by decide
theorem wit_RequestsIgnoreLinkMoves : (Instr.getStatus 0#8 0#8 0#16 2#16).header? ≠ none ∧
    (∃ t, exec (.getStatus 0#8 0#8 0#16 2#16) accessS0 = .next t) ∧
    (∃ t, exec (.getStatus 0#8 0#8 0#16 2#16) { accessS0 with windows := [[.sof]] } = .next t) ∧
    window { accessS0 with windows := [[.sof]] } = { accessS0 with istrSof := true } :=
  ⟨by decide, ⟨_, rfl⟩, ⟨_, rfl⟩, rfl⟩
theorem wit_PacketSequence : Quiet (at0 0xea60#16) ∧ daddrEf (at0 0xea60#16).daddr = true ∧
    Chepr.vttx (ep0 (at0 0xea60#16)) = false ∧ [1#8, 2#8].length / 64 + 2 ≤ 2 := by decide
theorem wit_LinkSetupLands : [1#8].length ≤ 64 ∧ daddrEf State.reset.daddr = false ∧ daddrEf S0.daddr = true ∧
    Chepr.statrx (ep0 S0) ≠ stDisabled ∧ Chepr.vtrx (ep0 S0) = false ∧ rxReserved (storedWord S0 4) = false ∧
    (rxbdOff (storedWord S0 4)).toNat + 64 ≤ S0.params.sramBytes ∧ 8 ≤ (rxbdOff (storedWord S0 4)).toNat ∧
    Chepr.statrx (ep0 (at0 0x0200#16)) = stDisabled ∧ Chepr.vtrx (ep0 (at0 0xea60#16)) = true := by decide
theorem wit_LinkOutLands : [1#8].length ≤ 64 ∧ daddrEf S0.daddr = true ∧ Chepr.statrx (ep0 S0) = stValid ∧
    Chepr.vtrx (ep0 S0) = false ∧ rxReserved (storedWord S0 4) = false ∧
    (rxbdOff (storedWord S0 4)).toNat + 64 ≤ S0.params.sramBytes ∧ 8 ≤ (rxbdOff (storedWord S0 4)).toNat ∧
    Chepr.statrx (ep0 (at0 0x6a70#16)) ≠ stValid := by decide
theorem wit_LinkInSends : daddrEf (at0 0x6a70#16).daddr = true ∧ Chepr.stattx (ep0 (at0 0x6a70#16)) = stValid ∧
    Chepr.vttx (ep0 (at0 0x6a70#16)) = false ∧ ((storedWord (at0 0x6a70#16) 0).extractLsb' 0 16).toNat +
      ((storedWord (at0 0x6a70#16) 0).extractLsb' 16 16).toNat ≤ S0.params.sramBytes ∧
    Chepr.stattx (ep0 S0) ≠ stValid := by decide
/-- S0 with another value of CHEPR[7]. -/
def at7 (v : Half) : State := { S0 with chepr := S0.chepr.set 7 v }
/-- Endpoint 7 with both directions VALID, and with both flags set. -/
theorem wit_LinkExtCompletes : capEp 6 = 7 ∧
    (daddrEf (at7 0x3030#16).daddr = true ∧ Chepr.stattx (at7 0x3030#16).chepr[capEp 6] = stValid ∧
      Chepr.vttx (at7 0x3030#16).chepr[capEp 6] = false) ∧
    (daddrEf (at7 0x3030#16).daddr = true ∧ Chepr.statrx (at7 0x3030#16).chepr[capEp 6] = stValid ∧
      Chepr.vtrx (at7 0x3030#16).chepr[capEp 6] = false) ∧
    Chepr.vttx (at7 0xb0b0#16).chepr[capEp 6] = true ∧ Chepr.vtrx (at7 0xb0b0#16).chepr[capEp 6] = true := by decide
theorem wit_LinkAgentLimits : (∃ t, linkMove (.setupPacket [1#8]) S0 = .done t) ∧ LinkMove.setupPacket [1#8] ≠ .reset ∧
    S0.badCode = none ∧ (∃ t, linkMove .inPacket (at0 0x6a70#16) = .done t) ∧ ∃ t, linkMove .reset S0 = .done t :=
  ⟨⟨_, rfl⟩, by decide, rfl, ⟨_, rfl⟩, ⟨_, rfl⟩⟩
/-- S0 with `l` as the only line of the script. -/
def onLine (l : ScriptLine) (s : State) : State := { s with script := [l] }
/-- A link move that is done, one that is not enabled, a choice for `CTR_PICK`. -/
theorem wit_EnvironmentLines_moves : (onLine (.link .sof) S0).pos = .idle ∧
    (∃ t, linkMove .sof (onLine (.link .sof) S0) = .done t) ∧ linkMove .inPacket (onLine (.link .inPacket) S0) = .notEnabled ∧
    (onLine (.pick (some 3#5)) S0).script = [.pick (some 3#5)] := ⟨rfl, ⟨_, rfl⟩, by decide, rfl⟩
/-- A SETUP and an OUT packet of 1 and of 64 bytes; `RXBD[0]` with the reserved code, and with an offset that takes the packet
just beyond the SRAM and just up to its end. -/
theorem wit_EnvironmentLines_packets : [1#8].length ≤ 64 ∧ (List.replicate 64 1#8).length ≤ 64 ∧ daddrEf S0.daddr = true ∧
    Chepr.statrx (ep0 S0) ≠ stDisabled ∧ Chepr.statrx (ep0 S0) = stValid ∧ Chepr.vtrx (ep0 S0) = false ∧
    rxReserved (storedWord (putBytes 4 [0x40#8, 0#8, 0#8, 0#8] S0) 4) = true ∧
    rxReserved (storedWord (putBytes 4 [0xff#8, 0x07#8, 0#8, 0x84#8] S0) 4) = false ∧
    S0.params.sramBytes < (rxbdOff (storedWord (putBytes 4 [0xff#8, 0x07#8, 0#8, 0x84#8] S0) 4)).toNat + 2 ∧
    ¬S0.params.sramBytes < (rxbdOff (storedWord (putBytes 4 [0xff#8, 0x07#8, 0#8, 0x84#8] S0) 4)).toNat + 1 := by decide
/-- An armed IN packet that ends one byte beyond the SRAM. -/
theorem wit_EnvironmentLines_in : let s := putBytes 0 [0xc1#8, 0x07#8, 0x40#8, 0x00#8] (at0 0x6a70#16)
    daddrEf s.daddr = true ∧ Chepr.stattx (ep0 s) = stValid ∧ Chepr.vttx (ep0 s) = false ∧
    S0.params.sramBytes + 1 = ((storedWord s 0).extractLsb' 0 16).toNat + ((storedWord s 0).extractLsb' 16 16).toNat := by
  decide
/-- A `Tx` of 65535 and of 65536 bytes; the sizes and the stores at the edges of what is legal; a handler that clears its flag
and one that does not. -/
theorem wit_EnvironmentLines_oracles : 65535 < (List.replicate 65536 0#8).length ∧ (List.replicate 65535 0#8).length ≤ 65535 ∧
    OpLegal S0.params (.setRx 0#16 1024) ∧ ¬OpLegal S0.params (.setRx 0#16 1025) ∧ ¬OpLegal S0.params (.setRx 0#16 0) ∧
    ¬OpLegal S0.params (.store 2047 [1#8, 1#8]) ∧ ClearsServed (.txHandler 0) [.update { clrTx := true }] ∧
    ¬ClearsServed (.rxHandler 0) [.update { clrTx := true }] ∧ ClearsServed (.sof 0) [] := by
  refine ⟨by rw [List.length_replicate]; omega, by rw [List.length_replicate], .inr (.inl (by decide)), ?_, ?_, ?_,
    ⟨fun k _ => ⟨_, List.mem_singleton.2 rfl, rfl⟩, fun k h => (by cases h)⟩, ?_,
    ⟨fun k h => (by cases h), fun k h => (by cases h)⟩⟩
  · simp [OpLegal]
  · simp [OpLegal]
  · simp [OpLegal, S0, State.reset, Params.default]
  · intro h
    obtain ⟨req, h1, h2⟩ := h.2 0 rfl
    simp only [List.mem_singleton, CapOp.update.injEq] at h1
    subst h1
    cases h2
theorem wit_EnvironmentLines_stores : (∀ i, i < 1 → inRegions S0.params (0x3f + i) = true) ∧
    inRegions S0.params 0xc0 = false ∧ inRegions S0.params 0x7ff = false ∧
    capOpFault S0.params (.store 0xbf [1#8]) = some .collaboratorContract ∧
    capOpFault S0.params (.store 0x7ff [1#8]) = none := by decide
/-- A capability's call, a completion token whose effect a line fixes, and the Descriptor Provider. -/
theorem wit_CollaboratorContract : Quiet S0 ∧ actsFor S0 (.sof 6) = some 6 ∧
    actsFor (withOracle (.rxDone 4) { owner := 3, ops := some [] } S0) (.rxDone 4) = some 3 := by decide
theorem wit_EndpointZeroFieldsKept : Quiet S0 ∧ (∃ t, exec .ctrEp0RxOut S0 = .next t) ∧
    ∀ ctr code, Instr.ctrEp0RxOut ≠ .irqReset ctr code := ⟨by decide, ⟨_, rfl⟩, fun _ _ h => by cases h⟩
/-- The state in which the header of P3 is classified. -/
def classifying : State := { at0 0xea60#16 with cs := { S0.cs with setup := some h7 } }
theorem wit_RequestEstablishesTransferInv : Quiet classifying ∧
    (Instr.classDispatch 0x21#8 0x20#8 0#8 0#8 0#16 7#16).header? = some h7 ∧ classifying.cs.setup = some h7 ∧
    classifying.cs.txTail = none ∧ classifying.cs.txTailCb = .none ∧ classifying.cs.postAckCb = .none ∧
    classifying.cs.pendingAddr = none ∧ classifying.cs.rxCb = .none ∧ Chepr.statrx (ep0 classifying) ≠ stValid ∧
    ∃ t, exec (.classDispatch 0x21#8 0x20#8 0#8 0#8 0#16 7#16) classifying = .next t :=
  ⟨by decide, rfl, rfl, rfl, rfl, rfl, rfl, rfl, by decide, ⟨_, rfl⟩⟩
theorem wit_TransferInv_addressed : TransferInv addressed ∧ EndpointZeroInv addressed :=
  ⟨⟨fun _ => rfl, .inl rfl, fun _ h => (by cases h), fun h => absurd rfl h, fun _ => .inl rfl, fun _ h => (by cases h)⟩,
    ⟨fun h => absurd rfl h, fun h => absurd rfl h, fun _ => by decide, fun _ h => by revert h; decide⟩⟩
theorem wit_TransferInv_writing : TransferInv (writing 7 (.ext 1)) ∧ EndpointZeroInv (writing 7 (.ext 1)) :=
  ⟨⟨fun _ => rfl, .inl rfl, fun h => absurd rfl h, fun _ => ⟨h7, rfl, by decide⟩, fun h => absurd rfl h,
      fun _ h => (by cases h)⟩,
    ⟨fun h => absurd rfl h, fun h => absurd rfl h, fun h => (h.elim (absurd rfl) (absurd rfl)),
      fun h => (h.elim (absurd rfl) (absurd rfl))⟩⟩
theorem wit_CompletionsKeepTransferInv : Quiet addressed ∧ addressed.cs.rxCb = .none ∧
    (∃ t, exec .ctrEp0Tx addressed = .next t) ∧ Quiet (writing 7 (.ext 1)) ∧
    Chepr.vtrx (ep0 (writing 7 (.ext 1))) = true ∧ Chepr.setup (ep0 (writing 7 (.ext 1))) = false ∧
    (∃ t, exec .ctrEp0RxOut (writing 7 (.ext 1)) = .next t) ∧ ∃ t, exec .ctrEp0RxSetup addressed = .next t :=
  ⟨by decide, rfl, ⟨_, rfl⟩, by decide, by decide, by decide, ⟨_, rfl⟩, ⟨_, rfl⟩⟩
/-- A SETUP packet arrives in `S0`; the IN packet of SET_ADDRESS has been taken and is served next. -/
theorem wit_StepKeepsTransferInv_setup : RunInv (onLine (.link (.setupPacket [1#8])) S0) ∧ Quiet (onLine (.link (.setupPacket [1#8])) S0) ∧
    Chepr.vttx (ep0 (onLine (.link (.setupPacket [1#8])) S0)) = false ∧
    ∃ t, step (onLine (.link (.setupPacket [1#8])) S0) = .next t :=
  ⟨⟨⟨rfl, fun _ h => (by cases h), fun _ h => (by cases h)⟩,
    ⟨fun _ => rfl, .inl rfl, fun h => absurd rfl h, fun h => absurd rfl h, fun h => absurd rfl h, fun _ h => (by cases h)⟩,
    ⟨fun h => absurd rfl h, fun h => absurd rfl h, fun h => (h.elim (absurd rfl) (absurd rfl)),
      fun h => (h.elim (absurd rfl) (absurd rfl))⟩, fun h => absurd rfl h, fun h => absurd h (by decide),
    fun _ h => (by cases h), fun h => (by cases h), fun h => (by cases h)⟩, by decide, by decide, ⟨_, rfl⟩⟩
theorem wit_StepKeepsTransferInv_served : RunInv { addressed with pos := .code 0#5 } ∧
    ∃ t, step { addressed with pos := .code 0#5 } = .next t :=
  ⟨⟨⟨rfl, fun _ h => (by cases h), fun _ h => (by cases h; decide)⟩,
    ⟨fun _ => rfl, .inl rfl, fun _ h => (by cases h), fun h => absurd rfl h, fun _ => .inl rfl, fun _ h => (by cases h)⟩,
    ⟨fun h => absurd rfl h, fun h => absurd rfl h, fun _ => by decide, fun _ h => by revert h; decide⟩,
    fun h => absurd rfl h, fun h => absurd h (by decide), fun _ h => (by cases h), fun h => (by cases h),
    fun _ => ⟨rfl, by decide⟩⟩, ⟨_, rfl⟩⟩
theorem wit_StepKeepsSram : SramInv S0 ∧ ∃ t, step S0 = .next t := ⟨by decide, ⟨_, rfl⟩⟩
theorem wit_StepKeepsTokens : TokenInv (secondTakes 7#16) ∧ OracleInv (secondTakes 7#16) ∧
    ∃ t, step (secondTakes 7#16) = .next t :=
  ⟨⟨fun _ => rfl, .inl rfl, fun _ h => (by cases h)⟩, by decide, ⟨_, rfl⟩⟩
theorem wit_StepKeepsRegisters : RegisterInv S0 ∧ ∃ t, step S0 = .next t := ⟨⟨.inr rfl, .inr (by decide)⟩, ⟨_, rfl⟩⟩
/-- A bus reset between invocations, latched beside a start of frame, and latched alone. -/
theorem wit_StepKeepsRegisters_reset : ∀ p ∈ [Pos.idle, .causes 0x0600#16, .causes 0x0400#16],
    ResetPending { linkReset S0 with pos := p } ∧ Quiet { linkReset S0 with pos := p } ∧
    (∃ u, linkMove .reset { linkReset S0 with pos := p } = .done u) ∧
    ∃ t, step { linkReset S0 with pos := p } = .next t := by
  intro p hp
  have hc : (p = .idle ∧ (linkReset S0).istrReset = true) ∨ ∃ v, p = .causes v ∧ v.getLsbD 10 = true := by
    simp only [List.mem_cons, List.not_mem_nil, or_false] at hp
    rcases hp with rfl | rfl | rfl
    · exact .inl ⟨rfl, rfl⟩
    · exact .inr ⟨_, rfl, by decide⟩
    · exact .inr ⟨_, rfl, by decide⟩
  refine ⟨⟨hc, rfl⟩, .inl rfl, ⟨_, rfl⟩, ?_⟩
  simp only [List.mem_cons, List.not_mem_nil, or_false] at hp
  rcases hp with rfl | rfl | rfl <;> exact ⟨_, rfl⟩
theorem wit_UndispatchableUnreachable : DispatchableInv S0 ∧ (∃ t, step S0 = .next t) ∧
    ∃ w s1, fetch { S0 with pos := .code 23#5 } = some (w, s1) :=
  ⟨⟨rfl, fun _ h => (by cases h), fun _ h => (by cases h)⟩, ⟨_, rfl⟩, ⟨_, _, rfl⟩⟩

end Sys2Proof.Tests
end

section
/-! SUPPORT. The family of spec/10_state.md: the completion code that ISTR shows (R41) and the write to ISTR (R42). -/

namespace Sys2Proof.Machine

/-- Bits 3:0 of ISTR are those of the completion code (R40). -/
theorem istrValue_low (s : State) :
    (istrValue s).extractLsb' 0 4 = ((istrValue s).extractLsb' 0 5).extractLsb' 0 4 := by
  rw [BitVec.extractLsb'_extractLsb'_of_le (by decide)]

/-- The bits of the completion code are the low bits of ISTR (R40). -/
theorem istrValue_bit (s : State) {k : Nat} (hk : k < 5) :
    (istrValue s).getLsbD k = ((istrValue s).extractLsb' 0 5).getLsbD k := by
  simp [hk]

/-- CTR is set exactly when a slot is pending, where no code is forced (R41). -/
theorem istrValue_ctr_iff {s : State} (h : s.badCode = none) :
    (istrValue s).getLsbD 15 = true ↔ ∃ c, c ∈ pendingSlots s := by
  rw [istrValue_ctr]
  rcases reportedCode_cases h with ⟨hr, hp⟩ | ⟨c, hr, hc⟩
  · simp [hr, hp]
  · simpa [hr] using ⟨c, hc⟩

/-- With CTR set the code shown is that of a pending slot, where no code is forced (R41). -/
theorem istrValue_code_mem {s : State} (h : s.badCode = none) (hctr : (istrValue s).getLsbD 15 = true) :
    (istrValue s).extractLsb' 0 5 ∈ pendingSlots s := by
  rw [istrValue_ctr] at hctr
  rw [istrValue_code]
  rcases reportedCode_cases h with ⟨hr, _⟩ | ⟨c, hr, hc⟩
  · simp [hr] at hctr
  · simpa [hr] using hc

/-- With CTR clear the code reads 0 (R41). -/
theorem istrValue_code_zero {s : State} (hctr : (istrValue s).getLsbD 15 = false) :
    (istrValue s).extractLsb' 0 5 = 0#5 := by
  rw [istrValue_ctr, Option.isSome_eq_false_iff, Option.isNone_iff_eq_none] at hctr
  rw [istrValue_code, hctr, Option.getD_none]

/-- No code shown has bit 3 set, where no code is forced (R41). -/
theorem istrValue_bit3 {s : State} (h : s.badCode = none) : (istrValue s).getLsbD 3 = false := by
  rw [istrValue_bit s (by decide)]
  cases hctr : (istrValue s).getLsbD 15 with
  | false => rw [istrValue_code_zero hctr]; decide
  | true => exact pendingSlots_bit3 (istrValue_code_mem h hctr)

/-- Some slot is pending exactly when some endpoint has a complete flag set. -/
theorem exists_mem_pendingSlots (s : State) : (∃ c, c ∈ pendingSlots s) ↔
    ∃ n : Fin 8, Chepr.vtrx s.chepr[n] = true ∨ Chepr.vttx s.chepr[n] = true := by
  simp only [mem_pendingSlots]
  constructor
  · rintro ⟨c, ⟨n, hf, _⟩ | ⟨n, hf, _⟩⟩
    · exact ⟨n, .inl hf⟩
    · exact ⟨n, .inr hf⟩
  · rintro ⟨n, hf | hf⟩
    · exact ⟨_, .inl ⟨n, hf, rfl⟩⟩
    · exact ⟨_, .inr ⟨n, hf, rfl⟩⟩

/-- A pending slot's code holds the endpoint in bits 3:0 and the direction in bit 4, whose complete flag is set (R101). -/
theorem pendingSlots_endpoint {s : State} {c : BitVec 5} (h : c ∈ pendingSlots s) :
    ∃ n : Fin 8, (c.extractLsb' 0 4).toNat = n.val ∧
      (c.getLsbD 4 = true ∧ Chepr.vtrx s.chepr[n] = true ∨ c.getLsbD 4 = false ∧ Chepr.vttx s.chepr[n] = true) := by
  have rx : ∀ n : Fin 8, ((BitVec.ofNat 5 (16 + n.val)).extractLsb' 0 4).toNat = n.val ∧
      (BitVec.ofNat 5 (16 + n.val)).getLsbD 4 = true := by decide
  have tx : ∀ n : Fin 8, ((BitVec.ofNat 5 n.val).extractLsb' 0 4).toNat = n.val ∧
      (BitVec.ofNat 5 n.val).getLsbD 4 = false := by decide
  rcases (mem_pendingSlots s c).1 h with ⟨n, hf, rfl⟩ | ⟨n, hf, rfl⟩
  · exact ⟨n, (rx n).1, .inl ⟨(rx n).2, hf⟩⟩
  · exact ⟨n, (tx n).1, .inr ⟨(tx n).2, hf⟩⟩

theorem pickSlot_of_mem {c first : BitVec 5} {rest : List (BitVec 5)} (tick : Nat) (h : c ∈ first :: rest) :
    pickSlot (some c) tick first rest = c := if_pos h

/-- The pending slot that `CTR_PICK` names is the one reported, where no code is forced (R41). -/
theorem reportedCode_of_pick {s : State} {c : BitVec 5} (h : s.badCode = none) (hpick : s.pick = some c)
    (hc : c ∈ pendingSlots s) : reportedCode s = some c := by
  simp only [reportedCode, h, hpick]
  cases hp : pendingSlots s with
  | nil => simp [hp] at hc
  | cons d rest =>
    rw [hp] at hc
    cases rest with
    | nil => exact congrArg some (List.mem_singleton.1 hc).symm
    | cons e rest => exact congrArg some (pickSlot_of_mem _ hc)

/-- Naming a pending slot in `CTR_PICK` makes ISTR show its code; the pending slots do not depend on `CTR_PICK`. -/
theorem istrValue_code_of_pick {s : State} {c : BitVec 5} (h : s.badCode = none) (hc : c ∈ pendingSlots s) :
    (istrValue { s with pick := some c }).extractLsb' 0 5 = c := by
  have hr : reportedCode { s with pick := some c } = some c := reportedCode_of_pick h rfl hc
  rw [istrValue_code, hr, Option.getD_some]

/-- Settles O13: the write to ISTR is the write-1-to-clear update of the two cause bits by the model's definition. -/
theorem istrWriteOneToClear : Obligations.IstrWriteOneToClear := by
  intro s w
  rfl

/-- Settles O14: what ISTR shows is nothing, or the code of a pending slot, and `CTR_PICK` can name each of them. -/
theorem istrReportsPendingSlot : Obligations.IstrReportsPendingSlot := by
  intro s h
  refine ⟨(istrValue_ctr_iff h).trans (exists_mem_pendingSlots s), fun hctr => ?_, fun n hf => ?_, fun n hf => ?_,
    istrValue_code_zero, istrValue_bit3 h⟩
  · rw [istrValue_low, istrValue_bit s (by decide : 4 < 5)]
    exact pendingSlots_endpoint (istrValue_code_mem h hctr)
  · exact istrValue_code_of_pick h ((mem_pendingSlots s _).2 (.inl ⟨n, hf, rfl⟩))
  · exact istrValue_code_of_pick h ((mem_pendingSlots s _).2 (.inr ⟨n, hf, rfl⟩))

end Sys2Proof.Machine
end

section
/-! SUPPORT. The family of spec/30_encoding.md: the decoder against the opcode table as data (R110). A row's mask and value
are compared byte by byte for a SETUP packet, bit by bit for a value of ISTR. -/

namespace Sys2Proof

/-- Bytes of a bitwise "and", byte by byte. -/
theorem leBytes_and (n a b : Nat) :
    leBytes n (a &&& b) = List.zipWith (· &&& ·) (leBytes n a) (leBytes n b) := by
  induction n generalizing a b with
  | zero => rfl
  | succ n ih =>
    have hdiv : (a &&& b) / 256 = a / 256 &&& b / 256 := Nat.and_div_two_pow (n := 8)
    rw [leBytes, hdiv, ih, BitVec.ofNat_and]
    rfl

/-- Summing bytes and splitting the sum again gives the bytes back (R72, R73). -/
theorem leBytes_leSum (l : List Byte) : leBytes l.length (leSum l) = l := by
  induction l with
  | nil => rfl
  | cons b l ih =>
    have hb := b.isLt
    have hdiv : (b.toNat + 256 * leSum l) / 256 = leSum l := by omega
    have hlow : BitVec.ofNat 8 (b.toNat + 256 * leSum l) = b := by
      apply BitVec.eq_of_toNat_eq
      rw [BitVec.toNat_ofNat]
      omega
    rw [List.length_cons, leSum, leBytes, hdiv, hlow, ih]

theorem leBytes_toNat_inj {x y : BitVec 64} : leBytes 8 x.toNat = leBytes 8 y.toNat ↔ x = y := by
  refine ⟨fun h => BitVec.eq_of_toNat_eq ?_, fun h => h ▸ rfl⟩
  have hx : x.toNat < 256 ^ 8 := x.isLt
  have hy : y.toNat < 256 ^ 8 := y.isLt
  rw [← Nat.mod_eq_of_lt hx, ← Nat.mod_eq_of_lt hy, ← leSum_leBytes, ← leSum_leBytes, h]

/-- The word of eight bytes matches a mask and a value exactly when its bytes do. -/
theorem leWord_and_eq_iff {l : List Byte} (hl : l.length = 8) (mask value : BitVec 64) :
    BitVec.ofNat 64 (leSum l) &&& mask = value ↔
      List.zipWith (· &&& ·) l (leBytes 8 mask.toNat) = leBytes 8 value.toNat := by
  have hlt : leSum l < 2 ^ 64 := by simpa [hl] using leSum_lt l
  have hbytes : leBytes 8 (leSum l) = l := hl ▸ leBytes_leSum l
  rw [← leBytes_toNat_inj, BitVec.toNat_and, BitVec.toNat_ofNat, Nat.mod_eq_of_lt hlt, leBytes_and, hbytes]

/-- The word of two bytes is the register value they store (R72). -/
theorem leWord_half (b0 b1 : Byte) : BitVec.ofNat 64 (leSum [b0, b1]) = (b1 ++ b0).setWidth 64 := by
  have hsum : leSum [b0, b1] = (b1 ++ b0).toNat := by
    rw [Machine.toNat_append_add]
    simp only [leSum]
    omega
  rw [hsum, BitVec.ofNat_toNat]

/-- The word of a byte without bits 7:5 is the completion code (R101). -/
theorem leWord_code {b : Byte} (hb : b.extractLsb' 5 3 = 0#3) :
    BitVec.ofNat 64 (leSum [b]) = (b.extractLsb' 0 5).setWidth 64 := by
  have hhigh : b.toNat / 32 % 8 = 0 := by
    simpa [BitVec.extractLsb'_toNat, Nat.shiftRight_eq_div_pow] using congrArg BitVec.toNat hb
  have hlow : ((b.extractLsb' 0 5).setWidth 64).toNat = b.toNat % 32 := by
    simp only [BitVec.toNat_setWidth, BitVec.extractLsb'_toNat, Nat.shiftRight_zero]
    omega
  have hlt := b.isLt
  apply BitVec.eq_of_toNat_eq
  rw [hlow, BitVec.toNat_ofNat]
  simp only [leSum]
  omega

/-- A parsed header holds the first eight bytes it was parsed from (R131). -/
theorem take_eight_of_parseBytes {l : List Byte} {h : SetupHeader} (hp : parseBytes l = some h) :
    l.take 8 = h.bytes := by
  unfold parseBytes at hp
  split at hp
  · cases hp
    simp only [SetupHeader.bytes, headerOf, BitVec.extractLsb'_append_eq_right, BitVec.extractLsb'_append_eq_left]
    rfl
  · cases hp

/-- The table is searched row by row: the first row that satisfies `p` gives the mnemonic. -/
theorem mnemonic_find?_cons (p : TableRow → Bool) (r : TableRow) (rows : List TableRow) :
    ((r :: rows).find? p).map TableRow.mnemonic =
      if p r then some r.mnemonic else (rows.find? p).map TableRow.mnemonic := by
  rw [List.find?_cons]
  cases p r <;> rfl

/-- A mask of one bit looks at that bit. -/
theorem and_twoPow_eq_iff (x : BitVec 64) {k : Nat} (hk : BitVec.twoPow 64 k ≠ 0#64) :
    x &&& BitVec.twoPow 64 k = BitVec.twoPow 64 k ↔ x.getLsbD k = true := by
  rw [BitVec.and_twoPow]
  cases x.getLsbD k <;> simp [hk.symm]

/-- The ISTR rows: the first cause bit that is set (R110). -/
theorem tableMnemonic_istr (bits : BitVec 64) (setup : Bool) :
    tableMnemonic .istr bits setup =
      if bits.getLsbD 9 then some "IRQ_SOF"
      else if bits.getLsbD 10 then some "IRQ_RESET"
      else if bits.getLsbD 15 then some "IRQ_CTR" else none := by
  have h9 : bits &&& 0x200#64 = 0x200#64 ↔ _ := and_twoPow_eq_iff bits (k := 9) (by decide)
  have h10 : bits &&& 0x400#64 = 0x400#64 ↔ _ := and_twoPow_eq_iff bits (k := 10) (by decide)
  have h15 : bits &&& 0x8000#64 = 0x8000#64 ↔ _ := and_twoPow_eq_iff bits (k := 15) (by decide)
  simp [tableMnemonic, tableInterrupt, tableRequest, mnemonic_find?_cons, TableRow.hits, h9, h10, h15]

/-- The CC5 rows, over all 32 codes and both values of CHEPR[0].SETUP (R110). -/
theorem tableMnemonic_cc5 : ∀ (c : BitVec 5) (setup : Bool),
    tableMnemonic .cc5 (c.setWidth 64) setup = some (decodeCc5 c setup).mnemonic := by decide

/-- The SETUP8 rows: the pair of each, and the byte of the value that some compare (R110, R185). -/
theorem tableMnemonic_setup8 (h : SetupHeader) (setup : Bool) :
    tableMnemonic .setup8 (BitVec.ofNat 64 (leSum h.bytes)) setup =
      if h.requestType = 0x80#8 ∧ h.request = 0x00#8 then some "GET_STATUS"
      else if h.requestType = 0x00#8 ∧ h.request = 0x05#8 then some "SET_ADDRESS"
      else if (h.requestType = 0x80#8 ∧ h.request = 0x06#8) ∧ h.valueHi = 1#8 then some "GET_DESCRIPTOR_DEVICE"
      else if (h.requestType = 0x80#8 ∧ h.request = 0x06#8) ∧ h.valueHi = 2#8 then some "GET_DESCRIPTOR_CONFIG"
      else if (h.requestType = 0x80#8 ∧ h.request = 0x06#8) ∧ h.valueHi = 3#8 then some "GET_DESCRIPTOR_STRING"
      else if h.requestType = 0x80#8 ∧ h.request = 0x06#8 then some "GET_DESCRIPTOR_OTHER"
      else if (h.requestType = 0x00#8 ∧ h.request = 0x09#8) ∧ h.valueLo = 0#8 then some "SET_CONFIGURATION_0"
      else if (h.requestType = 0x00#8 ∧ h.request = 0x09#8) ∧ h.valueLo = 1#8 then some "SET_CONFIGURATION_1"
      else if h.requestType = 0x00#8 ∧ h.request = 0x09#8 then some "SET_CONFIGURATION_OTHER"
      else if h.requestType = 0x01#8 ∧ h.request = 0x0b#8 then some "SET_INTERFACE"
      else some "CLASS_DISPATCH" := by
  have hmatch := leWord_and_eq_iff (l := h.bytes) rfl
  have hff (b : Byte) : b &&& 255#8 = b := BitVec.and_allOnes
  generalize BitVec.ofNat 64 (leSum h.bytes) = bits at hmatch ⊢
  simp only [tableMnemonic, tableInterrupt, tableRequest, List.cons_append, List.nil_append, mnemonic_find?_cons,
    TableRow.hits, hmatch]
  simp [SetupHeader.bytes, leBytes, hff, and_assoc]

/-- The priority of the SETUP8 rows is the order of the decoder's tests, which compares a further byte for two pairs only:
the descriptor's type, the configuration's value (R110). -/
theorem tableMnemonic_decodeHeader (h : SetupHeader) (setup : Bool) :
    tableMnemonic .setup8 (BitVec.ofNat 64 (leSum h.bytes)) setup = some (decodeHeader h).mnemonic := by
  rw [tableMnemonic_setup8]
  simp only [decodeHeader, apply_ite Instr.mnemonic, apply_ite some]
  by_cases hdesc : h.requestType = 0x80#8 ∧ h.request = 0x06#8
  · simp [hdesc, Instr.mnemonic]
  by_cases hconf : h.requestType = 0x00#8 ∧ h.request = 0x09#8
  · simp [hconf, Instr.mnemonic]
  · simp only [hdesc, hconf, false_and, if_false, Instr.mnemonic]

/-- The ISTR rows give the cause the decoder serves (R110). -/
theorem tableMnemonic_decodeIstr {v : Half} {i : Instr} (hi : decodeIstr v = .ok i) (setup : Bool) :
    tableMnemonic .istr (v.setWidth 64) setup = some i.mnemonic := by
  rw [tableMnemonic_istr]
  unfold decodeIstr at hi
  simp only [BitVec.getLsbD_setWidth, Nat.reduceLT, decide_true, Bool.true_and]
  split_ifs at hi ⊢ <;> cases hi <;> rfl

/-- A register value decodes exactly when one of the three causes is set (R102, R240). -/
theorem decodeIstr_ok_iff (v : Half) : (∃ i, decodeIstr v = .ok i) ↔
    v.getLsbD 9 = true ∨ v.getLsbD 10 = true ∨ v.getLsbD 15 = true := by
  unfold decodeIstr
  split_ifs <;> simp_all

/-- The mask of the three causes (R40, R43) looks at their bits. -/
theorem and_causes_ne_zero_iff (v : Half) : v &&& 0x8600#16 ≠ 0#16 ↔
    v.getLsbD 9 = true ∨ v.getLsbD 10 = true ∨ v.getLsbD 15 = true := by
  have hmask : (0x8600#16 : Half) = BitVec.twoPow 16 9 ||| (BitVec.twoPow 16 10 ||| BitVec.twoPow 16 15) := by decide
  rw [hmask, BitVec.and_or_distrib_left, BitVec.and_or_distrib_left, BitVec.and_twoPow, BitVec.and_twoPow,
    BitVec.and_twoPow]
  cases v.getLsbD 9 <;> cases v.getLsbD 10 <;> cases v.getLsbD 15 <;> decide

/-- Whatever decodes, decodes to the first row of the table that matches its word (R110). -/
theorem tableMnemonic_of_decode {w : EventWord} {i : Instr} (h : decode w = .ok i) :
    tableMnemonic w.format (BitVec.ofNat 64 (leSum (w.bytes.take 8))) w.setup = some i.mnemonic := by
  obtain ⟨format, bytes, setup⟩ := w
  cases format with
  | istr =>
    simp only [decode] at h
    split at h
    · exact leWord_half _ _ ▸ tableMnemonic_decodeIstr h setup
    · cases h
  | cc5 =>
    simp only [decode] at h
    split at h
    · split_ifs at h with hb
      cases h
      exact leWord_code hb ▸ tableMnemonic_cc5 _ setup
    · cases h
  | setup8 =>
    simp only [decode] at h
    split at h
    next header hp =>
      cases h
      exact take_eight_of_parseBytes hp ▸ tableMnemonic_decodeHeader header setup
    next => cases h

/-- Settles O4: the decoder's tests are the rows of the table, in the order of the table; a register value has a row exactly
when one of the bits of the cause mask is set. -/
theorem decodeFollowsTablePriority : Obligations.DecodeFollowsTablePriority := by
  refine ⟨fun w i h => tableMnemonic_of_decode h, fun h => ⟨_, decode_headerEvent h⟩,
    fun c setup => ⟨_, decode_codeEvent c setup⟩, fun v => ?_⟩
  rw [decode_istrEvent, decodeIstr_ok_iff, and_causes_ne_zero_iff]

end Sys2Proof
end

section
/-! SUPPORT. The family of spec/40_setup_result_model.md: a parse of settled memory at an aligned address takes the stored
bytes for the header (R130, R131). -/

namespace Sys2Proof.Machine

/-- On aligned, settled input the parse is that of the eight stored bytes, which always have a header: neither draw of
`parseSetup` is made (R77, R130). -/
theorem parseBytes_storedBytes {s : State} {a : Nat} (hset : s.rxUnsettled = false) (ha : a % 4 = 0) :
    parseBytes (storedBytes s a 8) = some (parseSetup a s) := by
  rw [parseSetup, if_pos ha, memReadBytes_settled hset]
  rfl

/-- Settles O5: the header is the one that the eight stored bytes parse to, and parsing inverts `UnparseSetup` on both
sides. -/
theorem parseRoundTrip : Obligations.ParseRoundTrip := by
  refine ⟨fun s a hset ha => ?_, fun s a h hset ha hstored => ?_⟩
  · have htake := take_eight_of_parseBytes (parseBytes_storedBytes hset ha)
    rw [List.take_of_length_le (storedBytes_length s a 8).le] at htake
    exact htake.symm
  · have hparse := parseBytes_storedBytes hset ha
    rw [hstored, parseBytes_bytes] at hparse
    exact (Option.some.inj hparse).symm

end Sys2Proof.Machine
end

section
/-! SUPPORT. The family of spec/41_endpoint_register_bd.md: the fields of the descriptor words, and what the descriptor
operations store and read back (R103, R104, R160 to R164). -/

namespace Sys2Proof.Machine

/-- A TX descriptor holds the offset and the count it was made of (R103). -/
@[simp] theorem txbdFields_txbdWord (off count : Half) : txbdFields (txbdWord off count) = (off, count) := by
  rw [txbdFields, txbdWord, BitVec.extractLsb'_append_eq_right, BitVec.extractLsb'_append_eq_left]

section rxbdWord
/-! Each field of an RX descriptor holds the operand it was made of (R104). -/

variable (bl : Bool) (nb : BitVec 5) (count : BitVec 10) (off : Half)

@[simp] theorem rxbdOff_rxbdWord : rxbdOff (rxbdWord bl nb count off) = off := by
  rw [rxbdOff, rxbdWord, BitVec.extractLsb'_append_eq_of_add_le (by decide),
    BitVec.extractLsb'_append_eq_of_add_le (by decide), BitVec.extractLsb'_append_eq_right]

@[simp] theorem rxbdCount_rxbdWord : rxbdCount (rxbdWord bl nb count off) = count := by
  rw [rxbdCount, rxbdWord, BitVec.extractLsb'_append_eq_of_add_le (by decide),
    BitVec.extractLsb'_append_eq_of_add_le (by decide), BitVec.extractLsb'_append_eq_left]

@[simp] theorem rxbdNb_rxbdWord : rxbdNb (rxbdWord bl nb count off) = nb := by
  rw [rxbdNb, rxbdWord, BitVec.extractLsb'_append_eq_of_add_le (by decide), BitVec.extractLsb'_append_eq_left]

@[simp] theorem rxbdBl_rxbdWord : rxbdBl (rxbdWord bl nb count off) = bl := by
  rw [rxbdBl, rxbdWord, BitVec.getLsbD_append, if_neg (by decide), BitVec.getLsbD_ofBool]
  simp

end rxbdWord

/-- An RX descriptor of endpoint `n` with the code of the size and a zero count is stored, and nothing else changes
(R162). -/
theorem bdSetRx_spec {s : State} (h : Quiet s) (n : Fin 8) (off : Half) {size : Nat} {c : Bool × BitVec 5}
    (hc : rxCode size = some c) :
    ∃ t, bdSetRx n off size s = some t ∧ t = { s with sram := t.sram } ∧
      storedWord t (rxbdAddr n) = rxbdWord c.1 c.2 0#10 off ∧
      ∀ a, ¬(rxbdAddr n ≤ a ∧ a < rxbdAddr n + 4) → storedByte t a = storedByte s a := by
  refine ⟨putBytes (rxbdAddr n) (leBytes 4 (rxbdWord c.1 c.2 0#10 off).toNat) s, ?_, putBytes_sram_only _ _ _,
    storedWord_putBytes _ _ _, fun a ha => ?_⟩
  · rw [bdSetRx, hc, Option.map_some, memWrite_quiet h]
  · rw [storedByte_putBytes_outside _ _ _ _ (by rw [leBytes_length]; omega)]

/-- On settled memory `BdTxDecode` takes the fields of the stored word (R161). -/
theorem bdTxDecode_settled {s : State} (hset : s.rxUnsettled = false) (n : Fin 8) :
    bdTxDecode n s = (s.params.sramBase + (txbdFields (storedWord s (txbdAddr n))).1.toNat,
      (txbdFields (storedWord s (txbdAddr n))).2.toNat) := by
  rw [bdTxDecode, descriptorWord_settled hset]

/-- On settled memory `BdRxDecode` takes the fields of the stored word (R164). -/
theorem bdRxDecode_settled {s : State} (hset : s.rxUnsettled = false) (n : Fin 8) :
    bdRxDecode n s = (s.params.sramBase + (rxbdOff (storedWord s (rxbdAddr n))).toNat,
      (rxbdCount (storedWord s (rxbdAddr n))).toNat) := by
  rw [bdRxDecode, descriptorWord_settled hset]

/-- `BdTxDecode` reads back what `BdSetTx` stored (R160, R161). -/
theorem bdTxDecode_bdSetTx {s : State} (h : Quiet s) (hset : s.rxUnsettled = false) (n : Fin 8) (off count : Half) :
    bdTxDecode n (bdSetTx n off count s) = (s.params.sramBase + off.toNat, count.toNat) := by
  obtain ⟨hstate, hword, -⟩ := bdSetTx_spec h n off count
  have hset' : (bdSetTx n off count s).rxUnsettled = false := by rw [hstate]; exact hset
  have hparams : (bdSetTx n off count s).params = s.params := by rw [hstate]
  rw [bdTxDecode_settled hset', hword, hparams, txbdFields_txbdWord]

/-- Settles O10: each call stores one word, whose fields are its operands, in settled memory; the decoders take those
fields. -/
theorem descriptorsStored : Obligations.DescriptorsStored := by
  intro s n off count h hset
  obtain ⟨-, hword, hframe⟩ := bdSetTx_spec h n off count
  refine ⟨bdTxDecode_bdSetTx h hset n off count, hword, hframe, fun size bl nb hc => ?_⟩
  obtain ⟨t, ht, hstate, hrx, hframe⟩ := bdSetRx_spec h n off hc
  have hset' : t.rxUnsettled = false := by rw [hstate]; exact hset
  have hparams : t.params = s.params := by rw [hstate]
  refine ⟨t, ht, ?_, by rw [hrx, rxbdBl_rxbdWord], by rw [hrx, rxbdNb_rxbdWord], hframe⟩
  rw [bdRxDecode_settled hset', hrx, hparams, rxbdOff_rxbdWord, rxbdCount_rxbdWord, BitVec.toNat_zero]

end Sys2Proof.Machine
end

section
/-! SUPPORT. The family of spec/42_control_requests.md: each request applies one result to its header, and what that
leaves is `finishRequest_quiet`; what differs is which calls come before, and which field of ControlState (R185 to R197). -/

namespace Sys2Proof.Machine

/-- A zero-length packet leaves no tail, and its token waits for the ACK (R214). -/
theorem afterChunk_nil (cb : TxTok) (c : ControlState) :
    afterChunk [] cb c = { c with txTail := none, txTailCb := .none, postAckCb := cb } := by
  simp [afterChunk]

/-- A `Tx` result does not touch the device address (R211). -/
theorem TxApplied.daddr {data : List Byte} {cb : TxTok} {hd : SetupHeader} {s t : State}
    (ha : TxApplied data cb hd s t) : t.daddr = s.daddr := by rw [ha.state]

/-- The ControlState after a zero-length packet was armed (R211, R214). -/
theorem TxApplied.cs_nil {cb : TxTok} {hd : SetupHeader} {s t : State} (ha : TxApplied [] cb hd s t) :
    t.cs = { s.cs with short := decide (0 < hd.length.toNat), txTail := none, txTailCb := .none, postAckCb := cb } := by
  rw [ha.state, List.take_nil, afterChunk_nil, List.length_nil]

/-- A result applied after a call of the Descriptor Provider, which only answers (R12 (3), R210). -/
theorem finishRequest_provider {s : State} (h : Quiet s) {c : Call} (hc : siteMayAct (callSite c) = false)
    (res : SetupResult) (hd : SetupHeader) :
    ResultApplied res hd { s with calls := s.calls ++ [c] } (finishRequest res hd (perform c s)) := by
  rw [perform_provider h hc]
  exact finishRequest_quiet (s := { s with calls := s.calls ++ [c] }) h res hd

/-- `ERROR` stalls whatever the header asks for: its length 0 is no data stage (R134, R135, R213). -/
theorem finishRequest_mkError {s : State} (h : Quiet s) (hd : SetupHeader) :
    Stalled .unsupported s (finishRequest mkError hd s) := by
  have hr : ResultApplied (.rx 0#16 .none) hd s (finishRequest mkError hd s) := finishRequest_quiet h mkError hd
  rwa [ResultApplied, if_neg fun hn => hn.2 rfl] at hr

/-- `ACK` arms a zero-length packet (R132, R211). -/
theorem finishRequest_ack {s : State} (h : Quiet s) (hd : SetupHeader) :
    TxApplied [] .none hd s (finishRequest ack hd s) := finishRequest_quiet h ack hd

/-- The fixed order of the capabilities, cut at `k` (R11, R196). -/
theorem allCaps_split : ∀ k : Cap, allCaps = allCaps.take k.val ++ k :: allCaps.drop (k.val + 1) := by decide

/-- The order is ascending: only lower capabilities come before `k` (R11, R196). -/
theorem lt_of_mem_take_allCaps : ∀ k : Cap, ∀ j ∈ allCaps.take k.val, j < k := by decide

/-- Settles O34: the two zero bytes are the result, and applying it is `ApplyTx` for any data. -/
theorem getStatus : Obligations.GetStatus := fun _ vlo vhi idx len h =>
  ⟨_, rfl, finishRequest_quiet h (.tx [0x00#8, 0x00#8] .none) ⟨0x80#8, 0x00#8, vlo, vhi, idx, len⟩⟩

/-- Settles O35: the result is applied to the state that holds the deferred address; `ApplyTx` writes neither DADDR nor the
deferred address, and with no data left to send the token waits for the ACK at once. -/
theorem setAddressDeferred : Obligations.SetAddressDeferred := by
  intro s vlo vhi idx len h
  have hq : Quiet { s with cs := { s.cs with pendingAddr := some (addressOperand vlo) } } := h
  have ha := finishRequest_quiet hq (.tx [] .applyAddress) ⟨0x00#8, 0x05#8, vlo, vhi, idx, len⟩
  exact ⟨_, rfl, ha, ha.daddr, by rw [ha.cs_nil]; rfl, by rw [ha.cs_nil]⟩

/-- Settles O36: each of the three is one call of the Descriptor Provider and its answer. -/
theorem descriptorsFromProvider : Obligations.DescriptorsFromProvider := fun _ _ _ _ h =>
  ⟨⟨_, rfl, finishRequest_provider h rfl _ _⟩, ⟨_, rfl, finishRequest_provider h rfl _ _⟩,
    ⟨_, rfl, finishRequest_provider h rfl _ _⟩⟩

/-- Settles O37: both apply `ACK` to the state as it is, and a zero-length packet leaves `configured` alone. -/
theorem acknowledgedRequests : Obligations.AcknowledgedRequests := by
  intro s vlo vhi idx len h
  have ha := finishRequest_ack h ⟨0x00#8, 0x09#8, 0x00#8, vhi, idx, len⟩
  exact ⟨⟨_, rfl, ha, by rw [ha.cs_nil]⟩, ⟨_, rfl, finishRequest_ack h _⟩⟩

/-- Settles O38: both apply `ERROR` to the state as it is. -/
theorem unsupportedRequestsStall : Obligations.UnsupportedRequestsStall := fun _ _ _ _ _ h =>
  ⟨⟨_, rfl, finishRequest_mkError h _⟩, ⟨_, rfl, finishRequest_mkError h _⟩⟩

/-- Settles O39: the seven calls keep the contract of R322 and are logged in order; `ACK` is applied to the state they
leave, with `configured` set. -/
theorem setConfigurationInitialises : Obligations.SetConfigurationInitialises := by
  intro s vhi idx len h
  have hf := performAll_frame h .init
  have hq : Quiet { performAll .init s with cs := { (performAll .init s).cs with configured := true } } := hf.quiet h
  exact ⟨_, _, hf, performAll_calls h .init, rfl, finishRequest_ack hq _⟩

/-- Settles O40: cut at the first capability that accepts, the order splits into those that refuse, the one that handles the
request, and those that are not asked. -/
theorem classRequestHandled : Obligations.ClassRequestHandled := by
  intro s rt rq vlo vhi idx len k h hd hrefuse haccept
  obtain ⟨hf, hcalls, hres⟩ := offerRequest_accept hd k (allCaps.drop (k.val + 1)) (allCaps.take k.val) h
    (fun j hj => hrefuse j (lt_of_mem_take_allCaps k j hj)) haccept
  rw [← allCaps_split k] at hf hcalls hres
  refine ⟨_, _, hf, hcalls, rfl, ?_⟩
  rw [← hres]
  exact finishRequest_quiet (hf.quiet h) _ hd

end Sys2Proof.Machine
end

section
/-! SUPPORT. The family of spec/43_control_data_stages.md: which of its operations a completion of endpoint 0 is, one equation
for each case (R220, R224, R225); what each operation leaves is said in `Laws/Completion.lean` and `Laws/Transfer.lean`. -/

namespace Sys2Proof.Machine

/-- A completion with a tail sends the next chunk and arms TX (R223). -/
theorem controlTxDone_tail {s : State} {rem : List Byte} (h : s.cs.txTail = some rem) : controlTxDone s =
    epUpdate 0 { stattx := some stValid, clrTx := true } (sendChunk rem s.cs.txTailCb s) := by
  simp only [controlTxDone, h]

/-- A completion without a tail ends the transfer, after the post-ACK token (R221, R222). -/
theorem controlTxDone_noTail {s : State} (h : s.cs.txTail = none) :
    controlTxDone s = endTransfer (invokePostAck s) := by
  simp only [controlTxDone, h]

/-- No data stage is expected without a header or with one of length 0 (R224). -/
theorem handleOut_discard {s : State} (h : ∀ hd, s.cs.setup = some hd → hd.length = 0#16) :
    handleOut s = discardOut s := by
  unfold handleOut
  cases hs : s.cs.setup with
  | none => rfl
  | some hd => exact if_pos (h hd hs)

/-- The packet is judged under a header of another length (R224). -/
theorem handleOut_data {s : State} {hd : SetupHeader} (hs : s.cs.setup = some hd) (hl : hd.length ≠ 0#16) :
    handleOut s = handleOutData hd s := by
  simp only [handleOut, hs, if_neg hl]

section handleOutData
variable {s : State} {hd : SetupHeader}

/-- The length comparison comes before the predicate (R225, R303). -/
theorem handleOutData_mismatch (h : Quiet s) (hn : bdRxCount 0 s ≠ hd.length.toNat) :
    handleOutData hd s = finishOut (some .lenMismatch) s := by
  simp only [handleOutData, fence_eq, window_quiet h, if_pos hn]

/-- A packet of the expected length is accepted when there is no predicate (R225). -/
theorem handleOutData_noPredicate (h : Quiet s) (hn : bdRxCount 0 s = hd.length.toNat) (hcb : s.cs.rxCb = .none) :
    handleOutData hd s = finishOut none s := by
  have hok : Config.rxNoPredOk = true := rfl
  simp only [handleOutData, fence_eq, window_quiet h, if_neg (not_not_intro hn), hcb, if_pos hok]

/-- The predicate's answer is the one it has in the state before the call (R225, R227, R304). -/
theorem handleOutData_predicate (h : Quiet s) {tok : ExtTok} (hn : bdRxCount 0 s = hd.length.toNat)
    (hcb : s.cs.rxCb = .ext tok) :
    handleOutData hd s = finishOut (if verdictOf s (.rxDone tok) then none else some .predicateFail)
      (perform (.rxDone tok) s) := by
  simp only [handleOutData, fence_eq, window_quiet h, if_neg (not_not_intro hn), hcb]

end handleOutData

/-- An `Rx` answer is classed as a data stage exactly when its length is the requested one and not zero (R135). -/
theorem classifyResult_rx (n : Half) (cb : RxTok) (hd : SetupHeader) :
    classifyResult (.rx n cb) hd = .receive ↔ n = hd.length ∧ n ≠ 0#16 := by
  simp only [classifyResult]
  split_ifs with hc
  · exact iff_of_true rfl hc
  · exact iff_of_false nofun hc

/-- Settles O27: `SendChunk` writes ControlState and the SRAM, and arming TX afterwards writes CHEPR[0] only. -/
theorem txDoneSendsTail : Obligations.TxDoneSendsTail := by
  intro s rem h ht
  refine ⟨_, rfl, ?_⟩
  rw [controlTxDone_tail ht]
  have hs := sendChunk_state h rem s.cs.txTailCb
  have hm := chunkStored_sendChunk h rem s.cs.txTailCb
  generalize sendChunk rem s.cs.txTailCb s = u at hs hm
  have hq : Quiet u := by rw [hs]; exact h
  rw [epUpdate_quiet hq]
  refine ⟨⟨hm.descriptor, hm.chunk, hm.frame⟩, ?_⟩
  rw [hs]
  simp [setPos, Chepr.updated]

/-- Settles O28: invoking the token leaves CHEPR[0] as it was, and the end of the transfer clears token and header. -/
theorem txDoneEndsTransfer : Obligations.TxDoneEndsTransfer := by
  intro s h ht
  have hi := invokePostAck_quiet h
  obtain ⟨hq, h0⟩ := hi.frame h
  refine ⟨_, _, hi, rfl, ?_⟩
  rw [controlTxDone_noTail ht, endTransfer_quiet hq, h0]
  simp [setPos, Chepr.updated]

/-- Settles O32: both conditions lead to the discard path, which reads nothing of the packet. -/
theorem outDiscarded : Obligations.OutDiscarded := by
  intro s h hd
  refine ⟨_, rfl, ?_⟩
  rw [handleOut_discard hd, discardOut_quiet h]
  simp [setPos, Chepr.updated]

/-- Settles O33: in each of the three cases the handler is `finishOut` of the class the case gives, after the predicate's call
in the last, which keeps the contract of R322. -/
theorem outDataJudged : Obligations.OutDataJudged := by
  intro s hd h hs hl
  have exec_out : exec .ctrEp0RxOut s = .next (setPos .reread (handleOutData hd s)) := by
    rw [← handleOut_data hs hl]; rfl
  rw [exec_out]
  refine ⟨fun hn => ⟨_, rfl, ?_⟩, fun hn hcb => ⟨_, rfl, ?_⟩, fun tok hn hcb => ?_⟩
  · rw [handleOutData_mismatch h hn]
    exact finishOut_rejected h _
  · rw [handleOutData_noPredicate h hn hcb]
    exact finishOut_accepted h
  · have hf := perform_frame h (.rxDone tok)
    refine ⟨_, _, hf, perform_calls h _, rfl, fun hv => ?_, fun hv => ?_⟩ <;>
      rw [handleOutData_predicate h hn hcb, hv]
    · exact finishOut_accepted (hf.quiet h)
    · exact finishOut_rejected (hf.quiet h) _

/-- Settles O42: applying the answer branches on the same condition as its class, and the stall writes no ControlState. -/
theorem rxAnswerArmsOrStalls : Obligations.RxAnswerArmsOrStalls := by
  intro s n cb hd h
  have hr : ResultApplied (.rx n cb) hd s (finishRequest (.rx n cb) hd s) := finishRequest_quiet h _ hd
  have hclass := classifyResult_rx n cb hd
  refine ⟨hclass, fun hc => ?_, fun hc => ?_⟩
  · rwa [ResultApplied, if_pos (hclass.mp hc)] at hr
  · rw [ResultApplied, if_neg (hc ∘ hclass.mpr)] at hr
    exact ⟨hr, by rw [hr]⟩

end Sys2Proof.Machine
end

section
/-! SUPPORT. The family of spec/44_dispatcher.md: the start of frame and the bus reset (R244, R246). The invocation's position
is no part of what the calls and `DeviceInit` leave, so each event's clause is the one of its operation. -/

namespace Sys2Proof.Machine

/-- Where an invocation stands is outside the contract of R322. -/
theorem CapabilityFrame.with_pos {s t : State} (f : CapabilityFrame s t) (p : Pos) :
    CapabilityFrame { s with pos := p } (setPos p t) where
  state := by rw [f.state]; rfl
  endpointZero := f.endpointZero
  memory := f.memory
  registers := f.registers

/-- Where an invocation stands is no part of what `DeviceInit` leaves (R257). -/
theorem Reinitialised.with_pos {s t : State} (r : Reinitialised s t) (p : Pos) :
    Reinitialised { s with pos := p } (setPos p t) where
  state := by rw [r.state]; rfl
  endpointZero := r.endpointZero
  txDescriptor := r.txDescriptor
  rxDescriptor := r.rxDescriptor
  buffers := r.buffers

/-- The collaborators leave every word of entry 0's descriptors as it is (R322 (a)). -/
theorem CapabilityFrame.word_entryZero {s t : State} (f : CapabilityFrame s t) {a : Nat} (ha : a + 4 ≤ 8) :
    storedWord t a = storedWord s a :=
  storedWord_congr fun x _ hx => f.memory x (.inl (by omega))

/-- Both packet buffers of endpoint 0 lie above the descriptors of its entry (R345). -/
theorem entryZero_below_buffers (p : Params) {a : Nat} (ha : inRxBuffer p a = true ∨ inTxBuffer p a = true) : 8 ≤ a := by
  obtain ⟨-, hrx, -, htx, -⟩ := Params.layout p
  simp only [inRxBuffer, inTxBuffer, decide_eq_true_eq] at ha
  omega

/-- After `ControlInit` and the seven calls, `DeviceInit` writes CNTR and DADDR and nothing else (R257). -/
theorem deviceInit_quiet {s : State} (h : Quiet s) :
    deviceInit s = { performAll .init (controlInit s) with cntr := 0x8600#16, daddr := 0x80#8 } := by
  have hc : Quiet (controlInit s) := by rw [(controlInit_spec h).1]; exact h
  have hq : Quiet (performAll .init (controlInit s)) := (performAll_frame hc .init).quiet hc
  unfold deviceInit
  generalize performAll .init (controlInit s) = v at hq
  have hm : (0#16 ++ Config.irqMask : Word).extractLsb' 0 16 &&& Config.irqMask = 0x8600#16 := by decide
  have ha : (0x80#32 : Word).extractLsb' 0 8 = 0x80#8 := by decide
  rw [regWrite_quiet hq, regWrite_quiet (s := pokeReg .cntr _ v) hq]
  simp only [pokeReg, hm, ha]

/-- `DeviceInit` re-initialises: `ControlInit` gives ControlState and entry 0, which the seven calls keep (R255 to R257). -/
theorem deviceInit_reinitialised {s : State} (h : Quiet s) : Reinitialised s (deviceInit s) := by
  obtain ⟨hstate, hchepr, htx, hrx, hmem⟩ := controlInit_spec h
  rw [deviceInit_quiet h]
  generalize controlInit s = u at hstate hchepr htx hrx hmem
  have hu : Quiet u := by rw [hstate]; exact h
  have hcalls := performAll_calls hu .init
  have f := performAll_frame hu .init
  generalize performAll .init u = v at hcalls f
  have hparams : u.params = s.params := by rw [hstate]
  exact {
    state := by rw [f.state, hcalls, hstate]
    endpointZero := by
      rw [f.endpointZero, hchepr]
      simp
    txDescriptor := (f.word_entryZero (by decide)).trans htx
    rxDescriptor := (f.word_entryZero (by decide)).trans hrx
    buffers := fun a ha => (f.memory a (.inr (hparams ▸ ha))).trans (hmem a (entryZero_below_buffers _ ha)) }

/-- Settles O23: the calls keep the contract of R322, and the log is that of all seven in order. -/
theorem startOfFrame : Obligations.StartOfFrame := by
  intro s reset ctr code h
  refine ⟨_, rfl, ?_⟩
  have f := performAll_frame h .sof
  have hcalls := performAll_calls h .sof
  generalize performAll .sof s = u at f hcalls
  exact ⟨f.with_pos _, hcalls⟩

/-- Settles O24: the event is `DeviceInit` on the state that will return true, which drops the whole of ControlState and calls
no token. -/
theorem busReset : Obligations.BusReset := fun s _ _ h =>
  ⟨_, rfl, (deviceInit_reinitialised (s := { s with any := true }) h).with_pos _⟩

end Sys2Proof.Machine
end

section
/-! SUPPORT. The round trips between events and their words (R100 to R102, R110, R131). -/

namespace Sys2Proof

/-- A request is encoded as its header (R100). -/
theorem encode_of_header {i : Instr} {h : SetupHeader} (hi : i.header? = some h) : encode i = headerEvent h := by
  cases i <;> simp only [Instr.header?, Option.some.injEq, reduceCtorEq] at hi <;> subst hi <;> rfl

/-- A well-formed request is what its header decodes to (R110, R185). -/
theorem decodeHeader_of_header {i : Instr} {h : SetupHeader} (hw : i.wf = true) (hi : i.header? = some h) :
    decodeHeader h = i := by
  cases i <;> simp only [Instr.header?, Option.some.injEq, reduceCtorEq] at hi <;> subst hi
  case getDescriptorOther => simp_all [decodeHeader, Instr.wf]
  case setConfigurationOther => simp_all [decodeHeader, Instr.wf]
  case classDispatch =>
    simp only [Instr.wf, standardPair, Bool.not_eq_true', decide_eq_false_iff_not, not_or] at hw
    obtain ⟨h1, h2, h3, h4, h5⟩ := hw
    simp only [decodeHeader, if_neg h1, if_neg h2, if_neg h3, if_neg h4, if_neg h5]
  all_goals rfl

/-- The request a header decodes to has that header (R110, R185). -/
theorem header_decodeHeader (h : SetupHeader) : (decodeHeader h).header? = some h := by
  obtain ⟨rt, rq, vlo, vhi, idx, len⟩ := h
  simp only [decodeHeader]
  split_ifs <;> simp_all [Instr.header?]

/-- The request a header decodes to is well-formed: the "any other value" rows come last (R110). -/
theorem wf_decodeHeader (h : SetupHeader) : (decodeHeader h).wf = true := by
  simp only [decodeHeader]
  split_ifs <;> simp_all [Instr.wf, standardPair, ← imp_iff_not_or]

/-- An ISTR value without bits that R40 does not name is the layout of its named fields. -/
theorem istrWord_of_masked {v : Half} (hv : v &&& 0x861f#16 = v) :
    istrWord (v.getLsbD 9) (v.getLsbD 10) (v.getLsbD 15) (v.extractLsb' 0 5) = v := by
  have hbit (k : Nat) : v.getLsbD k = (v.getLsbD k && (0x861f#16 : Half).getLsbD k) := by
    rw [← BitVec.getLsbD_and, hv]
  apply BitVec.eq_of_getLsbD_eq
  intro k hk
  rw [hbit k]
  interval_cases k <;> simp only [istrWord, BitVec.getLsbD_append] <;> simp

/-- A register value that decodes is encoded again as the layout of its named fields (R102). -/
theorem encode_decodeIstr {v : Half} {i : Instr} (hi : decodeIstr v = .ok i) :
    encode i = istrEvent (istrWord (v.getLsbD 9) (v.getLsbD 10) (v.getLsbD 15) (v.extractLsb' 0 5)) := by
  unfold decodeIstr at hi
  split_ifs at hi <;> cases hi <;> simp_all [encode]

theorem wf_decodeIstr {v : Half} {i : Instr} (hi : decodeIstr v = .ok i) : i.wf = true := by
  unfold decodeIstr at hi
  split_ifs at hi <;> cases hi <;> rfl

theorem wf_decodeCc5 : ∀ (c : BitVec 5) (setup : Bool), (decodeCc5 c setup).wf = true := by decide

/-- A completion code is encoded again as itself, with the SETUP flag of the row (R101, R110). -/
theorem encode_decodeCc5 : ∀ (c : BitVec 5) (setup : Bool), ∃ flag, encode (decodeCc5 c setup) = codeEvent c flag := by
  decide

/-- Settles O2: an ISTR value and a completion code hold the operands of their rows, and a request's header decodes to it. -/
theorem decodeEncodeAgree : Obligations.DecodeEncodeAgree := by
  intro i hw
  cases hi : i.header? with
  | some h => rw [encode_of_header hi, decode_headerEvent, decodeHeader_of_header hw hi]
  | none =>
    cases i <;> simp only [Instr.header?, reduceCtorEq] at hi
    case irqSof => rw [encode, decode_istrEvent, decodeIstr_word]; rfl
    case irqReset => rw [encode, decode_istrEvent, decodeIstr_word]; rfl
    case irqCtr => rw [encode, decode_istrEvent, decodeIstr_word]; rfl
    case ctrEp0Tx => rw [encode, decode_codeEvent]; rfl
    case ctrEp0RxSetup => rw [encode, decode_codeEvent]; rfl
    case ctrEp0RxOut => rw [encode, decode_codeEvent]; rfl
    case ctrCapTx k => rw [encode, decode_codeEvent, decodeCc5_capTx]
    case ctrCapRx k => rw [encode, decode_codeEvent, decodeCc5_capRx]
    case ctrUndispatchable rx low => rw [encode, decode_codeEvent, decodeCc5_bad]

/-- Whatever decodes is well-formed (R110). -/
theorem wf_of_decode {w : EventWord} {i : Instr} (h : decode w = .ok i) : i.wf = true := by
  obtain ⟨format, bytes, setup⟩ := w
  cases format <;> simp only [decode] at h <;> split at h
  · exact wf_decodeIstr h
  · cases h
  · split_ifs at h
    cases h
    exact wf_decodeCc5 _ _
  · cases h
  · cases h
    exact wf_decodeHeader _
  · cases h

/-- Settles O3: the operands of each row are all the bits its match leaves free, and the decoder's tests exclude the values of
earlier rows. -/
theorem encodeDecodeAgree : Obligations.EncodeDecodeAgree := by
  refine ⟨fun w i h => wf_of_decode h, fun h i hi => ?_, fun v i hv hi => ?_, fun c setup i hi => ?_⟩
  · rw [decode_headerEvent] at hi
    cases hi
    exact encode_of_header (header_decodeHeader h)
  · rw [decode_istrEvent] at hi
    rw [encode_decodeIstr hi, istrWord_of_masked hv]
  · rw [decode_codeEvent] at hi
    cases hi
    exact encode_decodeCc5 c setup

/-- Settles O1: twelve words, each decoded by evaluation. -/
theorem specWordsDecode : Obligations.SpecWordsDecode := by
  unfold Obligations.SpecWordsDecode
  decide

end Sys2Proof
end

section
/-! SUPPORT. What an event does to the position in the invocation and to ControlState, whatever the link agent does in the
windows: one inversion lemma for each (R180 to R258). -/

namespace Sys2Proof.Machine

/-- An event always ends in a next state (R300 to R308). -/
theorem exec_next (i : Instr) (s : State) : ∃ t, exec i s = .next t := by
  cases i <;> exact ⟨_, rfl⟩

/-- The fetched word and the state after the fetch, by the position (R97, R181). -/
theorem fetch_cases {s s1 : State} {w : EventWord} (h : fetch s = some (w, s1)) :
    (∃ v, s.pos = .causes v ∧ w = istrEvent v ∧ s1 = s) ∨
    (s.pos = .code 16#5 ∧ s1 = window (errataDelay (window s)) ∧
      w = codeEvent 16#5 (Chepr.setup s1.chepr[(0 : Fin 8)])) ∨
    (∃ c, s.pos = .code c ∧ c ≠ 16#5 ∧ w = codeEvent c false ∧ s1 = s) ∨
    (∃ hd, s.pos = .request hd ∧ w = headerEvent hd ∧ s1 = s) := by
  cases hp : s.pos with
  | idle => simp [fetch, hp] at h
  | reread => simp [fetch, hp] at h
  | causes v =>
    simp only [fetch, hp, Option.some.injEq, Prod.mk.injEq] at h
    exact .inl ⟨v, rfl, h.1.symm, h.2.symm⟩
  | request hd =>
    simp only [fetch, hp, Option.some.injEq, Prod.mk.injEq] at h
    exact .inr (.inr (.inr ⟨hd, rfl, h.1.symm, h.2.symm⟩))
  | code c =>
    by_cases hc : c = 16#5
    · simp only [fetch, hp, if_pos hc, Option.some.injEq, Prod.mk.injEq, peekReg, low_half] at h
      obtain ⟨rfl, rfl⟩ := h
      subst hc
      exact .inr (.inl ⟨rfl, rfl, rfl⟩)
    · simp only [fetch, hp, if_neg hc, Option.some.injEq, Prod.mk.injEq] at h
      exact .inr (.inr (.inl ⟨c, rfl, hc, h.1.symm, h.2.symm⟩))

/-- Where an event leaves the invocation: the causes that remain, the latched code, the latched header, the return, or the
re-read of ISTR (R240, R241, R248, R253). -/
def PosAfter (p : Pos) : Instr → Prop
  | .irqSof reset ctr code => p = .causes (istrWord false reset ctr code)
  | .irqReset ctr code => p = .causes (istrWord false false ctr code)
  | .irqCtr code => p = .code code
  | .ctrEp0RxSetup => p = .reread ∨ ∃ hd, p = .request hd
  | .ctrUndispatchable _ _ => p = .idle
  | _ => p = .reread

theorem exec_pos {i : Instr} {s t : State} (h : exec i s = .next t) : PosAfter t.pos i := by
  cases i <;> obtain rfl := Host.Outcome.next.inj h
  case ctrEp0RxSetup =>
    unfold handleSetup
    dsimp only
    split
    · exact .inl rfl
    · exact .inr ⟨_, rfl⟩
  all_goals rfl

/-- The ControlState an event leaves, by the event and the ControlState before it (R180 to R257). -/
inductive CsAfter (c : ControlState) : Instr → ControlState → Prop
  | kept {i : Instr} (hi : i.header? = none) : CsAfter c i c
  | reset (ctr : Bool) (code : BitVec 5) : CsAfter c (.irqReset ctr code) ControlState.cleared
  | tail {rem : List Byte} (hr : c.txTail = some rem) : CsAfter c .ctrEp0Tx (afterChunk rem c.txTailCb c)
  | ended (hr : c.txTail = none) : CsAfter c .ctrEp0Tx { c with
      pendingAddr := if c.setup ≠ none ∧ c.postAckCb = .applyAddress then none else c.pendingAddr
      postAckCb := .none, setup := none }
  | setup (hd : Option SetupHeader) : CsAfter c .ctrEp0RxSetup { c with
      setup := hd, pendingAddr := none, txTail := none, txTailCb := .none, rxCb := .none, postAckCb := .none }
  | discarded : CsAfter c .ctrEp0RxOut { c with txTail := none, txTailCb := .none }
  | judged : CsAfter c .ctrEp0RxOut { c with rxCb := .none, setup := none }
  | request {i : Instr} {hd : SetupHeader} (hi : i.header? = some hd) (res : SetupResult) :
      CsAfter c i (afterResult res hd c)
  | address {i : Instr} {hd : SetupHeader} (hi : i.header? = some hd) (a : BitVec 7) :
      CsAfter c i (afterResult (.tx [] .applyAddress) hd { c with pendingAddr := some a })
  | configuration (vhi : Byte) (idx len : Half) : CsAfter c (.setConfiguration1 vhi idx len)
      (afterResult ack ⟨0x00#8, 0x09#8, 1#8, vhi, idx, len⟩ { c with configured := true })

/-- The ControlState after a result is applied (R210). -/
theorem finishRequest_cs (res : SetupResult) (hd : SetupHeader) (s : State) :
    (finishRequest res hd s).cs = afterResult res hd s.cs := (finishRequest_access res hd s).cs

/-- A request whose calls left ControlState alone. -/
theorem CsAfter.of_access {i : Instr} {hd : SetupHeader} (hi : i.header? = some hd) {s u : State} (f : AccessFrame s u)
    (res : SetupResult) : CsAfter s.cs i (finishRequest res hd u).cs := by
  rw [finishRequest_cs, f.cs]
  exact .request hi res

/-- The ControlState `ControlTxDone` leaves (R221, R223, R226). -/
theorem controlTxDone_cs (s : State) : CsAfter s.cs .ctrEp0Tx (controlTxDone s).cs := by
  cases ht : s.cs.txTail with
  | some rem =>
    rw [controlTxDone_tail ht, (epUpdate_access _ _ _).cs, (sendChunk_access rem _ s).cs]
    exact .tail ht
  | none =>
    rw [controlTxDone_noTail ht, endTransfer, (epUpdate_access _ _ _).cs]
    have hi : (invokePostAck s).cs = { s.cs with
        pendingAddr := if s.cs.setup ≠ none ∧ s.cs.postAckCb = .applyAddress then none else s.cs.pendingAddr } := by
      unfold invokePostAck
      cases hs : s.cs.setup with
      | none => simp
      | some hd =>
        dsimp only
        rw [(invokeTxDone_access _ hd s).cs]
        simp
    rw [hi]
    exact .ended ht

/-- The ControlState `HandleSetup` leaves up to the header (R182, R184). -/
theorem handleSetup_cs (s : State) : CsAfter s.cs .ctrEp0RxSetup (handleSetup s).cs := by
  have h1 : (window (fence (clearTransfer s))).cs = (clearTransfer s).cs := (window_access _).cs
  unfold handleSetup
  dsimp only
  split
  · rw [setPos_cs, (raiseStall_access _ _).cs, h1]
    exact .setup none
  · rw [(window_access _).cs, h1]
    exact .setup (some _)

/-- The ControlState `HandleOut` leaves (R224, R225). -/
theorem handleOut_cs (s : State) : CsAfter s.cs .ctrEp0RxOut (handleOut s).cs := by
  have hdiscard : CsAfter s.cs .ctrEp0RxOut (discardOut s).cs := by
    rw [discardOut, (epUpdate_access _ _ _).cs]
    exact .discarded
  have hfinish : ∀ {u : State}, AccessFrame s u → ∀ e, CsAfter s.cs .ctrEp0RxOut (finishOut e u).cs := by
    intro u f e
    have he : (finishOut e u).cs = { s.cs with rxCb := .none, setup := none } := by
      cases e with
      | none =>
        rw [finishOut, (epUpdate_access _ _ _).cs, (accessFrame_closed.bdSetTx _ _ _ _).cs, f.cs]
      | some c => rw [finishOut, (epUpdate_access _ _ _).cs, raise_cs, f.cs]
    rw [he]
    exact .judged
  unfold handleOut
  split
  · exact hdiscard
  · split
    · exact hdiscard
    · have h1 : AccessFrame s (window (fence s)) := window_access s
      unfold handleOutData
      dsimp only
      split
      · exact hfinish h1 _
      · split
        · exact hfinish h1 _
        · exact hfinish (h1.trans (perform_access _ _)) _

/-- The ControlState every event leaves. -/
theorem exec_cs {i : Instr} {s t : State} (h : exec i s = .next t) : CsAfter s.cs i t.cs := by
  cases i <;> obtain rfl := Host.Outcome.next.inj h
  case irqSof => rw [setPos_cs, (performAll_access .sof s).cs]; exact .kept rfl
  case irqReset ctr code => rw [setPos_cs, (deviceInit_access _).cs]; exact .reset ctr code
  case irqCtr => exact .kept rfl
  case ctrEp0Tx => exact controlTxDone_cs s
  case ctrEp0RxSetup => exact handleSetup_cs s
  case ctrEp0RxOut => exact handleOut_cs s
  case ctrCapTx k => rw [setPos_cs, (perform_access (.txHandler k) s).cs]; exact .kept rfl
  case ctrCapRx k =>
    rw [setPos_cs, (perform_access (.rxHandler k) _).cs, errataDelay_cs, (window_access s).cs]; exact .kept rfl
  case ctrUndispatchable => exact .kept rfl
  case getStatus => exact .of_access rfl (.refl s) _
  case setAddress vlo vhi idx len =>
    rw [finishRequest_cs]
    exact .address rfl (addressOperand vlo)
  case getDescriptorDevice => exact .of_access rfl (perform_access .device s) _
  case getDescriptorConfig => exact .of_access rfl (perform_access (.config _) s) _
  case getDescriptorString => exact .of_access rfl (perform_access (.string _) s) _
  case getDescriptorOther => exact .of_access rfl (.refl s) _
  case setConfiguration0 => exact .of_access rfl (.refl s) _
  case setConfiguration1 vhi idx len =>
    rw [finishRequest_cs, (performAll_access .init s).cs]
    exact .configuration vhi idx len
  case setConfigurationOther => exact .of_access rfl (.refl s) _
  case setInterface => exact .of_access rfl (.refl s) _
  case classDispatch rt rq vlo vhi idx len =>
    exact .of_access rfl (offerRequest_access ⟨rt, rq, vlo, vhi, idx, len⟩ allCaps s) _

end Sys2Proof.Machine
end

section
/-! SUPPORT. What every step keeps, whatever the link agent does in the windows: the SRAM (R71), the tokens (R69 (a), (b), (f)),
admitted ORACLE lines (R322), codes that name a slot (R41), and the values of CNTR and DADDR (R43, R45). -/

namespace Sys2Proof.Machine

/-- A step respects a loose relation, but for the lines of the script that are outside it: a link move, a power-on, an ORACLE
line, a choice for `CTR_PICK`. -/
theorem step_loose {P : State → State → Prop} (hP : Loose P) {s t : State} (h : step s = .next t) :
    ∃ u, t = { u with tick := u.tick + 1 } ∧ (P s u ∨ s.pos = .idle ∧ ∃ line rest, s.script = line :: rest ∧
      (P { s with script := rest } u ∨
        (∃ m, line = .link m ∧ linkMove m { s with script := rest } = .done u) ∨
        (line = .por ∧ u = powerOn { s with script := rest }) ∨
        (∃ o, line = .oracle o ∧ oracleFault s.params o = none ∧ u = { s with script := rest, oracles := o :: s.oracles }) ∨
        ∃ c, line = .pick c ∧ u = { s with script := rest, pick := c })) := by
  obtain ⟨u, rfl, hu⟩ := step_cases h
  refine ⟨u, rfl, ?_⟩
  rcases hu with ⟨w, s1, i, hf, _, he⟩ | ⟨w, s1, hf, _, rfl⟩ | ⟨_, rfl⟩ | ⟨_, _, rfl⟩ | ⟨hp, line, rest, hs, hl⟩
  · exact .inl (hP.two (hP.fetch hf) (hP.exec he))
  · exact .inl (hP.two (hP.fetch hf) (hP.returnDispatch _ _))
  · exact .inl (hP.rereadIstr s)
  · left
    split
    · exact hP.enterDispatch s
    · exact hP.refl s
  · refine .inr ⟨hp, line, rest, hs, ?_⟩
    rcases runLine_cases hl with rfl | h | ⟨_, rfl⟩ | ⟨_, rfl⟩ | h | h | h
    · exact .inl (hP.refl _)
    · exact .inr (.inl h)
    · exact .inl (hP.enterDispatch _)
    · exact .inl (hP.deviceInit _)
    · exact .inr (.inr (.inl h))
    · exact .inr (.inr (.inr (.inl h)))
    · exact .inr (.inr (.inr (.inr h)))

/-- Settles O57: every access and every link move keeps the canonical form and the range, and a power-on empties the list. -/
theorem stepKeepsSram : Obligations.StepKeepsSram := by
  intro s t hi h
  obtain ⟨u, rfl, hu⟩ := step_loose sramInv_loose h
  suffices hs : SramInv u from hs
  rcases hu with hu | ⟨_, line, rest, _, hu | ⟨m, _, hm⟩ | ⟨_, rfl⟩ | ⟨o, _, _, rfl⟩ | ⟨c, _, rfl⟩⟩
  · exact hu hi
  · exact hu hi
  · exact linkMove_sramInv hm hi
  · exact ⟨rfl, rfl⟩
  · exact hi
  · exact hi

/-! ### The tokens -/

/-- R69 (a), (b) and (f) as properties of ControlState alone. -/
structure TokensKept (c : ControlState) : Prop where
  tailToken : c.txTail = none → c.txTailCb = .none
  oneToken : c.txTailCb = .none ∨ c.postAckCb = .none
  tailLength : ∀ rem, c.txTail = some rem → rem.length ≤ Config.maxDataLen

theorem tokenInv_iff (s : State) : TokenInv s ↔ TokensKept s.cs :=
  ⟨fun ⟨a, b, c⟩ => ⟨a, b, c⟩, fun ⟨a, b, c⟩ => ⟨a, b, c⟩⟩

/-- What `SendChunk` leaves keeps the tokens apart, whatever was there before (R214). -/
theorem TokensKept.afterChunk {rem : List Byte} (hl : rem.length ≤ Config.maxDataLen) (cb : TxTok) (c : ControlState) :
    TokensKept (afterChunk rem cb c) := by
  unfold Machine.afterChunk
  split
  · refine ⟨nofun, .inr rfl, fun r hr => ?_⟩
    cases hr
    rw [List.length_drop]
    omega
  · exact ⟨fun _ => rfl, .inl rfl, nofun⟩

/-- A response cut at a requested length of sixteen bits keeps the bound of R132. -/
theorem take_requested_le (data : List Byte) (n : Half) :
    (data.take (min data.length n.toNat)).length ≤ Config.maxDataLen := by
  have hn := n.isLt
  rw [List.length_take]
  simp only [Config.maxDataLen]
  omega

theorem TokensKept.afterResult {c : ControlState} (hc : TokensKept c) (res : SetupResult) (hd : SetupHeader) :
    TokensKept (afterResult res hd c) := by
  cases res with
  | tx data cb => exact .afterChunk (take_requested_le data hd.length) _ _
  | rx n cb =>
    simp only [Machine.afterResult]
    split
    · exact ⟨hc.tailToken, hc.oneToken, hc.tailLength⟩
    · exact hc

/-- Every event keeps R69 (a), (b) and (f). -/
theorem CsAfter.tokensKept {c d : ControlState} {i : Instr} (h : CsAfter c i d) (hc : TokensKept c) : TokensKept d := by
  cases h with
  | kept _ => exact hc
  | reset ctr code => exact ⟨fun _ => rfl, .inl rfl, nofun⟩
  | tail hr => exact .afterChunk (hc.tailLength _ hr) _ _
  | ended hr => exact ⟨hc.tailToken, .inr rfl, hc.tailLength⟩
  | setup hd => exact ⟨fun _ => rfl, .inl rfl, nofun⟩
  | discarded => exact ⟨fun _ => rfl, .inl rfl, nofun⟩
  | judged => exact ⟨hc.tailToken, hc.oneToken, hc.tailLength⟩
  | request _ res => exact hc.afterResult res _
  | address _ a =>
    exact .afterResult (c := { c with pendingAddr := some a }) ⟨hc.tailToken, hc.oneToken, hc.tailLength⟩ _ _
  | configuration vhi idx len =>
    exact .afterResult (c := { c with configured := true }) ⟨hc.tailToken, hc.oneToken, hc.tailLength⟩ _ _

/-- Fetching an event word does not touch ControlState (R97). -/
theorem fetch_cs {s s1 : State} {w : EventWord} (h : fetch s = some (w, s1)) : s1.cs = s.cs := by
  rcases fetch_cases h with ⟨_, _, _, rfl⟩ | ⟨_, rfl, _⟩ | ⟨_, _, _, _, rfl⟩ | ⟨_, _, _, rfl⟩
  · rfl
  · rw [(window_access _).cs, errataDelay_cs, (window_access s).cs]
  · rfl
  · rfl

theorem enterDispatch_cs (s : State) : (enterDispatch s).cs = s.cs :=
  (window_access (window s)).cs.trans (window_access s).cs

/-- A step leaves ControlState as one of the events does; between events it leaves it alone or clears it. -/
theorem step_cs {s t : State} (h : step s = .next t) : ∃ i, CsAfter s.cs i t.cs := by
  have kept : ∀ {u : State}, u.cs = s.cs → ∃ i, CsAfter s.cs i u.cs := fun {u} hu => by
    rw [hu]
    exact ⟨.irqCtr 0#5, .kept rfl⟩
  obtain ⟨u, rfl, hu⟩ := step_cases h
  suffices hc : ∃ i, CsAfter s.cs i u.cs from hc
  rcases hu with ⟨w, s1, i, hf, _, he⟩ | ⟨w, s1, hf, _, rfl⟩ | ⟨_, rfl⟩ | ⟨_, _, rfl⟩ | ⟨hp, line, rest, hs, hl⟩
  · refine ⟨i, ?_⟩
    rw [← fetch_cs hf]
    exact exec_cs he
  · exact kept ((returnDispatch_cs _ _).trans (fetch_cs hf))
  · exact kept (window_access s).cs
  · split
    · exact kept (enterDispatch_cs s)
    · exact kept rfl
  · rcases runLine_cases hl with rfl | ⟨m, _, hm⟩ | ⟨_, rfl⟩ | ⟨_, rfl⟩ | ⟨_, rfl⟩ | ⟨o, _, _, rfl⟩ | ⟨c, _, rfl⟩
    · exact kept rfl
    · exact kept (linkMove_frame hm).cs
    · exact kept (enterDispatch_cs _)
    · rw [(deviceInit_access _).cs]
      exact ⟨_, .reset false 0#5⟩
    · exact ⟨_, .reset false 0#5⟩
    · exact kept rfl
    · exact kept rfl

/-- The ORACLE lines in force stay admitted (R132, R163, R322; log 12). -/
theorem step_keeps_oracleInv {s t : State} (ho : OracleInv s) (h : step s = .next t) : OracleInv t := by
  have same : ∀ {u : State}, u.oracles = s.oracles → u.params = s.params → OracleInv u := by
    intro u h1 h2
    unfold OracleInv
    rw [h1, h2]
    exact ho
  obtain ⟨u, rfl, hu⟩ := step_loose fixed_loose h
  suffices hs : OracleInv u from hs
  rcases hu with ⟨hp, _, ho', _⟩ | ⟨_, line, rest, _, ⟨hp, _, ho', _⟩ | ⟨m, _, hm⟩ | ⟨_, rfl⟩ | ⟨o, _, hok, rfl⟩ | ⟨c, _, rfl⟩⟩
  · exact same ho' hp
  · exact same ho' hp
  · exact same (linkMove_frame hm).oracles (linkMove_frame hm).params
  · exact same rfl rfl
  · intro o' ho'
    rcases List.mem_cons.1 ho' with rfl | ho'
    · exact hok
    · exact ho o' ho'
  · exact same rfl rfl

/-- Settles O58: every event keeps (a), (b) and (f), and a line enters the ORACLE lines only past `oracleFault`. -/
theorem stepKeepsTokens : Obligations.StepKeepsTokens := by
  intro s t hi ho h
  obtain ⟨i, hc⟩ := step_cs h
  exact ⟨(tokenInv_iff t).2 (hc.tokensKept ((tokenInv_iff s).1 hi)), step_keeps_oracleInv ho h⟩

/-! ### The completion codes -/

/-- After a request ISTR is read again (R180, R241). -/
theorem PosAfter.of_header {p : Pos} {i : Instr} {hd : SetupHeader} (h : PosAfter p i) (hi : i.header? = some hd) :
    p = .reread := by
  cases i <;> simp only [Instr.header?, reduceCtorEq] at hi <;> exact h

/-- A completion code leaves no code and no causes latched (R240, R249 to R253). -/
theorem PosAfter.of_code {p : Pos} {c : BitVec 5} {b : Bool} (h : PosAfter p (decodeCc5 c b)) :
    p = .reread ∨ p = .idle ∨ ∃ hd, p = .request hd := by
  unfold decodeCc5 at h
  dsimp only at h
  split_ifs at h
  · exact .inr (.inl h)
  · exact h.imp id .inr
  all_goals exact .inl h

/-- What remains of the causes of a read keeps its completion code (R240). -/
theorem PosAfter.of_causes {p : Pos} {v : Half} {i : Instr} (hi : decodeIstr v = .ok i) (h : PosAfter p i) :
    (∃ reset ctr, p = .causes (istrWord false reset ctr (v.extractLsb' 0 5))) ∨ p = .code (v.extractLsb' 0 5) := by
  unfold decodeIstr at hi
  split_ifs at hi <;> cases hi
  · exact .inl ⟨_, _, h⟩
  · exact .inl ⟨_, _, h⟩
  · exact .inr h

/-- Bit 3 of an ISTR value is bit 3 of its code (R40, R102). -/
theorem istrWord_bit3 (sof reset ctr : Bool) (code : BitVec 5) :
    (istrWord sof reset ctr code).getLsbD 3 = code.getLsbD 3 := by
  simp only [istrWord, BitVec.getLsbD_append]
  simp

/-- A code that names a slot is dispatchable (R101, R253). -/
theorem decodeCc5_dispatchable : ∀ (c : BitVec 5) (b rx : Bool) (low : BitVec 3), c.getLsbD 3 = false →
    decodeCc5 c b ≠ .ctrUndispatchable rx low := by decide

/-- A position without a latched code or cause is clear of bad codes. -/
theorem DispatchableInv.of_pos {s : State} (hb : s.badCode = none) (hv : ∀ v, s.pos ≠ .causes v)
    (hc : ∀ c, s.pos ≠ .code c) : DispatchableInv s :=
  ⟨hb, fun v h => absurd h (hv v), fun c h => absurd h (hc c)⟩

theorem DispatchableInv.of_idle {s : State} (hb : s.badCode = none) (hp : s.pos = .idle) : DispatchableInv s :=
  .of_pos hb (fun v h => by rw [hp] at h; cases h) (fun c h => by rw [hp] at h; cases h)

/-- An invocation latches only what ISTR shows (R41, R242). -/
theorem DispatchableInv.enterDispatch {s : State} (hb : s.badCode = none) : DispatchableInv (enterDispatch s) where
  forced := (fixed_loose.enterDispatch s).2.1.trans hb
  cause := fun v hv => by
    cases hv
    rw [peekReg, low_half]
    exact istrValue_bit3 ((window_frame s).badCode.trans hb)
  code := fun c hc => by cases hc

/-- The re-read latches only what ISTR shows (R41, R241). -/
theorem DispatchableInv.rereadIstr {s : State} (hb : s.badCode = none) : DispatchableInv (rereadIstr s) where
  forced := (window_frame s).badCode.trans hb
  cause := fun v hv => by
    cases hv
    rw [peekReg, low_half, BitVec.getLsbD_and, istrValue_bit3 ((window_frame s).badCode.trans hb), Bool.false_and]
  code := fun c hc => by cases hc

/-- An event keeps the run clear of bad codes: what it latches is what was latched. -/
theorem DispatchableInv.exec {s s1 t : State} {w : EventWord} {i : Instr} (hi : DispatchableInv s)
    (hf : fetch s = some (w, s1)) (hd : decode w = .ok i) (he : exec i s1 = .next t) : DispatchableInv t := by
  have hb : t.badCode = none := (fixed_loose.exec he).2.1.trans ((fixed_loose.fetch hf).2.1.trans hi.forced)
  have hpos := exec_pos he
  rcases fetch_cases hf with ⟨v, hp, rfl, _⟩ | ⟨_, _, rfl⟩ | ⟨c, _, _, rfl, _⟩ | ⟨hd', _, rfl, _⟩
  · rw [decode_istrEvent] at hd
    have h3 : (v.extractLsb' 0 5).getLsbD 3 = false := by simpa using hi.cause v hp
    rcases hpos.of_causes hd with ⟨reset, ctr, e⟩ | e
    · refine ⟨hb, fun v' hv => ?_, fun c hc => by rw [e] at hc; cases hc⟩
      rw [e] at hv
      cases hv
      rw [istrWord_bit3, h3]
    · refine ⟨hb, fun v' hv => (by rw [e] at hv; cases hv), fun c hc => ?_⟩
      rw [e] at hc
      cases hc
      exact h3
  · rw [decode_codeEvent] at hd
    cases hd
    rcases hpos.of_code with e | e | ⟨_, e⟩ <;> exact .of_pos hb (by rw [e]; nofun) (by rw [e]; nofun)
  · rw [decode_codeEvent] at hd
    cases hd
    rcases hpos.of_code with e | e | ⟨_, e⟩ <;> exact .of_pos hb (by rw [e]; nofun) (by rw [e]; nofun)
  · rw [decode_headerEvent] at hd
    cases hd
    have e := hpos.of_header (header_decodeHeader hd')
    exact .of_pos hb (by rw [e]; nofun) (by rw [e]; nofun)

/-- Every step keeps the run clear of bad codes. -/
theorem step_keeps_dispatchable {s t : State} (hi : DispatchableInv s) (h : step s = .next t) : DispatchableInv t := by
  obtain ⟨u, rfl, hu⟩ := step_cases h
  suffices hd : DispatchableInv u from ⟨hd.forced, hd.cause, hd.code⟩
  rcases hu with ⟨w, s1, i, hf, hd, he⟩ | ⟨w, s1, hf, _, rfl⟩ | ⟨_, rfl⟩ | ⟨_, _, rfl⟩ | ⟨hp, line, rest, hs, hl⟩
  · exact hi.exec hf hd he
  · exact .of_idle ((fixed_loose.fetch hf).2.1.trans hi.forced) rfl
  · exact .rereadIstr hi.forced
  · split
    · exact .enterDispatch hi.forced
    · exact hi
  · rcases runLine_cases hl with rfl | ⟨m, _, hm⟩ | ⟨_, rfl⟩ | ⟨_, rfl⟩ | ⟨_, rfl⟩ | ⟨o, _, _, rfl⟩ | ⟨c, _, rfl⟩
    · exact .of_idle hi.forced hp
    · exact .of_idle ((linkMove_frame hm).badCode.trans hi.forced) ((linkMove_frame hm).pos.trans hp)
    · exact .enterDispatch hi.forced
    · exact .of_idle ((deviceInit_access _).badCode.trans hi.forced) ((deviceInit_access _).pos.trans hp)
    · exact .of_idle rfl rfl
    · exact .of_idle hi.forced hp
    · exact .of_idle hi.forced hp

theorem step_params {s t : State} (h : step s = .next t) : t.params = s.params := by
  obtain ⟨u, rfl, hu⟩ := step_loose fixed_loose h
  rcases hu with ⟨hp, _⟩ | ⟨_, line, rest, _, ⟨hp, _⟩ | ⟨m, _, hm⟩ | ⟨_, rfl⟩ | ⟨o, _, _, rfl⟩ | ⟨c, _, rfl⟩⟩
  · exact hp
  · exact hp
  · exact (linkMove_frame hm).params
  all_goals rfl

/-- Settles O60: a code is latched only from ISTR, which shows codes of pending slots when none is forced. -/
theorem undispatchableUnreachable : Obligations.UndispatchableUnreachable := by
  intro s hi
  refine ⟨fun t h => ⟨step_keeps_dispatchable hi h, step_params h⟩, fun w s1 rx low hf hd => ?_⟩
  rcases fetch_cases hf with ⟨v, _, rfl, _⟩ | ⟨_, _, rfl⟩ | ⟨c, hp, _, rfl, _⟩ | ⟨hd', _, rfl, _⟩
  · rw [decode_istrEvent] at hd
    unfold decodeIstr at hd
    split_ifs at hd <;> cases hd
  · rw [decode_codeEvent] at hd
    exact decodeCc5_dispatchable _ _ _ _ (by decide) (Except.ok.inj hd)
  · rw [decode_codeEvent] at hd
    exact decodeCc5_dispatchable _ _ _ _ (hi.code c hp) (Except.ok.inj hd)
  · rw [decode_headerEvent] at hd
    have hh := header_decodeHeader hd'
    rw [Except.ok.inj hd] at hh
    cases hh

/-! ### The control registers -/

/-- A link move leaves CNTR alone, and DADDR but for a bus reset, which clears it (R270, R276). -/
theorem registerInv_linkMove {m : LinkMove} {s t : State} (hm : linkMove m s = .done t) (h : RegisterInv s) :
    RegisterInv t := by
  refine ⟨(linkMove_frame hm).cntr ▸ h.mask, ?_⟩
  rcases linkMove_cases hm with ⟨_, _, _, _, _, _, _, _, rfl⟩ | ⟨_, _, _, _, rfl⟩ | ⟨_, _, _, rfl⟩ | ⟨_, rfl⟩ |
    ⟨_, rfl⟩ | ⟨_, _, _, _, _, rfl⟩ | ⟨_, _, _, _, _, rfl⟩
  · rw [landPacket, setRxCount, putByte, putByte, putBytes_sram_only]
    exact h.address
  · exact h.address
  · exact h.address
  · exact .inl rfl
  all_goals exact h.address

/-- CNTR and DADDR take only the values of R43 and R45, a bus reset included. -/
theorem registerInv_loose : Loose fun s t => RegisterInv s → RegisterInv t where
  refl := fun _ h => h
  trans := fun _ _ _ h1 h2 h => h2 (h1 h)
  window := window_induct (P := fun s t => RegisterInv s → RegisterInv t) (fun _ h => h) (fun _ _ _ h1 h2 h => h2 (h1 h))
    (fun _ _ h => ⟨h.mask, h.address⟩) fun _ _ _ => registerInv_linkMove
  byte := fun _ _ _ _ h => ⟨h.mask, h.address⟩
  draw := fun _ h => ⟨h.mask, h.address⟩
  chepr := fun _ _ h => ⟨h.mask, h.address⟩
  cs := fun _ _ h => ⟨h.mask, h.address⟩
  invocation := fun _ _ _ _ h => ⟨h.mask, h.address⟩
  logs := fun _ _ _ h => ⟨h.mask, h.address⟩
  mask := fun _ h => ⟨.inr rfl, h.address⟩
  address := fun _ _ hd h => ⟨h.mask, .inr hd⟩
  causes := fun _ _ _ _ h => ⟨h.mask, h.address⟩

/-- Every step keeps CNTR and DADDR at values CORE or a reset writes. -/
theorem step_keeps_registerInv {s t : State} (hi : RegisterInv s) (h : step s = .next t) : RegisterInv t := by
  obtain ⟨u, rfl, hu⟩ := step_loose registerInv_loose h
  suffices hs : RegisterInv u from ⟨hs.mask, hs.address⟩
  have hi' : ∀ rest, RegisterInv { s with script := rest } := fun _ => ⟨hi.mask, hi.address⟩
  rcases hu with hu | ⟨_, line, rest, _, hu | ⟨m, _, hm⟩ | ⟨_, rfl⟩ | ⟨o, _, _, rfl⟩ | ⟨c, _, rfl⟩⟩
  · exact hu hi
  · exact hu (hi' rest)
  · exact registerInv_linkMove hm (hi' rest)
  · exact ⟨.inl rfl, .inl rfl⟩
  · exact ⟨hi.mask, hi.address⟩
  · exact ⟨hi.mask, hi.address⟩

/-! ### A bus reset that waits to be served -/

/-- Only another reset or a start of frame is a move then, and both keep it waiting (R276). -/
theorem ResetPending.linkMove {s u : State} {m : LinkMove} (hr : ResetPending s) (h : linkMove m s = .done u) :
    (m = .reset ∨ m = .sof) ∧ ResetPending u := by
  have hoff : daddrEf s.daddr = false := by rw [hr.disabled]; decide
  by_cases h1 : m = .reset
  · subst h1
    cases h
    exact ⟨.inl rfl, hr.cause.imp (fun ⟨hp, _⟩ => ⟨hp, rfl⟩) id, rfl⟩
  · by_cases h2 : m = .sof
    · subst h2
      cases h
      exact ⟨.inr rfl, hr.cause, hr.disabled⟩
    · rw [linkMove_disabled hoff h1 h2] at h
      cases h

/-- What waits between invocations is latched by the next one (R242). -/
theorem ResetPending.enterDispatch {s : State} (hq : Quiet s) (hr : s.istrReset = true) (hd : s.daddr = 0#8) :
    ResetPending (enterDispatch s) := by
  rw [enterDispatch_quiet hq]
  exact ⟨.inr ⟨_, rfl, (istrValue_reset s).trans hr⟩, hd⟩

/-- What `DeviceInit` writes (R257). -/
abbrev DeviceReady (t : State) : Prop := t.cs = ControlState.cleared ∧ t.cntr = 0x8600#16 ∧ t.daddr = 0x80#8

theorem deviceInit_ready {s : State} (hq : Quiet s) : DeviceReady (deviceInit s) := by
  rw [DeviceReady, (deviceInit_reinitialised hq).state]
  exact ⟨rfl, rfl, rfl⟩

/-- A latched bus reset decodes to a start of frame that leaves it latched, or to itself (R110, R240). -/
theorem decodeIstr_of_reset {v : Half} (hv : v.getLsbD 10 = true) : decodeIstr v =
    .ok (if v.getLsbD 9 then .irqSof true (v.getLsbD 15) (v.extractLsb' 0 5)
      else .irqReset (v.getLsbD 15) (v.extractLsb' 0 5)) := by
  simp only [decodeIstr, hv, if_true]
  split_ifs <;> rfl

/-- A latched bus reset is served before any completion: a start of frame leaves it latched, and then `DeviceInit` runs
(R240, R246). -/
theorem ResetPending.exec {s t : State} {v : Half} {i : Instr} (hr : ResetPending s) (hq : Quiet s)
    (hv : v.getLsbD 10 = true) (hd : decodeIstr v = .ok i) (he : exec i s = .next t) :
    ResetPending t ∨ DeviceReady t := by
  rw [decodeIstr_of_reset hv] at hd
  obtain rfl := Except.ok.inj hd
  split at he
  · obtain rfl := Host.Outcome.next.inj he
    have f := performAll_frame hq .sof
    generalize performAll .sof s = u at f
    exact .inl ⟨.inr ⟨_, rfl, (istrWord_fields _ _ _ _).2.1⟩, by rw [setPos_daddr, f.state]; exact hr.disabled⟩
  · obtain rfl := Host.Outcome.next.inj he
    have h1 := deviceInit_ready (s := { s with any := true }) hq
    generalize deviceInit { s with any := true } = u at h1
    exact .inr h1

/-- Settles O59: DADDR is written only with the enable bit or by a reset; a reset that waits is kept by everything but the
`DeviceInit` it waits for and a power-on. -/
theorem stepKeepsRegisters : Obligations.StepKeepsRegisters := by
  refine ⟨fun s t => step_keeps_registerInv, fun s hr => ⟨fun m u => hr.linkMove, fun t hq h => ?_⟩⟩
  obtain ⟨u, rfl, hu⟩ := step_cases h
  suffices hs : ResetPending u ∨ DeviceReady u ∨ (s.pos = .idle ∧ s.script.head? = some .por) from
    hs.imp_left fun hp => ⟨hp.cause, hp.disabled⟩
  rcases hr.cause with ⟨hp, hreset⟩ | ⟨v, hp, hv⟩
  · rcases hu with ⟨w, s1, i, hf, _⟩ | ⟨w, s1, hf, _⟩ | ⟨hp', _⟩ | ⟨_, _, rfl⟩ | ⟨_, line, rest, hs, hl⟩
    · simp [fetch, hp] at hf
    · simp [fetch, hp] at hf
    · rw [hp] at hp'
      cases hp'
    · left
      split
      · exact .enterDispatch hq hreset hr.disabled
      · exact hr
    · have hr' : ResetPending { s with script := rest } := ⟨hr.cause, hr.disabled⟩
      rcases runLine_cases hl with rfl | ⟨m, _, hm⟩ | ⟨_, rfl⟩ | ⟨_, rfl⟩ | ⟨rfl, _⟩ | ⟨o, _, _, rfl⟩ | ⟨c, _, rfl⟩
      · exact .inl hr'
      · exact .inl (hr'.linkMove hm).2
      · exact .inl (.enterDispatch (s := { s with script := rest }) hq hreset hr.disabled)
      · exact .inr (.inl (deviceInit_ready (s := { s with script := rest }) hq))
      · exact .inr (.inr ⟨hp, by rw [hs]; rfl⟩)
      · exact .inl ⟨hr.cause, hr.disabled⟩
      · exact .inl ⟨hr.cause, hr.disabled⟩
  · have hfetch : fetch s = some (istrEvent v, s) := by simp only [fetch, hp]
    rcases hu with ⟨w, s1, i, hf, hd, he⟩ | ⟨w, s1, hf, hd, _⟩ | ⟨hp', _⟩ | ⟨hp', _⟩ | ⟨hp', _⟩
    · cases hfetch.symm.trans hf
      rw [decode_istrEvent] at hd
      exact (hr.exec hq hv hd he).imp_right .inl
    · cases hfetch.symm.trans hf
      rw [decode_istrEvent, decodeIstr_of_reset hv] at hd
      cases hd
    all_goals
      rw [hp] at hp'
      cases hp'

end Sys2Proof.Machine
end

section
/-! SUPPORT. The step of spec/10_state.md and spec/44_dispatcher.md: power-on and re-initialisation, when an invocation starts,
in which order the causes of one read are served, and what can stop a step. -/

namespace Sys2Proof.Machine

/-! ### Power-on and re-initialisation -/

/-- No slot is pending while every register is zero (R41, R66). -/
theorem pendingSlots_of_zero {s : State} (h : s.chepr = Vector.replicate 8 0#16) : pendingSlots s = [] := by
  unfold pendingSlots
  rw [h]
  rfl

/-- Nothing is reported with no cause latched, no slot pending and no code forced (R40, R41). -/
theorem istrValue_of_nothing {s : State} (hb : s.badCode = none) (hr : s.istrReset = false) (hf : s.istrSof = false)
    (hp : pendingSlots s = []) : istrValue s = 0#16 := by
  simp only [istrValue, reportedCode, hb, hp, hr, hf]
  rfl

/-- Settles O15: the values are those of `State.reset`, and with every register zero nothing is pending. -/
theorem powerOnValues : Obligations.PowerOnValues := by
  refine ⟨fun s t ht => ?_, fun s rest hp hs => by rw [step_line hp hs]; rfl⟩
  suffices h : t.cs = ControlState.cleared ∧ t.chepr = Vector.replicate 8 0#16 ∧ t.badCode = none ∧ t.istrReset = false ∧
      t.istrSof = false ∧ t.cntr = 0#16 ∧ t.daddr = 0#8 ∧ t.rxUnsettled = false ∧ t.wire = [] by
    obtain ⟨hcs, hchepr, hbad, hreset, hsof, hcntr, hdaddr, hset, hwire⟩ := h
    have hz := istrValue_of_nothing hbad hreset hsof (pendingSlots_of_zero hchepr)
    refine ⟨hcs, fun n => ?_, by rw [peekReg, hz]; rfl, hcntr, hdaddr, hset, hwire, by simp [irq, hz]⟩
    rw [hchepr]
    simp
  rcases List.mem_cons.1 ht with rfl | ht
  · exact ⟨rfl, rfl, rfl, rfl, rfl, rfl, rfl, rfl, rfl⟩
  · obtain rfl := List.mem_singleton.1 ht
    exact ⟨rfl, rfl, rfl, rfl, rfl, rfl, rfl, rfl, rfl⟩

/-- The step counter is no part of what `DeviceInit` leaves (R257). -/
theorem Reinitialised.with_tick {s t : State} (r : Reinitialised s t) (n : Nat) :
    Reinitialised { s with tick := n } { t with tick := n } where
  state := by rw [r.state]
  endpointZero := r.endpointZero
  txDescriptor := r.txDescriptor
  rxDescriptor := r.rxDescriptor
  buffers := r.buffers

/-- Settles O16: the values are those `DeviceInit` leaves, and a `CORE INIT` line runs it. -/
theorem reinitialisationValues : Obligations.ReinitialisationValues := by
  intro s hq
  refine ⟨deviceInit_reinitialised hq, fun h0 => ?_, fun rest hp hs => ?_⟩
  · rw [(deviceInit_reinitialised hq).endpointZero, h0]
    decide
  · have r := deviceInit_reinitialised (s := { s with script := rest }) hq
    have ht : (deviceInit { s with script := rest }).tick = s.tick := by rw [r.state]
    have r' := r.with_tick (s.tick + 1)
    rw [step_line hp hs, runLine, tickOutcome, ht]
    exact ⟨_, rfl, r'⟩

/-- Settles O17: after power-on no field holds anything an invariant speaks of. -/
theorem resetMeetsInvariants : Obligations.ResetMeetsInvariants := by
  have htransfer : TransferInv State.reset ∧ EndpointZeroInv State.reset :=
    transferInv_cleared rfl rfl rfl rfl fun h => absurd rfl h
  have hdispatch : DispatchableInv State.reset := .of_idle rfl rfl
  refine ⟨⟨rfl, rfl⟩, ⟨fun _ => rfl, .inl rfl, nofun⟩, nofun, ⟨.inl rfl, .inl rfl⟩, hdispatch, htransfer.1, htransfer.2,
    ⟨hdispatch, htransfer.1, htransfer.2, fun h => absurd rfl h, fun h => absurd h (by decide), nofun, nofun, nofun⟩⟩

/-! ### One step -/

/-- Settles O18: the fetch at each position, and the step on what it decodes to. -/
theorem stepRunsDecoded : Obligations.StepRunsDecoded := by
  refine ⟨fun s s1 w i hf hd => step_event hf hd, fun s v hp => ?_, fun s hd hp => ?_, fun s c hp hc => ?_,
    fun s hp hq => ?_⟩
  · simp only [fetch, hp]
  · simp only [fetch, hp]
  · simp only [fetch, hp, if_neg hc]
  · have hq' : Quiet (errataDelay s) := hq
    simp only [fetch, hp, if_true, window_quiet hq, window_quiet hq', peekReg, low_half]
    rw [← hp]
    rfl

/-- A step on latched causes (R240). -/
theorem step_causes {s : State} {v : Half} {i : Instr} (hp : s.pos = .causes v) (hd : decodeIstr v = .ok i) :
    step s = tickOutcome (exec i s) :=
  step_event (stepRunsDecoded.2.1 s v hp) (by rw [decode_istrEvent, hd])

/-- A step with no cause left returns (R240, R258). -/
theorem step_noCause {s : State} {v : Half} (hp : s.pos = .causes v) (hd : decodeIstr v = .error .noCause) :
    step s = tickOutcome (.next (returnDispatch s.any s)) := by
  simp only [step, stepBody, stepRunsDecoded.2.1 s v hp, decode_istrEvent, hd]

/-- Settles O20: the decoder's order on one read, and what each of its events leaves latched. -/
theorem causesServedInOrder : Obligations.CausesServedInOrder := by
  intro s reset ctr code
  refine ⟨rfl, fun hp => ?_, fun hp => ?_, fun hp => ?_, fun hp => ?_⟩
  · rw [step_causes hp (decodeIstr_word true reset ctr code)]
    have ha := (performAll_access .sof s).any
    simp only [exec, execIrqSof]
    generalize performAll .sof s = u at ha
    exact ⟨_, rfl, rfl, ha⟩
  · rw [step_causes hp (decodeIstr_word false true ctr code)]
    have ha := (deviceInit_access { s with any := true }).any
    simp only [exec, execIrqReset]
    generalize deviceInit { s with any := true } = u at ha
    exact ⟨_, rfl, rfl, ha⟩
  · rw [step_causes hp (decodeIstr_word false false true code)]
    rfl
  · rw [step_noCause hp (decodeIstr_word false false false code)]
    rfl

/-- A step on an event is a next state (R300 to R308). -/
theorem step_next_of_decode {s s1 : State} {w : EventWord} {i : Instr} (hf : fetch s = some (w, s1))
    (hd : decode w = .ok i) : ∃ t, step s = .next t := by
  obtain ⟨t, ht⟩ := exec_next i s1
  exact ⟨_, by rw [step_event hf hd, ht]; rfl⟩

/-- Without a line of the script to read a step is a next state: every latched word decodes, or has no cause (R240). -/
theorem step_next {s : State} (h : s.pos ≠ .idle ∨ s.script = []) : ∃ t, step s = .next t := by
  cases hp : s.pos with
  | idle => exact ⟨_, step_idle hp (h.resolve_left (not_not_intro hp))⟩
  | causes v =>
    cases hd : decodeIstr v with
    | ok i => exact step_next_of_decode (stepRunsDecoded.2.1 s v hp) (by rw [decode_istrEvent, hd])
    | error e =>
      have he : e = .noCause := by
        unfold decodeIstr at hd
        split_ifs at hd
        exact (Except.error.inj hd).symm
      subst he
      exact ⟨_, step_noCause hp hd⟩
  | code c =>
    by_cases hc : c = 16#5
    · subst hc
      exact step_next_of_decode (by simp only [fetch, hp, if_true]; rfl) (decode_codeEvent _ _)
    · exact step_next_of_decode (stepRunsDecoded.2.2.2.1 s c hp hc) (decode_codeEvent _ _)
  | request hd => exact step_next_of_decode (stepRunsDecoded.2.2.1 s hd hp) (decode_headerEvent hd)
  | reread =>
    have hf : fetch s = none := by simp only [fetch, hp]
    exact ⟨_, by simp only [step, stepBody, hf, hp]; rfl⟩

/-- Settles O21: every event ends in a next state, and every position but that between invocations calls for one. -/
theorem onlyScriptLinesStop : Obligations.OnlyScriptLinesStop := by
  refine ⟨exec_next, fun s hstop => ?_⟩
  by_contra hc
  rw [not_and_or, not_not] at hc
  obtain ⟨t, ht⟩ := step_next hc
  exact hstop t ht

/-! ### Interrupt entry -/

/-- The mask of CNTR stands in the cause mask of the interrupt line (R43, R311). -/
theorem irq_iff (s : State) : irq s = true ↔ istrValue s &&& s.cntr &&& Config.irqMask ≠ 0#16 := decide_eq_true_iff

/-- A register is read with a zero upper half, so that only its lower half counts (R34). -/
theorem append_zero_ne (v : Half) : (0#16 ++ v : Word) ≠ 0#32 ↔ v ≠ 0#16 := by
  refine not_congr ⟨fun h => ?_, fun h => by rw [h]; rfl⟩
  rw [← low_half v, h]
  rfl

/-- Settles O19: the line on the registers as read; entry and re-read as whole states. -/
theorem invocationEntry : Obligations.InvocationEntry := by
  refine ⟨fun s => ?_, fun s hq => ⟨fun hp hs hi => ?_, fun hp hs hi => ?_, fun rest hp hs => ⟨fun hi => ?_, fun hi hm => ?_⟩,
    fun hp => ?_⟩⟩
  · have hmask : (0x8600#32 : Word) = 0#16 ++ Config.irqMask := rfl
    have hand (a b : Half) : (0#16 ++ a : Word) &&& (0#16 ++ b) = 0#16 ++ (a &&& b) := by
      rw [BitVec.and_append, BitVec.and_self]
    simp only [irq_iff, peekReg, hmask, hand, append_zero_ne, BitVec.and_assoc, BitVec.and_self]
  · rw [step_idle hp hs, hi, if_pos rfl, enterDispatch_quiet hq]
    rfl
  · rw [step_idle hp hs, hi]
    rfl
  · have hd : dispatchEnabled { s with script := rest } = true := by
      rcases hi with hi | hi
      · exact Bool.or_eq_true_iff.2 (.inl hi)
      · exact Bool.or_eq_true_iff.2 (.inr (decide_eq_true hi))
    have hq' : Quiet { s with script := rest } := hq
    rw [step_line hp hs, runLine, if_pos hd, enterDispatch_quiet hq']
    rfl
  · have hd : dispatchEnabled { s with script := rest } = false :=
      Bool.or_eq_false_iff.2 ⟨hi, decide_eq_false hm⟩
    rw [step_line hp hs, runLine, hd]
    rfl
  · rw [step_reread hq hp, istrValue, istrWord_reread]

/-- What `SendChunk` leaves of ControlState (R214). -/
theorem afterChunk_fields (rem : List Byte) (cb : TxTok) (c : ControlState) : (afterChunk rem cb c).rxCb = c.rxCb ∧
    (afterChunk rem cb c).short = c.short ∧ (afterChunk rem cb c).configured = c.configured := by
  unfold afterChunk
  split <;> exact ⟨rfl, rfl, rfl⟩

/-- Settles O30: no other event's ControlState differs in the field, in whatever windows the link agent moves. -/
theorem configuredWriters : Obligations.ConfiguredWriters := by
  intro i s t h hne
  have hresult : ∀ res hd c, (afterResult res hd c).configured = c.configured := by
    intro res hd c
    cases res with
    | tx data cb => exact (afterChunk_fields _ cb _).2.2
    | rx n cb =>
      simp only [afterResult]
      split <;> rfl
  have hcs := exec_cs h
  generalize t.cs = d at hcs hne
  cases hcs with
  | kept _ => exact absurd rfl hne
  | reset ctr code => exact .inr ⟨ctr, code, rfl, rfl⟩
  | tail _ => exact absurd (afterChunk_fields _ _ _).2.2 hne
  | ended _ => exact absurd rfl hne
  | setup _ => exact absurd rfl hne
  | discarded => exact absurd rfl hne
  | judged => exact absurd rfl hne
  | request _ res => exact absurd (hresult _ _ _) hne
  | address _ a => exact absurd (hresult _ _ _) hne
  | configuration vhi idx len => exact .inl ⟨vhi, idx, len, rfl, hresult _ _ _⟩

/-! ### The undispatchable code -/

/-- While a code is forced ISTR shows it (log 15). -/
theorem istrValue_forced {s : State} {c : BitVec 5} (hb : s.badCode = some c) :
    istrValue s = istrWord s.istrSof s.istrReset true c := by
  simp only [istrValue, reportedCode, hb]
  rfl

/-- A code with bit 3 set is no slot's (R101, R253). -/
theorem decodeCc5_undispatchable {c : BitVec 5} (hc : c.getLsbD 3 = true) (b : Bool) :
    ∃ rx low, decodeCc5 c b = .ctrUndispatchable rx low := by
  unfold decodeCc5
  dsimp only
  rw [if_pos hc]
  exact ⟨_, _, rfl⟩

/-- With CTR enabled a forced code asserts the interrupt line (R41, R311). -/
theorem irq_of_forced {s : State} {c : BitVec 5} (hb : s.badCode = some c) (hm : s.cntr.getLsbD 15 = true) :
    irq s = true := by
  rw [irq_iff]
  intro h0
  have hbit : (istrValue s &&& s.cntr &&& Config.irqMask).getLsbD 15 = true := by
    rw [BitVec.getLsbD_and, BitVec.getLsbD_and, hm, istrValue_forced hb, (istrWord_fields _ _ _ _).2.2.1]
    decide
  rw [h0] at hbit
  exact absurd hbit (by decide)

/-- Settles O26: the event itself; and the three steps of an invocation, from entry over the latched code to the return, which
find the interrupt as it was. -/
theorem undispatchableCode : Obligations.UndispatchableCode := by
  refine ⟨fun s rx low => ⟨_, rfl, rfl, rfl, rfl⟩, fun s c hq hb hc hr hf hm hp hs => ?_⟩
  have hirq : irq s = true := irq_of_forced hb hm
  have hcode : c ≠ 16#5 := by
    rintro rfl
    exact absurd hc (by decide)
  have h1 : step s = .next { s with pos := .causes (istrWord false false true c), any := false, tick := s.tick + 1 } := by
    rw [(invocationEntry.2 s hq).1 hp hs hirq, istrValue_forced hb, hr, hf]
  have h2 := (causesServedInOrder { s with pos := .causes (istrWord false false true c), any := false, tick := s.tick + 1 }
    false true c).2.2.2.1 rfl
  obtain ⟨rx, low, hd⟩ := decodeCc5_undispatchable hc false
  have h3 : step { s with pos := .code c, any := true, tick := s.tick + 2 } = .next { s with
      errors := s.errors ++ [.badCode], any := true, returned := some true, tick := s.tick + 3 } := by
    rw [step_event (stepRunsDecoded.2.2.2.1 _ c rfl hcode) (decode_codeEvent c false), hd]
    simp only [exec, execCtrUndispatchable, tickOutcome, returnDispatch, raise, ← hp]
  refine ⟨{ s with errors := s.errors ++ [.badCode], any := true, returned := some true, tick := s.tick + 3 }, ?_,
    irq_of_forced hb hm, rfl⟩
  simp only [Host.Core.run, Sys2Proof.core]
  rw [h1]
  dsimp only
  rw [h2]
  dsimp only
  rw [h3]

end Sys2Proof.Machine
end

section
/-! SUPPORT. Memory and registers (spec/20_memory.md, spec/41_endpoint_register_bd.md): the bytes a read and a write touch, the
codes of the block size, and the fields of CHEPR after a write. -/

namespace Sys2Proof.Machine

/-! ### Memory -/

/-- The header parsed from settled memory at an aligned address, byte by byte (R130). -/
theorem parseSetup_settled {s : State} {a : Nat} (hset : s.rxUnsettled = false) (ha : a % 4 = 0) :
    parseSetup a s = headerOf (storedByte s a) (storedByte s (a + 1)) (storedByte s (a + 2)) (storedByte s (a + 3))
      (storedByte s (a + 4)) (storedByte s (a + 5)) (storedByte s (a + 6)) (storedByte s (a + 7)) :=
  (Option.some.inj (parseBytes_storedBytes hset ha)).symm

/-- A 16-bit field of the header, low byte first (R74). -/
theorem toNat_half (hi lo : Byte) : (hi ++ lo : Half).toNat = lo.toNat + 256 * hi.toNat := by
  rw [toNat_append_add]
  omega

/-- Settles O6: the parse takes the eight stored bytes in order, and a field of two bytes is the second before the first. -/
theorem parseFieldOrder : Obligations.ParseFieldOrder := by
  intro s a hset ha
  rw [parseSetup_settled hset ha]
  exact ⟨rfl, rfl, rfl, rfl, toNat_half _ _, toNat_half _ _⟩

/-- Stored bytes, each by its address (R73). -/
theorem storedBytes_eq_map (s : State) (a n : Nat) :
    storedBytes s a n = (List.range n).map fun i => storedByte s (a + i) := by
  induction n generalizing a with
  | zero => rfl
  | succ n ih =>
    rw [storedBytes, ih, List.range_succ_eq_map, List.map_cons, List.map_map]
    simp only [Nat.add_zero, Function.comp_def, Nat.succ_eq_add_one, Nat.add_assoc, Nat.add_comm 1]

/-- Bytes summed low byte first (R72). -/
theorem leSum_map_range (f : Nat → Byte) (n : Nat) :
    leSum ((List.range n).map f) = ∑ i ∈ Finset.range n, (f i).toNat * 256 ^ i := by
  induction n generalizing f with
  | zero => rfl
  | succ n ih =>
    have htail : 256 * ∑ i ∈ Finset.range n, (f (i + 1)).toNat * 256 ^ i =
        ∑ i ∈ Finset.range n, (f (i + 1)).toNat * 256 ^ (i + 1) := by
      rw [Finset.mul_sum]
      exact Finset.sum_congr rfl fun i _ => by ring
    rw [List.range_succ_eq_map, List.map_cons, List.map_map, leSum, Finset.sum_range_succ', ← htail, ih, Nat.pow_zero,
      Nat.mul_one, Nat.add_comm]
    rfl

/-- Byte `i` of an integer (R73). -/
theorem leBytes_getD {n i : Nat} (v : Nat) (hi : i < n) : (leBytes n v).getD i 0#8 = BitVec.ofNat 8 (v / 256 ^ i) := by
  induction n generalizing v i with
  | zero => omega
  | succ n ih =>
    cases i with
    | zero => simp [leBytes]
    | succ i => rw [leBytes, List.getD_cons_succ, ih _ (by omega), Nat.div_div_eq_div_mul, Nat.pow_succ']

/-- A byte inside a stored sequence (R73). -/
theorem storedByte_putBytes_inside (l : List Byte) (a : Nat) (s : State) {i : Nat} (hi : i < l.length) :
    storedByte (putBytes a l s) (a + i) = l.getD i 0#8 := by
  rw [storedByte_putBytes, if_pos (by omega), Nat.add_sub_cancel_left]

/-- Settles O7: a settled read is the stored bytes and their sum, and a write is one stored sequence. -/
theorem memoryBytes : Obligations.MemoryBytes := by
  refine ⟨fun s a n hset => ?_, fun s hq => ⟨fun a n v i hi => ?_, fun a n v x hx => ?_, fun a l i hi => ?_, fun a l x hx => ?_⟩⟩
  · rw [memRead, memReadBytes_settled hset, storedBytes_eq_map]
    exact ⟨leSum_map_range _ n, rfl⟩
  · rw [memWrite_quiet hq, storedByte_putBytes_inside _ _ _ (by rwa [leBytes_length]), leBytes_getD v hi]
  · rw [memWrite_quiet hq, storedByte_putBytes_outside _ _ _ _ (by rw [leBytes_length]; omega)]
  · rw [memWriteBytes_quiet _ _ hq, storedByte_putBytes_inside _ _ _ hi]
  · rw [memWriteBytes_quiet _ _ hq, storedByte_putBytes_outside _ _ _ _ (by omega)]

/-- Settles O8: the read branches on `rx_unsettled` and the two places it speaks of; the delay clears it. -/
theorem unsettledReadsAreDraws : Obligations.UnsettledReadsAreDraws := by
  intro s a
  refine ⟨fun hu ha => ?_, fun h => ?_, coreByte_settled rfl a, rfl⟩
  · have hc : (s.rxUnsettled && (inRxBuffer s.params a || decide (4 ≤ a ∧ a < 8))) = true := by
      simpa [hu] using ha
    exact if_pos hc
  · rcases h with hset | ⟨hb, hd⟩
    · exact coreByte_settled hset a
    · have hc : ¬(s.rxUnsettled && (inRxBuffer s.params a || decide (4 ≤ a ∧ a < 8))) = true := by
        simp [hb, hd]
      exact if_neg hc

/-- Settles O9: one arithmetic case for each of the three ranges of R106. -/
theorem rxCodeLegalSizes : Obligations.RxCodeLegalSizes := by
  refine ⟨rxCode_isSome, fun size bl nb h => ?_⟩
  have hnat (n : Nat) (hn : n < 32) : (BitVec.ofNat 5 n).toNat = n := by
    rw [BitVec.toNat_ofNat]
    omega
  have hne (n m : Nat) (hn : n < 32) (hm : m < 32) : BitVec.ofNat 5 n = BitVec.ofNat 5 m ↔ n = m :=
    ⟨fun h => by rw [← hnat n hn, h, hnat m hm], fun h => by rw [h]⟩
  unfold rxCode at h
  split_ifs at h with h1 h2 h3 <;> cases h <;> simp only [rxCapacity]
  · simp only [Bool.false_eq_true, if_false]
    rw [if_neg fun h0 => by have := (hne (size / 2) 0 (by omega) (by omega)).1 h0; omega, hnat _ (by omega)]
    congr 1
    omega
  · simp only [if_true]
    by_cases h31 : size / 32 - 1 = 31
    · rw [if_pos (by rw [h31])]
      congr 1
      omega
    · rw [if_neg fun h0 => h31 ((hne _ 31 (by omega) (by omega)).1 h0), hnat _ (by omega)]
      congr 1
      omega
  · subst h3
    rfl

/-! ### Registers -/

/-- The fields of the sixteen bits of a written word that a register takes (R34, R35). -/
theorem field_of_word (w : Word) {k n : Nat} (h : k + n ≤ 16) :
    (w.extractLsb' 0 16).extractLsb' k n = w.extractLsb' k n := by
  rw [BitVec.extractLsb'_extractLsb'_of_le (by omega)]

theorem bit_of_word (w : Word) {k : Nat} (h : k < 16) : (w.extractLsb' 0 16).getLsbD k = w.getLsbD k := by
  simp [h]

/-- The upper half of a register reads zero (R34). -/
theorem high_half (v : Half) : (0#16 ++ v : Word).extractLsb' 16 16 = 0#16 := BitVec.extractLsb'_append_eq_left

/-- Settles O11: the write, field by field, of the lower half of the word. -/
theorem cheprWriteFields : Obligations.CheprWriteFields := by
  intro s n w old t new
  have hnew : new = Chepr.write old (w.extractLsb' 0 16) := by
    simp [new, t, old, pokeReg]
  have hread : peekReg (.chepr n) t = 0#16 ++ new := rfl
  refine ⟨?_, ?_, ?_, ?_, ?_, ?_, ?_, ?_, ?_, ?_, hnew, ?_, ?_, ?_⟩
  · rw [hnew, Chepr.statrx_write]
    exact congrArg _ (field_of_word w (by decide))
  · rw [hnew, Chepr.dtogrx_write]
    exact congrArg _ (bit_of_word w (by decide))
  · rw [hnew, Chepr.stattx_write]
    exact congrArg _ (field_of_word w (by decide))
  · rw [hnew, Chepr.dtogtx_write]
    exact congrArg _ (bit_of_word w (by decide))
  · rw [hnew, Chepr.vtrx_write]
    exact congrArg _ (bit_of_word w (by decide))
  · rw [hnew, Chepr.vttx_write]
    exact congrArg _ (bit_of_word w (by decide))
  · rw [hnew, Chepr.ea_write]
    exact field_of_word w (by decide)
  · rw [hnew, Chepr.utype_write]
    exact field_of_word w (by decide)
  · rw [hnew, Chepr.epkind_write]
    exact bit_of_word w (by decide)
  · rw [hnew, Chepr.setup_write]
  · rw [hread, low_half]
  · rw [hread, high_half]
  · rw [hnew]
    rfl

/-- Repeating an `EpUpdate` changes nothing more (R155). -/
theorem Chepr.updated_updated (v : Half) (req : EpReq) : updated (updated v req) req = updated v req := by
  unfold updated
  simp only [vtrx_pack, dtogrx_pack, statrx_pack, setup_pack, utype_pack, epkind_pack, vttx_pack, dtogtx_pack, stattx_pack,
    ea_pack, Bool.and_assoc, Bool.and_self]
  congr 1
  · cases req.dtogrx <;> rfl
  · cases req.statrx <;> rfl
  · cases req.utype <;> rfl
  · cases req.dtogtx <;> rfl
  · cases req.stattx <;> rfl
  · cases req.ea <;> rfl

/-- Settles O12: without a change in between the write reaches `Chepr.updated`; with one, the deltas act on the new value. -/
theorem epUpdateReachesTargets : Obligations.EpUpdateReachesTargets := by
  refine ⟨fun s n req hq => ⟨epUpdate_quiet hq n req, ?_⟩, fun v old req => ?_⟩
  · have hq' : Quiet { s with chepr := s.chepr.set n (Chepr.updated s.chepr[n] req) } := hq
    rw [epUpdate_quiet hq, epUpdate_quiet hq']
    simp [Chepr.updated_updated]
  · simp only [Chepr.statrx_write, Chepr.stattx_write, Chepr.dtogrx_write, Chepr.dtogtx_write, Chepr.vtrx_write,
      Chepr.vttx_write, Chepr.setup_write, Chepr.ea_write, Chepr.utype_write, Chepr.epkind_write, Chepr.deltas,
      Chepr.vtrx_pack, Chepr.dtogrx_pack, Chepr.statrx_pack, Chepr.utype_pack, Chepr.epkind_pack, Chepr.vttx_pack,
      Chepr.dtogtx_pack, Chepr.stattx_pack, Chepr.ea_pack]
    refine ⟨?_, ?_, ?_, ?_, trivial, trivial, trivial, trivial, trivial, trivial⟩
    · cases req.statrx <;> simp
    · cases req.stattx <;> simp
    · cases req.dtogrx <;> simp
    · cases req.dtogtx <;> simp

end Sys2Proof.Machine
end

section
/-! SUPPORT. The link agent (spec/45_link_agent.md) and the lines of the environment's script (R117): when a move is enabled,
what it writes, what it never does, and which lines stop. -/

namespace Sys2Proof.Machine

/-! ### The moves -/

/-- A packet lands where the descriptor is not reserved and the buffer lies in the SRAM (R71, R106). -/
theorem receivePacket_lands {bytes : List Byte} (reg : Half) (e : WireEvent) {s : State}
    (hr : rxReserved (storedWord s 4) = false)
    (hb : (rxbdOff (storedWord s 4)).toNat + bytes.length ≤ s.params.sramBytes) :
    receivePacket bytes reg e s = .done (landPacket bytes reg e s) := by
  simp only [receivePacket, hr, Bool.false_eq_true, if_false, if_pos hb]

/-- An enabled SETUP packet is received (R272). -/
theorem linkSetup_enabled {bytes : List Byte} {s : State} (hl : bytes.length ≤ 64) (hd : daddrEf s.daddr = true)
    (hst : Chepr.statrx s.chepr[(0 : Fin 8)] ≠ stDisabled) (hv : Chepr.vtrx s.chepr[(0 : Fin 8)] = false) :
    linkMove (.setupPacket bytes) s =
      receivePacket bytes (Chepr.afterSetup s.chepr[(0 : Fin 8)]) (.setupAck bytes) s := if_pos ⟨hl, hd, hst, hv⟩

/-- An enabled OUT packet is received (R273). -/
theorem linkOut_enabled {bytes : List Byte} {s : State} (hl : bytes.length ≤ 64) (hd : daddrEf s.daddr = true)
    (hst : Chepr.statrx s.chepr[(0 : Fin 8)] = stValid) (hv : Chepr.vtrx s.chepr[(0 : Fin 8)] = false) :
    linkMove (.outPacket bytes) s =
      receivePacket bytes (Chepr.afterOut s.chepr[(0 : Fin 8)]) (.outAck bytes) s := if_pos ⟨hl, hd, hst, hv⟩

/-- Settles O45: an enabled packet lands, and `landPacket_spec` says what that leaves. -/
theorem linkSetupLands : Obligations.LinkSetupLands := by
  intro s bytes hl e off
  refine ⟨fun h => if_neg ?_, fun hd hst hv hr hb h8 => ?_⟩
  · rintro ⟨-, hd, hst, hv⟩
    rcases h with h | h | h
    · exact absurd hd (by rw [h]; decide)
    · exact hst h
    · exact absurd hv (by rw [h]; decide)
  · refine ⟨_, (linkSetup_enabled hl hd hst hv).trans (receivePacket_lands _ _ hr hb), ?_⟩
    exact landPacket_spec bytes _ _ s hl h8

/-- Settles O46: as a SETUP packet, with the register of an OUT transaction. -/
theorem linkOutLands : Obligations.LinkOutLands := by
  intro s bytes hl e off
  refine ⟨fun h => if_neg ?_, fun hd hst hv hr hb h8 => ?_⟩
  · rintro ⟨-, hd, hst, hv⟩
    rcases h with h | h | h
    · exact absurd hd (by rw [h]; decide)
    · exact h hst
    · exact absurd hv (by rw [h]; decide)
  · refine ⟨_, (linkOut_enabled hl hd hst hv).trans (receivePacket_lands _ _ hr hb), ?_⟩
    exact landPacket_spec bytes _ _ s hl h8

/-- An enabled IN packet is sent where it lies in the SRAM (R71, R274). -/
theorem linkIn_enabled {s : State} (hd : daddrEf s.daddr = true) (hst : Chepr.stattx s.chepr[(0 : Fin 8)] = stValid)
    (hv : Chepr.vttx s.chepr[(0 : Fin 8)] = false) : linkIn s =
      if (txbdFields (storedWord s 0)).1.toNat + (txbdFields (storedWord s 0)).2.toNat ≤ s.params.sramBytes then
        .done { s with wire := s.wire ++ [.inData (armedPacket s)]
                       chepr := s.chepr.set 0 (Chepr.afterIn s.chepr[(0 : Fin 8)]) }
      else .fault .sramRange := if_pos ⟨hd, hst, hv⟩

/-- Settles O47: the guard, and the enabled move within the SRAM. -/
theorem linkInSends : Obligations.LinkInSends := by
  intro s e off count
  refine ⟨fun h => if_neg ?_, fun hd hst hv hb => ?_⟩
  · rintro ⟨hd, hst, hv⟩
    rcases h with h | h | h
    · exact absurd hd (by rw [h]; decide)
    · exact h hst
    · exact absurd hv (by rw [h]; decide)
  · exact (linkIn_enabled hd hst hv).trans (if_pos hb)

/-- Settles O48: the two handshakes and the start of frame by definition; a reset disables the function. -/
theorem linkStallResetSof : Obligations.LinkStallResetSof := by
  refine fun s => ⟨rfl, rfl, ⟨linkReset s, rfl, fun n => ?_, rfl, fun m h1 h2 => linkMove_disabled ?_ h1 h2⟩, rfl⟩
  · rw [linkReset_chepr]
    simp
  · rw [linkReset_daddr]
    decide

/-- The bytes of an endpoint's descriptors lie in the three regions (R48, R52). -/
theorem rxbd_inRegions (p : Params) (n : Fin 8) {i : Nat} (hi : i < 4) : inRegions p (rxbdAddr n + i) = true := by
  have hn := rxbdAddr_lt n
  simp only [inRegions, inTable, Bool.or_eq_true, decide_eq_true_eq]
  exact .inl (.inl (by omega))

/-- What a received packet of endpoints 1 to 7 leaves of the three regions (R278). -/
theorem storedByte_drawRxCount_drawOutside (s : State) (n : Fin 8) {a : Nat} (ha : inRegions s.params a = true)
    (h2 : a ≠ rxbdAddr n + 2) (h3 : a ≠ rxbdAddr n + 3) :
    storedByte (drawRxCount n (drawOutside s)) a = storedByte s a := by
  rw [drawRxCount, storedByte_putByte_other _ _ h3, storedByte_putByte_other _ _ h2, storedByte_drawOutside s ha]

/-- The block size of the descriptor stays (R278). -/
theorem blockSize_drawRxCount_drawOutside (s : State) (n : Fin 8) :
    storedByte (drawRxCount n (drawOutside s)) (rxbdAddr n + 3) &&& 0xfc#8 = storedByte s (rxbdAddr n + 3) &&& 0xfc#8 := by
  rw [drawRxCount, storedByte_putByte_same, storedByte_drawOutside s (rxbd_inRegions _ n (by decide)),
    BitVec.and_comm, BitVec.and_or_distrib_left]
  generalize storedByte s (rxbdAddr n + 3) = x
  generalize Config.freeDesc (drawOutside s).eraExt (rxbdAddr n + 3) = y
  have hxy : 0xfc#8 &&& (y &&& 0x03#8) = 0#8 := by
    rw [BitVec.and_comm y, ← BitVec.and_assoc]
    exact BitVec.zero_and
  rw [hxy, BitVec.or_zero, BitVec.and_comm x, ← BitVec.and_assoc, BitVec.and_self]

/-- Settles O49: the guard of each direction, and for RX the draw of the COUNT field and of the SRAM outside the regions. -/
theorem linkExtCompletes : Obligations.LinkExtCompletes := by
  intro s k e
  refine ⟨fun h => if_pos h, fun h => if_neg h, fun h => ⟨_, if_pos h, rfl, fun a ha h2 h3 => ?_, ?_⟩, fun h => if_neg h⟩
  · exact storedByte_drawRxCount_drawOutside s _ ha h2 h3
  · exact blockSize_drawRxCount_drawOutside s _

/-! ### What the link agent never does -/

/-- What a move that is no bus reset leaves of a register; `setup` says that the move is a SETUP packet (R270, R279). -/
structure LinkRegister (setup : Prop) (old new : Half) : Prop where
  utype : Chepr.utype new = Chepr.utype old
  epkind : Chepr.epkind new = Chepr.epkind old
  ea : Chepr.ea new = Chepr.ea old
  keepsRx : Chepr.vtrx old = true → Chepr.vtrx new = true
  keepsTx : Chepr.vttx old = true → Chepr.vttx new = true
  completesRx : Chepr.vtrx old = false → Chepr.vtrx new = true →
    Chepr.statrx old = stValid ∨ (setup ∧ Chepr.statrx old ≠ stDisabled)
  completesTx : Chepr.vttx old = false → Chepr.vttx new = true → Chepr.stattx old = stValid
  statrx : Chepr.statrx new = Chepr.statrx old ∨ Chepr.statrx new = stNak
  stattx : Chepr.stattx new = Chepr.stattx old ∨ Chepr.stattx new = stNak

namespace LinkRegister

theorem refl (p : Prop) (v : Half) : LinkRegister p v v where
  utype := rfl
  epkind := rfl
  ea := rfl
  keepsRx := id
  keepsTx := id
  completesRx := fun h h' => absurd (h.symm.trans h') (by decide)
  completesTx := fun h h' => absurd (h.symm.trans h') (by decide)
  statrx := .inl rfl
  stattx := .inl rfl

theorem afterSetup {p : Prop} {v : Half} (hp : p) (hst : Chepr.statrx v ≠ stDisabled) :
    LinkRegister p v (Chepr.afterSetup v) := by
  constructor <;> simp [Chepr.afterSetup]
  · exact fun _ => .inr ⟨hp, hst⟩
  · exact fun h h' => absurd (h.symm.trans h') (by decide)

theorem afterOut {p : Prop} {v : Half} (hst : Chepr.statrx v = stValid) : LinkRegister p v (Chepr.afterOut v) := by
  constructor <;> simp [Chepr.afterOut]
  · exact fun _ => .inl hst
  · exact fun h h' => absurd (h.symm.trans h') (by decide)

theorem afterIn {p : Prop} {v : Half} (hst : Chepr.stattx v = stValid) : LinkRegister p v (Chepr.afterIn v) := by
  constructor <;> simp [Chepr.afterIn]
  · exact fun h h' => absurd (h.symm.trans h') (by decide)
  · exact fun _ => hst

theorem afterExtRx {p : Prop} {v : Half} (hst : Chepr.statrx v = stValid) : LinkRegister p v (Chepr.afterExtRx v) := by
  constructor <;> simp [Chepr.afterExtRx]
  · exact fun _ => .inl hst
  · exact fun h h' => absurd (h.symm.trans h') (by decide)

/-- A move that writes one register. -/
theorem set {p : Prop} {regs : Vector Half 8} {k : Fin 8} {v : Half} (h : LinkRegister p regs[k] v) (n : Fin 8) :
    LinkRegister p regs[n] (regs.set k v)[n] := by
  by_cases hn : k = n
  · subst hn
    simpa using h
  · have hv : k.val ≠ n.val := fun e => hn (Fin.ext e)
    simpa [hv] using refl p regs[n]

end LinkRegister

/-- The registers a packet that lands leaves (R272, R273). -/
theorem landPacket_chepr (bytes : List Byte) (reg : Half) (e : WireEvent) (s : State) :
    (landPacket bytes reg e s).chepr = s.chepr.set 0 reg := by
  simp only [landPacket, setRxCount, putByte_chepr, putBytes_chepr]

/-- What every move but a bus reset leaves of every register (R270, R279). -/
theorem linkMove_register {m : LinkMove} {s t : State} (h : linkMove m s = .done t) (hm : m ≠ .reset) (n : Fin 8) :
    LinkRegister (∃ bytes, m = .setupPacket bytes) s.chepr[n] t.chepr[n] := by
  rcases linkMove_cases h with ⟨bytes, reg, e, hr, _, _, _, _, rfl⟩ | ⟨_, _, hst, _, rfl⟩ | ⟨_, _, _, rfl⟩ | ⟨hreset, _⟩ |
    ⟨_, rfl⟩ | ⟨k, _, _, hst, _, rfl⟩ | ⟨k, _, _, hst, _, rfl⟩
  · rw [landPacket_chepr]
    rcases hr with ⟨rfl, rfl, _, hst⟩ | ⟨_, rfl, _, hst⟩
    · exact .set (.afterSetup ⟨bytes, rfl⟩ hst) n
    · exact .set (.afterOut hst) n
  · exact .set (.afterIn hst) n
  · exact .refl _ _
  · exact absurd hreset hm
  · exact .refl _ _
  · exact .set (.afterIn hst) n
  · exact .set (.afterExtRx hst) n

/-- Settles O50: each move writes at most one register, in one of four ways; a code is shown only for a pending slot. -/
theorem linkAgentLimits : Obligations.LinkAgentLimits := by
  intro m s t h
  refine ⟨linkMove_frame h, fun hb => istrValue_bit3 ((linkMove_frame h).badCode.trans hb), fun hm n => ?_⟩
  obtain ⟨h1, h2, h3, h4, h5, h6, h7, h8, h9⟩ := linkMove_register h hm n
  exact ⟨h1, h2, h3, h4, h5, h6, h7, h8, h9⟩

/-! ### The lines of the script -/

/-- A step on a link move (R117; logs 3, 13, 14). -/
theorem step_link {s : State} {m : LinkMove} {rest : List ScriptLine} (hp : s.pos = .idle) (hs : s.script = .link m :: rest) :
    step s = match linkMove m { s with script := rest } with
      | .done t => .next { t with tick := t.tick + 1 }
      | .notEnabled => .next { s with script := rest, tick := s.tick + 1 }
      | .fault f => .fault f
      | .refused r => .refused r := by
  rw [step_line hp hs, runLine]
  cases linkMove m { s with script := rest } <;> rfl

/-- A step on an ORACLE line (R117; log 12). -/
theorem step_oracle {s : State} {o : Oracle} {rest : List ScriptLine} (hp : s.pos = .idle)
    (hs : s.script = .oracle o :: rest) :
    step s = match oracleFault s.params o with
      | some r => .refused r
      | none => .next { s with script := rest, oracles := o :: s.oracles, tick := s.tick + 1 } := by
  rw [step_line hp hs, runLine]
  dsimp only
  cases oracleFault s.params o <;> rfl

/-- A `Tx` answer that is too long is refused whatever else the line fixes (R132). -/
theorem oracleFault_of_long {p : Params} {o : Oracle} {data : List Byte} {tok : Option ExtTok}
    (hr : o.behaviour.result = some (.tx data tok)) (hl : 65535 < data.length) :
    oracleFault p o = some .dataTooLong := by
  have hf : answerFault (.tx data tok) = some .dataTooLong := if_neg (Nat.not_le.2 hl)
  simp only [oracleFault, hr, Option.bind_some, hf]

/-- Where the answer keeps the bound the operations decide (R132, R322). -/
theorem oracleFault_of_short {p : Params} {o : Oracle}
    (hr : ∀ data tok, o.behaviour.result = some (.tx data tok) → data.length ≤ 65535) :
    oracleFault p o = o.behaviour.ops.bind (opsFault p o.site) := by
  have hf : o.behaviour.result.bind answerFault = none := by
    cases hres : o.behaviour.result with
    | none => rfl
    | some a =>
      cases a with
      | rx n tok => rfl
      | tx data tok => exact if_pos (hr data tok hres)
  simp only [oracleFault, hf]

/-- The sites of the Descriptor Provider are those that may not act (R12 (3)). -/
theorem siteMayAct_eq_false_iff (x : Site) : siteMayAct x = false ↔ x ∈ [Site.device, Site.config, Site.string] := by
  cases x <;> simp [siteMayAct]

/-- The Descriptor Provider has no operation (R12 (3), R322). -/
theorem opsFault_provider (p : Params) {x : Site} (hx : siteMayAct x = false) (ops : List CapOp) :
    opsFault p x ops = if ops = [] then none else some .collaboratorContract := by
  unfold opsFault
  by_cases ho : ops = []
  · subst ho
    have hc : clearsServed [] x = true := by
      simp only [siteMayAct_eq_false_iff, List.mem_cons, List.not_mem_nil, or_false] at hx
      rcases hx with rfl | rfl | rfl <;> rfl
    simp [hc]
  · simp [ho, hx]

/-- A capability's operations are refused for the first that is not legal, then for a flag that is not cleared (R322). -/
theorem opsFault_capability (p : Params) {x : Site} (hx : siteMayAct x = true) (ops : List CapOp) :
    opsFault p x ops = match ops.findSome? (capOpFault p) with
      | some r => some r
      | none => if clearsServed ops x then none else some .collaboratorContract := by
  unfold opsFault
  rw [if_neg fun h => absurd h.2 (by rw [hx]; decide)] <;> rfl

/-- The first operation that is not legal decides (R163, R322 (d)). -/
theorem findSome?_capOpFault {p : Params} {op : CapOp} {pre post : List CapOp} {r : Refusal}
    (hpre : ∀ x ∈ pre, OpLegal p x) (hop : capOpFault p op = some r) :
    (pre ++ op :: post).findSome? (capOpFault p) = some r := by
  rw [List.findSome?_append, List.findSome?_eq_none_iff.2 fun x hx => (capOpFault_none p x).2 (hpre x hx),
    List.findSome?_cons, hop]
  rfl

/-- An RX size that is not legal (R163). -/
theorem capOpFault_setRx {p : Params} {off : Half} {size : Nat} (h : ¬OpLegal p (.setRx off size)) :
    capOpFault p (.setRx off size) = some .rxBlockSize := by
  rw [← capOpFault_none, capOpFault] at h
  rw [capOpFault]
  split at h
  · exact absurd rfl h
  · rename_i hs
    rw [if_neg hs]

/-- A store that is not legal (R71, R322 (d)). -/
theorem capOpFault_store {p : Params} {a : Nat} {bytes : List Byte} (h : ¬OpLegal p (.store a bytes)) :
    capOpFault p (.store a bytes) = some .collaboratorContract := by
  rw [← capOpFault_none, capOpFault] at h
  rw [capOpFault]
  split at h
  · exact absurd rfl h
  · rename_i hs
    rw [if_neg hs]

/-- Settles O51: the step of each line, with the refusals of `receivePacket`, `linkIn` and `oracleFault`. -/
theorem environmentLines : Obligations.EnvironmentLines := by
  intro s rest hp
  refine ⟨fun m hs => ⟨fun t ht => ?_, fun hn => ?_⟩, fun c hs => by rw [step_line hp hs]; rfl,
    fun m bytes hs hm hl hd hv => ?_, fun hs hd hst hv hout => ?_, fun o hs => ⟨fun data tok hr hlen => ?_, fun hr => ?_⟩⟩
  · rw [step_link hp hs, ht]
    dsimp only
    rw [(linkMove_frame ht).tick]
  · rw [step_link hp hs, hn]
  · have hreceive : ∃ reg e, linkMove m { s with script := rest } = receivePacket bytes reg e { s with script := rest } := by
      rcases hm with ⟨rfl, hst⟩ | ⟨rfl, hst⟩
      · exact ⟨_, _, linkSetup_enabled hl hd hst hv⟩
      · exact ⟨_, _, linkOut_enabled hl hd hst hv⟩
    obtain ⟨reg, e, he⟩ := hreceive
    have hword : storedWord { s with script := rest } 4 = storedWord s 4 := rfl
    rw [step_link hp hs, he, receivePacket]
    simp only [hword]
    refine ⟨fun hres => by rw [hres]; rfl, fun hres hout => ?_⟩
    rw [hres, if_neg (by decide), if_neg (Nat.not_le.2 hout)]
  · have hin : linkMove .inPacket { s with script := rest } = .fault .sramRange :=
      (linkIn_enabled (s := { s with script := rest }) hd hst hv).trans (if_neg (Nat.not_le.2 hout))
    rw [step_link hp hs, hin]
  · rw [step_oracle hp hs, oracleFault_of_long hr hlen]
  · rw [step_oracle hp hs, oracleFault_of_short hr]
    refine ⟨fun ho => by rw [ho]; rfl, fun ops ho => ⟨fun hx => ?_, fun hx => ?_⟩⟩
    · rw [ho, Option.bind_some, opsFault_provider _ ((siteMayAct_eq_false_iff _).2 hx)]
      exact ⟨fun h => by rw [if_pos h], fun h => by rw [if_neg h]⟩
    · have hact : siteMayAct o.site = true :=
        (Bool.not_eq_false _).mp fun h => hx ((siteMayAct_eq_false_iff _).1 h)
      rw [ho, Option.bind_some, opsFault_capability _ hact]
      refine ⟨fun pre off size post e hpre hbad => ?_, fun pre a bytes post e hpre hbad => ?_, fun hall => ?_⟩
      · rw [e, findSome?_capOpFault hpre (capOpFault_setRx hbad)]
      · rw [e, findSome?_capOpFault hpre (capOpFault_store hbad)]
      · rw [List.findSome?_eq_none_iff.2 fun x hx => (capOpFault_none _ x).2 (hall x hx)]
        simp only [← clearsServed_iff]
        exact ⟨fun h => by rw [if_pos h], fun h => by rw [if_neg h]⟩

end Sys2Proof.Machine
end

section
/-! SUPPORT. What collaborator calls keep (R322), and that a served request does not see the moves in the windows (R198, R270). -/

namespace Sys2Proof.Machine

/-- Settles O52: every call keeps the frame of the contract and is logged; one that acts for a capability keeps the others. -/
theorem collaboratorContract : Obligations.CollaboratorContract := by
  refine fun s c hq => ⟨perform_frame hq c, perform_calls hq c, fun k hk => perform_owner hq hk, fun hc => perform_provider hq ?_⟩
  rcases hc with rfl | ⟨_, rfl⟩ | ⟨_, rfl⟩ <;> rfl

/-- Settles O41: with every offer refused the result is `ERROR`. -/
theorem classRequestRefused : Obligations.ClassRequestRefused := by
  intro s rt rq vlo vhi idx len hq hd hrefuse
  obtain ⟨hf, hcalls, hres⟩ := offerRequest_none hd allCaps hq fun j _ => hrefuse j
  refine ⟨_, _, hf, hcalls, rfl, ?_⟩
  rw [hres]
  exact finishRequest_mkError (hf.quiet hq) hd

/-! ### The flag a completion handler serves -/

/-- The register a capability leaves freely: a flag it is to clear is clear (R322 (d), (e)). -/
theorem drawCap_register (k : Cap) (clrRx clrTx : Bool) (s : State) : ∃ free,
    (drawCap k clrRx clrTx s).chepr[capEp k] = Chepr.afterCapability s.chepr[capEp k] free clrRx clrTx := by
  have hreg : (drawEntry k (drawOutside s)).chepr = s.chepr := by
    simp only [drawEntry]
    split <;> simp only [putBytes_chepr, drawOutside_chepr]
  refine ⟨Config.freeReg (drawEntry k (drawOutside s)).eraExt (capEp k).val, ?_⟩
  simp only [drawCap, Fin.getElem_fin, Vector.getElem_set_self, hreg]

/-- A handler whose effect is free clears the flag it is called for (R322 (e)). -/
theorem freeCap_clears {s : State} (hq : Quiet s) (k : Cap) (clrRx clrTx : Bool) :
    (clrRx = true → Chepr.vtrx (freeCap k clrRx clrTx s).chepr[capEp k] = false) ∧
    (clrTx = true → Chepr.vttx (freeCap k clrRx clrTx s).chepr[capEp k] = false) := by
  have hq' : Quiet (drawCap k clrRx clrTx s) := (drawCap_owner k clrRx clrTx s).toCapabilityFrame.quiet hq
  obtain ⟨f1, h1⟩ := drawCap_register k clrRx clrTx s
  obtain ⟨f2, h2⟩ := drawCap_register k false false (drawCap k clrRx clrTx s)
  rw [freeCap, window_quiet hq', h2, h1]
  constructor <;> rintro rfl <;> simp [Chepr.afterCapability]

/-- After its handler the flag is clear: always where the effect is free, and under an admitted line (R254, R322 (e)). -/
theorem perform_handler_clears {s : State} (hq : Quiet s) (k : Cap) (rx : Bool) :
    let c : Call := if rx then .rxHandler k else .txHandler k
    behaviour s (callSite c) = none ∨ OracleInv s →
      (rx = true → Chepr.vtrx (perform c s).chepr[capEp k] = false) ∧
      (rx = false → Chepr.vttx (perform c s).chepr[capEp k] = false) := by
  intro c hfix
  have hq' : Quiet { s with calls := s.calls ++ [c] } := hq
  rcases perform_handler hq k rx with hfree | ⟨b, ops, hb, ho, hops⟩
  · have hclear := freeCap_clears hq' k rx (!rx)
    rw [show perform c s = _ from hfree]
    exact ⟨hclear.1, fun h => hclear.2 (by rw [h]; rfl)⟩
  · have hok : OracleInv s := hfix.resolve_left fun h => by rw [hb] at h; cases h
    have hserved := hok.clears hb ho
    obtain ⟨htx, hrx⟩ := foldl_capOp_clears k ops hq'
    rw [show perform c s = _ from hops]
    cases rx with
    | true => exact ⟨fun _ => hrx hserved, nofun⟩
    | false => exact ⟨nofun, fun _ => htx hserved⟩

/-- Settles O25: each event is one call, which keeps the contract and clears the flag. -/
theorem capabilityCompletions : Obligations.CapabilityCompletions := by
  intro s k hq
  constructor
  · have f := perform_frame hq (.txHandler k)
    have hclear := perform_handler_clears hq k false
    exact ⟨_, rfl, f.with_pos .reread, perform_calls hq (.txHandler k), fun h => (hclear h).2 rfl⟩
  · have hq' : Quiet (errataDelay s) := hq
    have f := perform_frame hq' (.rxHandler k)
    have hclear := perform_handler_clears hq' k true
    refine ⟨_, rfl, ?_⟩
    rw [window_quiet hq]
    exact ⟨f.with_pos .reread, perform_calls hq' (.rxHandler k), fun h => (hclear h).1 rfl⟩

/-! ### Two runs of one request in different windows -/

/-- What a request's effect on ControlState, calls and classes depends on. -/
structure SameView (s t : State) : Prop where
  cs : t.cs = s.cs
  calls : t.calls = s.calls
  errors : t.errors = s.errors
  oracles : t.oracles = s.oracles
  tick : t.tick = s.tick

namespace SameView

variable {s t : State}

theorem answer (h : SameView s t) (c : Call) : answerOf t c = answerOf s c := answerOf_congr h.oracles h.tick c

theorem verdict (h : SameView s t) (c : Call) : verdictOf t c = verdictOf s c := verdictOf_congr h.oracles h.tick c

/-- After the same calls, whatever the link agent does in the windows (R322). -/
theorem of_access (h : SameView s t) {u v : State} (hu : AccessFrame s u) (hv : AccessFrame t v)
    (hcalls : v.calls = u.calls) : SameView u v where
  cs := by rw [hv.cs, hu.cs, h.cs]
  calls := hcalls
  errors := by rw [hv.errors, hu.errors, h.errors]
  oracles := by rw [hv.oracles, hu.oracles, h.oracles]
  tick := by rw [hv.tick, hu.tick, h.tick]

theorem perform (h : SameView s t) (c : Call) : SameView (perform c s) (perform c t) :=
  h.of_access (perform_access c s) (perform_access c t) (by rw [perform_logs, perform_logs, h.calls])

theorem performAll (h : SameView s t) (f : Cap → Call) : SameView (performAll f s) (performAll f t) :=
  h.of_access (performAll_access f s) (performAll_access f t) (by rw [performAll_logs, performAll_logs, h.calls])

/-- The offer goes to the same capabilities and has the same result (R195, R196). -/
theorem offerRequest (hd : SetupHeader) (ks : List Cap) {s t : State} (h : SameView s t) :
    SameView (offerRequest hd ks s).1 (offerRequest hd ks t).1 ∧ (offerRequest hd ks t).2 = (offerRequest hd ks s).2 := by
  induction ks generalizing s t with
  | nil => exact ⟨h, rfl⟩
  | cons k ks ih =>
    have h1 := h.perform (.wanted k hd)
    simp only [Machine.offerRequest, h.verdict]
    split
    · exact ⟨h1.perform (.handler k hd), h1.answer _⟩
    · exact ih h1

end SameView

/-- `SendChunk` calls nobody (R214). -/
theorem sendChunk_calls (rem : List Byte) (cb : TxTok) (s : State) : (sendChunk rem cb s).calls = s.calls := by
  have hb : s.params.ep0TxOff + (rem.take Config.ep0Mps).length ≤ s.params.sramBytes := by
    obtain ⟨-, -, -, -, h5, -⟩ := Params.layout s.params
    have h6 := List.length_take_le Config.ep0Mps rem
    simp only [Config.ep0Mps] at h6 ⊢
    omega
  have hm := (calls_closed.bdSetTx 0 (txOffset s) (BitVec.ofNat 16 (rem.take Config.ep0Mps).length) _).trans
    (calls_closed.memWriteBytes (rem.take Config.ep0Mps) s.params.ep0TxOff s hb)
  simp only [sendChunk]
  split <;> exact hm

/-- Applying a result calls nobody (R210). -/
theorem finishRequest_calls (res : SetupResult) (hd : SetupHeader) (s : State) :
    (finishRequest res hd s).calls = s.calls := by
  rw [finishRequest, setPos_calls]
  cases res with
  | tx data cb => exact (calls_closed.epUpdate _ _ _).trans (sendChunk_calls _ _ _)
  | rx n cb =>
    simp only [applyResult]
    split
    · have ha := calls_closed.armRx s
      exact (calls_closed.epUpdate 0 _ { armRx s with cs := { (armRx s).cs with rxCb := cb } }).trans ha
    · exact calls_closed.epUpdate _ _ _

/-- The same result applied to the same view leaves the same ControlState, calls and classes. -/
theorem finishRequest_sameView {s t : State} (h : SameView s t) (res : SetupResult) (hd : SetupHeader) :
    (finishRequest res hd t).cs = (finishRequest res hd s).cs ∧
      (finishRequest res hd t).calls = (finishRequest res hd s).calls ∧
      (finishRequest res hd t).errors = (finishRequest res hd s).errors := by
  rw [finishRequest_cs, finishRequest_cs, finishRequest_calls, finishRequest_calls, (finishRequest_access res hd t).errors,
    (finishRequest_access res hd s).errors, h.cs, h.calls, h.errors]
  exact ⟨rfl, rfl, rfl⟩

/-- Settles O43: the calls a request makes and their answers do not depend on the windows, nor does what the result writes of
ControlState. -/
theorem requestsIgnoreLinkMoves : Obligations.RequestsIgnoreLinkMoves := by
  intro i s t t' ws hi h h'
  have h0 : SameView s { s with windows := ws } := ⟨rfl, rfl, rfl, rfl, rfl⟩
  generalize { s with windows := ws } = s' at h0 h'
  cases i <;> simp only [Instr.header?, ne_eq, not_true_eq_false] at hi
  all_goals
    obtain rfl := Host.Outcome.next.inj h
    obtain rfl := Host.Outcome.next.inj h'
  case getStatus => exact finishRequest_sameView h0 _ _
  case setAddress vlo vhi idx len =>
    have hcs : SameView { s with cs := { s.cs with pendingAddr := some (addressOperand vlo) } }
        { s' with cs := { s'.cs with pendingAddr := some (addressOperand vlo) } } :=
      ⟨by rw [h0.cs], h0.calls, h0.errors, h0.oracles, h0.tick⟩
    exact finishRequest_sameView hcs _ _
  case getDescriptorDevice =>
    rw [h0.answer]
    exact finishRequest_sameView (h0.perform _) _ _
  case getDescriptorConfig =>
    rw [h0.answer]
    exact finishRequest_sameView (h0.perform _) _ _
  case getDescriptorString =>
    rw [h0.answer]
    exact finishRequest_sameView (h0.perform _) _ _
  case getDescriptorOther => exact finishRequest_sameView h0 _ _
  case setConfiguration0 => exact finishRequest_sameView h0 _ _
  case setConfiguration1 =>
    have h1 := h0.performAll .init
    generalize performAll .init s = u at h1
    generalize performAll .init s' = u' at h1
    have hcs : SameView { u with cs := { u.cs with configured := true } } { u' with cs := { u'.cs with configured := true } } :=
      ⟨by rw [h1.cs], h1.calls, h1.errors, h1.oracles, h1.tick⟩
    exact finishRequest_sameView hcs _ _
  case setConfigurationOther => exact finishRequest_sameView h0 _ _
  case setInterface => exact finishRequest_sameView h0 _ _
  case classDispatch rt rq vlo vhi idx len =>
    obtain ⟨h1, hres⟩ := SameView.offerRequest ⟨rt, rq, vlo, vhi, idx, len⟩ allCaps h0
    rw [hres]
    exact finishRequest_sameView h1 _ _

end Sys2Proof.Machine
end

section
/-! SUPPORT. Endpoint 0 when no move of the link agent lands inside an event: what each event leaves of DADDR and of CHEPR[0], and
the invariants of R69 along a transfer. -/

namespace Sys2Proof.Machine

/-! ### The SETUP completion -/

/-- The clears of `HandleSetup` do not change what is read of the packet (R182). -/
theorem parseSetup_clearTransfer (a : Nat) (s : State) : parseSetup a (clearTransfer s) = parseSetup a s := rfl

theorem bdRxCount_clearTransfer (n : Fin 8) (s : State) : bdRxCount n (clearTransfer s) = bdRxCount n s := rfl

/-- `HandleSetup` up to the header, in one equation (R180 to R184). -/
theorem handleSetup_quiet {s : State} (hq : Quiet s) : handleSetup s =
    if bdRxCount 0 s < 8 then
      setPos .reread (raiseStall .shortSetup { clearTransfer s with cs := { (clearTransfer s).cs with setup := none } })
    else { clearTransfer s with
      cs := { (clearTransfer s).cs with setup := some (parseSetup s.params.ep0RxOff s) }
      pos := .request (parseSetup s.params.ep0RxOff s) } := by
  have hq' : Quiet (clearTransfer s) := hq
  unfold handleSetup
  simp only [fence_eq, window_quiet hq', bdRxCount_clearTransfer, clearTransfer_params, parseSetup_clearTransfer]
  rfl

/-- The length reported of the packet, read from settled memory (R165). -/
theorem bdRxCount_settled {s : State} (hset : s.rxUnsettled = false) (n : Fin 8) :
    bdRxCount n s = (rxbdCount (storedWord s (rxbdAddr n))).toNat := by
  rw [bdRxCount, bdRxDecode_settled hset]

/-- Settles O31: the two branches of `handleSetup_quiet`. -/
theorem setupReceived : Obligations.SetupReceived := by
  intro s hq clear
  refine ⟨fun hlt => ⟨_, rfl, ?_⟩, fun hge => ⟨_, rfl, ?_⟩, fun hset => ⟨bdRxCount_settled hset 0, ?_⟩⟩
  · have hq' : Quiet { clearTransfer s with cs := { (clearTransfer s).cs with setup := none } } := hq
    rw [handleSetup_quiet hq, if_pos hlt]
    exact raiseStall_quiet hq' .shortSetup
  · rw [handleSetup_quiet hq, if_neg (Nat.not_lt.2 hge)]
    rfl
  · obtain ⟨-, -, -, -, -, haligned, -⟩ := Params.layout s.params
    exact parseRoundTrip.1 s _ hset haligned

/-! ### What a result leaves of endpoint 0 -/

/-- A register whose fields without a target stay and whose complete flags can only fall (R228). -/
structure TransferKept (old new : Half) : Prop extends RegisterKept old new where
  utype : Chepr.utype new = Chepr.utype old
  ea : Chepr.ea new = Chepr.ea old
  dtogtx : Chepr.dtogtx new = Chepr.dtogtx old

namespace TransferKept

theorem refl (v : Half) : TransferKept v v := ⟨.refl v, rfl, rfl, rfl⟩

theorem trans {u v w : Half} (h1 : TransferKept u v) (h2 : TransferKept v w) : TransferKept u w :=
  ⟨h1.toRegisterKept.trans h2.toRegisterKept, h2.utype.trans h1.utype, h2.ea.trans h1.ea, h2.dtogtx.trans h1.dtogtx⟩

/-- An `EpUpdate` without a target for these fields (R155). -/
theorem updated (v : Half) {req : EpReq} (h1 : req.utype = none) (h2 : req.ea = none) (h3 : req.dtogtx = none) :
    TransferKept v (Chepr.updated v req) :=
  ⟨.updated v req, by simp [Chepr.updated, h1], by simp [Chepr.updated, h2], by simp [Chepr.updated, h3]⟩

theorem set (r : Vector Half 8) {req : EpReq} (h1 : req.utype = none) (h2 : req.ea = none) (h3 : req.dtogtx = none) :
    TransferKept r[(0 : Fin 8)] (r.set (0 : Fin 8) (Chepr.updated r[(0 : Fin 8)] req))[(0 : Fin 8)] := by
  have hset : (r.set (0 : Fin 8) (Chepr.updated r[(0 : Fin 8)] req))[(0 : Fin 8)] = Chepr.updated r[(0 : Fin 8)] req := by
    simp
  rw [hset]
  exact .updated _ h1 h2 h3

/-- What each way of applying a result writes: VTRX cleared, DTOGRX and the status fields free (R211 to R213). -/
theorem served (v : Half) (dtogrx : Bool) (statrx stattx : BitVec 2) :
    TransferKept v (Chepr.pack false dtogrx statrx (Chepr.setup v) (Chepr.utype v) (Chepr.epkind v) (Chepr.vttx v)
      (Chepr.dtogtx v) stattx (Chepr.ea v)) :=
  ⟨⟨by simp, by simp, by simp, by simp⟩, by simp, by simp, by simp⟩

end TransferKept

/-- What an event leaves of endpoint 0's register and of DADDR, where it is no bus reset (R228, R356). -/
structure EndpointKept (s t : State) : Prop where
  register : TransferKept s.chepr[(0 : Fin 8)] t.chepr[(0 : Fin 8)]
  daddr : t.daddr = s.daddr

namespace EndpointKept

theorem trans {s t u : State} (h1 : EndpointKept s t) (h2 : EndpointKept t u) : EndpointKept s u :=
  ⟨h1.register.trans h2.register, h2.daddr.trans h1.daddr⟩

theorem of_same {s t : State} (h1 : t.chepr = s.chepr) (h2 : t.daddr = s.daddr) : EndpointKept s t :=
  ⟨by rw [h1]; exact .refl _, h2⟩

/-- Moving CORE's position changes neither. -/
theorem setPos {s t : State} (h : EndpointKept s t) (p : Pos) : EndpointKept s (setPos p t) := ⟨h.register, h.daddr⟩

theorem of_capability {s t : State} (f : CapabilityFrame s t) : EndpointKept s t :=
  ⟨by rw [f.endpointZero]; exact .refl _, by rw [f.state]⟩

/-- An `EpUpdate` of endpoint 0 without a target for the kept fields. -/
theorem epUpdate {s : State} (hq : Quiet s) {req : EpReq} (h1 : req.utype = none) (h2 : req.ea = none)
    (h3 : req.dtogtx = none) : EndpointKept s (epUpdate 0 req s) := by
  rw [epUpdate_quiet hq]
  exact ⟨.set s.chepr h1 h2 h3, rfl⟩

theorem bdSetTx {s : State} (hq : Quiet s) (off count : Half) : EndpointKept s (bdSetTx 0 off count s) := by
  rw [(bdSetTx_spec hq 0 off count).1]
  exact .of_same rfl rfl

theorem sendChunk {s : State} (hq : Quiet s) (rem : List Byte) (cb : TxTok) : EndpointKept s (sendChunk rem cb s) := by
  rw [sendChunk_state hq]
  exact .of_same rfl rfl

theorem raiseStall {s : State} (hq : Quiet s) (e : ErrorClass) : EndpointKept s (raiseStall e s) := by
  have hq' : Quiet (raise e s) := hq
  exact (of_same rfl rfl : EndpointKept s (raise e s)).trans (.epUpdate hq' rfl rfl rfl)

/-- A register of endpoint 0 in which a result was applied. -/
theorem of_served {s t : State} {dtogrx : Bool} {statrx stattx : BitVec 2} (h : t.chepr = s.chepr.set (0 : Fin 8)
      (Chepr.pack false dtogrx statrx (Chepr.setup s.chepr[(0 : Fin 8)]) (Chepr.utype s.chepr[(0 : Fin 8)])
        (Chepr.epkind s.chepr[(0 : Fin 8)]) (Chepr.vttx s.chepr[(0 : Fin 8)]) (Chepr.dtogtx s.chepr[(0 : Fin 8)]) stattx
        (Chepr.ea s.chepr[(0 : Fin 8)]))) (hd : t.daddr = s.daddr) : EndpointKept s t := by
  refine ⟨?_, hd⟩
  have hk := TransferKept.served s.chepr[(0 : Fin 8)] dtogrx statrx stattx
  rw [h]
  generalize Chepr.pack false dtogrx statrx _ _ _ _ _ stattx _ = v at hk
  simpa using hk

/-- Applying a result (R210). -/
theorem finishRequest {s : State} (hq : Quiet s) (res : SetupResult) (hd : SetupHeader) :
    EndpointKept s (Machine.finishRequest res hd s) := by
  have hr := finishRequest_quiet hq res hd
  generalize Machine.finishRequest res hd s = t at hr
  unfold ResultApplied at hr
  cases res with
  | tx data cb => exact .of_served (congrArg State.chepr hr.state) (by rw [hr.state])
  | rx n cb =>
    dsimp only at hr
    split at hr
    · exact .of_served (congrArg State.chepr hr.state) (by rw [hr.state])
    · exact .of_served (congrArg State.chepr hr) (by rw [hr])

end EndpointKept

/-- The register of endpoint 0 and DADDR after `ControlTxDone`, where the deferred address is the only thing that writes
DADDR (R221, R223, R226). -/
theorem controlTxDone_endpoint {s : State} (hq : Quiet s) :
    TransferKept s.chepr[(0 : Fin 8)] (controlTxDone s).chepr[(0 : Fin 8)] ∧
    ((controlTxDone s).daddr = s.daddr ∨ s.cs.txTail = none ∧ s.cs.postAckCb = .applyAddress ∧
      ∃ a, s.cs.pendingAddr = some a ∧ (controlTxDone s).daddr = 0x80#8 ||| a.setWidth 8 ∧
        (controlTxDone s).cs.pendingAddr = none) := by
  cases ht : s.cs.txTail with
  | some rem =>
    have h1 := EndpointKept.sendChunk hq rem s.cs.txTailCb
    have hq' : Quiet (sendChunk rem s.cs.txTailCb s) := by rw [sendChunk_state hq]; exact hq
    have h2 := h1.trans (.epUpdate hq' (req := { stattx := some stValid, clrTx := true }) rfl rfl rfl)
    rw [controlTxDone_tail ht]
    exact ⟨h2.register, .inl h2.daddr⟩
  | none =>
    have hi := invokePostAck_quiet hq
    obtain ⟨hq', h0⟩ := hi.frame hq
    rw [controlTxDone_noTail ht, endTransfer_quiet hq']
    generalize invokePostAck s = u at hi h0
    refine ⟨?_, ?_⟩
    · rw [← h0]
      exact .set u.chepr (req := { statrx := some stValid, dtogrx := some false, clrTx := true }) rfl rfl rfl
    · unfold TokenInvoked at hi
      split at hi
      · exact .inl (by rw [hi])
      · exact .inl (by rw [hi])
      · rename_i hp
        split at hi
        · rename_i a ha
          exact .inr ⟨rfl, hp, a, ha, by rw [hi], by rw [hi]⟩
        · exact .inl (by rw [hi])
      · exact .inl (by rw [hi.1.state])

theorem handleOut_endpoint {s : State} (hq : Quiet s) : EndpointKept s (handleOut s) := by
  rcases handleOut_cases hq with ⟨e, -⟩ | ⟨e, u, f, h⟩
  · have h0 : EndpointKept s { s with cs := { s.cs with txTail := none, txTailCb := .none } } := .of_same rfl rfl
    rw [e]
    exact h0.trans (.epUpdate (by exact hq) rfl rfl rfl)
  · have hq' : Quiet { u with cs := { u.cs with rxCb := .none, setup := none } } := f.quiet hq
    have h0 : EndpointKept s { u with cs := { u.cs with rxCb := .none, setup := none } } :=
      (EndpointKept.of_capability f).trans (.of_same rfl rfl)
    rw [h]
    cases e with
    | none =>
      have hq2 : Quiet (bdSetTx 0 (txOffset u) 0#16 { u with cs := { u.cs with rxCb := .none, setup := none } }) := by
        rw [(bdSetTx_spec hq' 0 (txOffset u) 0#16).1]
        exact hq'
      exact h0.trans ((EndpointKept.bdSetTx hq' _ _).trans (.epUpdate hq2 rfl rfl rfl))
    | some c =>
      have h1 : EndpointKept s (raise c { u with cs := { u.cs with rxCb := .none, setup := none } }) :=
        h0.trans (.of_same rfl rfl)
      exact h1.trans (.epUpdate (by exact hq') rfl rfl rfl)

theorem handleSetup_endpoint {s : State} (hq : Quiet s) : EndpointKept s (handleSetup s) := by
  rw [handleSetup_quiet hq]
  split
  · have hq' : Quiet { clearTransfer s with cs := { (clearTransfer s).cs with setup := none } } := hq
    have h0 : EndpointKept s { clearTransfer s with cs := { (clearTransfer s).cs with setup := none } } := .of_same rfl rfl
    exact (h0.trans (.raiseStall hq' _)).trans (.of_same rfl rfl)
  · exact .of_same rfl rfl

/-- What every event but a bus reset leaves of CHEPR[0], and which one writes DADDR (R228, R356). -/
theorem exec_endpoint {i : Instr} {s t : State} (hq : Quiet s) (h : exec i s = .next t)
    (hi : ∀ ctr code, i ≠ .irqReset ctr code) :
    TransferKept s.chepr[(0 : Fin 8)] t.chepr[(0 : Fin 8)] ∧
    (t.daddr = s.daddr ∨ i = .ctrEp0Tx ∧ s.cs.txTail = none ∧ s.cs.postAckCb = .applyAddress ∧
      ∃ a, s.cs.pendingAddr = some a ∧ t.daddr = 0x80#8 ||| a.setWidth 8 ∧ t.cs.pendingAddr = none) := by
  have of_kept : ∀ {u : State} {p : Prop}, EndpointKept s u →
      TransferKept s.chepr[(0 : Fin 8)] u.chepr[(0 : Fin 8)] ∧ (u.daddr = s.daddr ∨ p) :=
    fun hk => ⟨hk.register, .inl hk.daddr⟩
  cases hh : i.header? with
  | some hd =>
    obtain ⟨res, c, u, e, f, -⟩ := exec_request hh hq
    obtain rfl := Host.Outcome.next.inj (h.symm.trans e)
    have h0 : EndpointKept s { s with cs := c } := .of_same rfl rfl
    have hq' : Quiet u := f.quiet hq
    exact of_kept (h0.trans ((EndpointKept.of_capability f).trans (.finishRequest hq' res hd)))
  | none =>
    cases i <;> simp only [Instr.header?, reduceCtorEq] at hh <;> obtain rfl := Host.Outcome.next.inj h
    case irqSof => exact of_kept ((EndpointKept.of_capability (performAll_frame hq .sof)).setPos _)
    case irqReset ctr code => exact absurd rfl (hi ctr code)
    case irqCtr => exact of_kept ⟨.refl _, rfl⟩
    case ctrEp0Tx =>
      obtain ⟨h1, h2⟩ := controlTxDone_endpoint hq
      exact ⟨h1, h2.imp id fun h => ⟨rfl, h⟩⟩
    case ctrEp0RxSetup => exact of_kept (handleSetup_endpoint hq)
    case ctrEp0RxOut => exact of_kept ((handleOut_endpoint hq).setPos _)
    case ctrCapTx k => exact of_kept ((EndpointKept.of_capability (perform_frame hq (.txHandler k))).setPos _)
    case ctrCapRx k =>
      have hq' : Quiet (errataDelay s) := hq
      have hk : EndpointKept (errataDelay s) (perform (.rxHandler k) (errataDelay (window s))) := by
        rw [window_quiet hq]
        exact .of_capability (perform_frame hq' (.rxHandler k))
      exact of_kept (((EndpointKept.of_same rfl rfl : EndpointKept s (errataDelay s)).trans hk).setPos _)
    case ctrUndispatchable => exact of_kept ⟨.refl _, rfl⟩

/-- What a bus reset leaves (R246, R257). -/
theorem exec_irqReset {ctr : Bool} {code : BitVec 5} {s t : State} (hq : Quiet s)
    (h : exec (.irqReset ctr code) s = .next t) :
    Reinitialised { s with any := true, pos := .causes (istrWord false false ctr code) } t := by
  obtain ⟨t', ht', r⟩ := busReset s ctr code hq
  obtain rfl := Host.Outcome.next.inj (h.symm.trans ht')
  exact r

/-- Settles O29: a bus reset aside, only `ControlTxDone` writes DADDR. -/
theorem addressAppliedLate : Obligations.AddressAppliedLate := by
  intro i s t hq h hne
  by_cases hi : ∃ ctr code, i = .irqReset ctr code
  · obtain ⟨ctr, code, rfl⟩ := hi
    exact .inl ⟨ctr, code, rfl, by rw [(exec_irqReset hq h).state]⟩
  · exact .inr ((exec_endpoint hq h fun ctr code e => hi ⟨ctr, code, e⟩).2.resolve_left hne)

/-- Settles O53: the events give targets to the status fields and DTOGRX only; a bus reset is `DeviceInit`. -/
theorem endpointZeroFieldsKept : Obligations.EndpointZeroFieldsKept := by
  intro i s t hq h
  by_cases hi : ∃ ctr code, i = .irqReset ctr code
  · obtain ⟨ctr, code, rfl⟩ := hi
    have h0 := (exec_irqReset hq h).endpointZero
    refine ⟨by rw [h0]; simp, by rw [h0]; simp, fun hv => ?_, fun hv => ?_, fun hno => absurd rfl (hno ctr code)⟩
    · rw [h0] at hv
      simp at hv
    · rw [h0] at hv
      simp at hv
  · obtain ⟨hk, -⟩ := exec_endpoint hq h fun ctr code e => hi ⟨ctr, code, e⟩
    exact ⟨hk.setup, hk.epkind, hk.vtrx, hk.vttx, fun _ => ⟨hk.utype, hk.ea, hk.dtogtx⟩⟩

end Sys2Proof.Machine
end

section
/-! SUPPORT. The invariants of R69 along a transfer: what applying a result and each completion of endpoint 0 leave of them, and
that every step of a run keeps them (log 28). -/

namespace Sys2Proof.Machine

/-! ### A request -/

/-- The header of a request is stored and nothing is armed or pending beside it (R182, R184). -/
structure SetupLatched (hd : SetupHeader) (c : ControlState) : Prop where
  setup : c.setup = some hd
  txTail : c.txTail = none
  txTailCb : c.txTailCb = .none
  postAckCb : c.postAckCb = .none
  rxCb : c.rxCb = .none

namespace ResultApplied
variable {res : SetupResult} {hd : SetupHeader} {s t : State}

/-- Every result serves the SETUP completion, and one that arms a predicate leaves TX as it was (R211 to R213). -/
theorem endpoint (h : ResultApplied res hd s t) : Chepr.vtrx t.chepr[(0 : Fin 8)] = false ∧ (t.cs.rxCb = s.cs.rxCb ∨
    Chepr.vttx t.chepr[(0 : Fin 8)] = Chepr.vttx s.chepr[(0 : Fin 8)] ∧
      Chepr.stattx t.chepr[(0 : Fin 8)] = Chepr.stattx s.chepr[(0 : Fin 8)]) := by
  unfold ResultApplied at h
  cases res with
  | tx data cb =>
    refine ⟨by rw [h.state]; simp, .inl ?_⟩
    rw [h.state]
    exact (afterChunk_fields _ cb _).1
  | rx n cb =>
    dsimp only at h
    split at h
    · exact ⟨by rw [h.state]; simp, .inr ⟨by rw [h.state]; simp, by rw [h.state]; simp⟩⟩
    · exact ⟨by rw [h]; simp, .inl (by rw [h])⟩

/-- A result applied to the header just latched meets the invariants; a deferred address is one whose token it carries (R69,
R187). -/
theorem transferInv (h : ResultApplied res hd s t) (hl : SetupLatched hd s.cs)
    (hp : s.cs.pendingAddr ≠ none → ∃ data, res = .tx data .applyAddress)
    (hst : Chepr.statrx s.chepr[(0 : Fin 8)] ≠ stValid) : TransferInv t ∧ EndpointZeroInv t := by
  have hv := h.endpoint.1
  have noAddress : (∀ data, res ≠ .tx data .applyAddress) → s.cs.pendingAddr = none := fun hne =>
    by_contra fun ha => (hp ha).elim hne
  unfold ResultApplied at h
  cases res with
  | tx data cb =>
    refine transferInv_afterChunk (c := { s.cs with short := decide (data.length < hd.length.toNat) })
      (congrArg State.cs h.state) (take_requested_le data hd.length) (by rw [hl.setup]; nofun) hl.rxCb (fun ha => ?_) ?_
      (fun hvt => absurd (hv.symm.trans hvt) (by decide))
    · obtain ⟨_, e⟩ := hp ha
      cases e
      rfl
    · rw [h.state]
      simpa using hst
  | rx n cb =>
    have ha := noAddress nofun
    dsimp only at h
    split at h
    · rename_i hn
      have hcs := congrArg State.cs h.state
      refine transferInv_cleared (by rw [hcs]; exact hl.txTail) (by rw [hcs]; exact hl.txTailCb)
        (by rw [hcs]; exact hl.postAckCb) (by rw [hcs]; exact ha) fun _ => ⟨hd, by rw [hcs]; exact hl.setup, ?_⟩
      rw [← hn.1]
      exact hn.2
    · have hcs := congrArg State.cs h
      exact transferInv_cleared (by rw [hcs]; exact hl.txTail) (by rw [hcs]; exact hl.txTailCb)
        (by rw [hcs]; exact hl.postAckCb) (by rw [hcs]; exact ha) fun hc => absurd (by rw [hcs]; exact hl.rxCb) hc

end ResultApplied

/-- What a request leaves of the header just latched (R185, R210). -/
theorem exec_request_transferInv {i : Instr} {hd : SetupHeader} {s t : State} (hq : Quiet s) (hi : i.header? = some hd)
    (hl : SetupLatched hd s.cs) (ha : s.cs.pendingAddr = none) (hst : Chepr.statrx s.chepr[(0 : Fin 8)] ≠ stValid)
    (h : exec i s = .next t) : (TransferInv t ∧ EndpointZeroInv t) ∧ Chepr.vtrx t.chepr[(0 : Fin 8)] = false ∧
      (t.cs.rxCb = .none ∨ Chepr.vttx t.chepr[(0 : Fin 8)] = Chepr.vttx s.chepr[(0 : Fin 8)] ∧
        Chepr.stattx t.chepr[(0 : Fin 8)] = Chepr.stattx s.chepr[(0 : Fin 8)]) := by
  obtain ⟨res, c, u, e, f, hc⟩ := exec_request hi hq
  obtain rfl := Host.Outcome.next.inj (h.symm.trans e)
  have hr := finishRequest_quiet (f.quiet hq) res hd
  have hcs : u.cs = c := by rw [f.state]
  have hreg : u.chepr[(0 : Fin 8)] = s.chepr[(0 : Fin 8)] := f.endpointZero
  have hlu : SetupLatched hd u.cs := by
    rw [hcs]
    rcases hc with ⟨rfl, -⟩ | ⟨_, rfl, -⟩ | ⟨rfl, -⟩
    · exact hl
    all_goals exact ⟨hl.setup, hl.txTail, hl.txTailCb, hl.postAckCb, hl.rxCb⟩
  have hpu : u.cs.pendingAddr ≠ none → ∃ data, res = .tx data .applyAddress := by
    rw [hcs]
    rcases hc with ⟨rfl, -⟩ | ⟨_, -, rfl⟩ | ⟨rfl, -⟩
    · exact fun hne => absurd ha hne
    · exact fun _ => ⟨_, rfl⟩
    · exact fun hne => absurd ha hne
  obtain ⟨hv, hkeep⟩ := hr.endpoint
  refine ⟨hr.transferInv hlu hpu (by rw [hreg]; exact hst), hv, ?_⟩
  rw [← hreg, ← hlu.rxCb]
  exact hkeep

/-- Settles O54: a request is applied to the header just latched. -/
theorem requestEstablishesTransferInv : Obligations.RequestEstablishesTransferInv := by
  intro i hd s t hq hi h1 h2 h3 h4 h5 h6 hst h
  exact (exec_request_transferInv hq hi ⟨h1, h2, h3, h4, h6⟩ h5 hst h).1

/-! ### The completions of endpoint 0 -/

/-- The invariants hold wherever the invocation stands. -/
theorem transferInv_setPos {t : State} (h : TransferInv t ∧ EndpointZeroInv t) (p : Pos) :
    TransferInv (setPos p t) ∧ EndpointZeroInv (setPos p t) := ⟨h.1.congr rfl, h.2.congr rfl rfl⟩

/-- Where neither tail nor token is pending, no address is deferred (R69 (a), (e)). -/
theorem TransferInv.noAddress {s : State} (h : TransferInv s) (ht : s.cs.txTail = none) (hp : s.cs.postAckCb = .none) :
    s.cs.pendingAddr = none := by
  by_contra ha
  rcases h.address ha with e | e
  · cases hp.symm.trans e
  · cases (h.tailToken ht).symm.trans e

/-- The ControlState `HandleSetup` leaves: the continuation cleared, and the header of a packet of full length (R182, R184). -/
theorem handleSetup_cs_quiet {s : State} (hq : Quiet s) : (handleSetup s).cs = { (clearTransfer s).cs with
    setup := if bdRxCount 0 s < 8 then none else some (parseSetup s.params.ep0RxOff s) } := by
  rw [handleSetup_quiet hq]
  split
  · rw [setPos_cs, (raiseStall_access _ _).cs]
  · rfl

theorem handleSetup_transferInv {s : State} (hq : Quiet s) :
    TransferInv (handleSetup s) ∧ EndpointZeroInv (handleSetup s) := by
  have hcs := handleSetup_cs_quiet hq
  exact transferInv_cleared (by rw [hcs]; rfl) (by rw [hcs]; rfl) (by rw [hcs]; rfl) (by rw [hcs]; rfl)
    fun hc => absurd (by rw [hcs]; rfl) hc

/-- `HandleOut` ends with no predicate armed: it is discarded only where none is (R69 (d), R224), or judged and cleared
(R225). -/
theorem handleOut_cs_quiet {s : State} (hq : Quiet s) (hp : PredicateInv s) : (handleOut s).cs.rxCb = .none ∧
    ((handleOut s).cs = { s.cs with txTail := none, txTailCb := .none } ∨
      (handleOut s).cs = { s.cs with rxCb := .none, setup := none }) := by
  rcases handleOut_cases hq with ⟨e, hlen⟩ | ⟨e, u, f, h⟩
  · have hrx : s.cs.rxCb = .none := by
      by_contra hc
      obtain ⟨hd, hset, hne⟩ := hp hc
      exact hne (hlen hd hset)
    rw [e, discardOut_quiet hq]
    exact ⟨hrx, .inl rfl⟩
  · have hcs : u.cs = s.cs := by rw [f.state]
    have hfin : (finishOut e u).cs = { s.cs with rxCb := .none, setup := none } := by
      rw [← hcs, ← setPos_cs .reread]
      cases e with
      | none => rw [(finishOut_accepted (f.quiet hq)).state]
      | some c => rw [finishOut_rejected (f.quiet hq) c]
    rw [h, hfin]
    exact ⟨rfl, .inr rfl⟩

/-- An OUT completion where no `Tx` response is pending (R224, R225). -/
theorem handleOut_transferInv {s : State} (hq : Quiet s) (hi : TransferInv s) (ht : s.cs.txTail = none)
    (hp : s.cs.postAckCb = .none) : TransferInv (handleOut s) ∧ EndpointZeroInv (handleOut s) := by
  have ha := hi.noAddress ht hp
  have hcb := hi.tailToken ht
  obtain ⟨hrx, hcs | hcs⟩ := handleOut_cs_quiet hq hi.predicate
  · exact transferInv_cleared (by rw [hcs]) (by rw [hcs]) (by rw [hcs]; exact hp) (by rw [hcs]; exact ha)
      fun hc => absurd hrx hc
  · exact transferInv_cleared (by rw [hcs]; exact ht) (by rw [hcs]; exact hcb) (by rw [hcs]; exact hp)
      (by rw [hcs]; exact ha) fun hc => absurd hrx hc

/-- An unserved OUT completion rules out that a `Tx` response is pending (R69). -/
theorem EndpointZeroInv.noResponse {s : State} (h : EndpointZeroInv s) (hv : Chepr.vtrx s.chepr[(0 : Fin 8)] = true)
    (hs : Chepr.setup s.chepr[(0 : Fin 8)] = false) : s.cs.txTail = none ∧ s.cs.postAckCb = .none := by
  have hn : ¬(s.cs.txTail ≠ none ∨ s.cs.postAckCb ≠ .none) := fun hc =>
    absurd (hs.symm.trans (h.noServedOut hc hv)) (by decide)
  rw [not_or, not_not, not_not] at hn
  exact hn

/-- Invoking the token leaves ControlState alone but for the deferred address it applies (R226). -/
theorem TokenInvoked.cs {s u : State} (h : TokenInvoked s u) : u.cs = { s.cs with
    pendingAddr := if s.cs.setup ≠ none ∧ s.cs.postAckCb = .applyAddress then none else s.cs.pendingAddr } := by
  unfold TokenInvoked at h
  split at h
  · rename_i hs
    rw [if_neg fun hc => hc.1 hs, h]
  · rename_i hp
    have hn : ¬(s.cs.setup ≠ none ∧ s.cs.postAckCb = .applyAddress) := by simp [hp]
    rw [if_neg hn, h]
  · rename_i hs hp
    split at h
    · rw [h]
      simp [hs, hp]
    · rename_i ha
      subst h
      simp only [ha, ite_self]
      rw [← ha]
  · rename_i hp
    have hn : ¬(s.cs.setup ≠ none ∧ s.cs.postAckCb = .applyAddress) := by simp [hp]
    rw [if_neg hn, h.1.state]

/-- A TX completion where no OUT data stage is armed: the next chunk of the tail, or the end of the transfer with its deferred
address (R221, R223). -/
theorem controlTxDone_transferInv {s : State} (hq : Quiet s) (hi : TransferInv s) (he : EndpointZeroInv s)
    (hrx : s.cs.rxCb = .none) :
    (TransferInv (controlTxDone s) ∧ EndpointZeroInv (controlTxDone s)) ∧ (controlTxDone s).cs.rxCb = .none := by
  obtain ⟨hreg, -⟩ := controlTxDone_endpoint hq
  cases ht : s.cs.txTail with
  | some rem =>
    have hne : s.cs.txTail ≠ none := by rw [ht]; nofun
    obtain ⟨u, hu, -, hstate⟩ := txDoneSendsTail s rem hq ht
    obtain rfl := Host.Outcome.next.inj hu
    have hcs : (controlTxDone s).cs = afterChunk rem s.cs.txTailCb s.cs := congrArg State.cs hstate
    have hst : Chepr.statrx (setPos .reread (controlTxDone s)).chepr[(0 : Fin 8)] = Chepr.statrx s.chepr[(0 : Fin 8)] := by
      rw [hstate]
      simp
    refine ⟨transferInv_afterChunk hcs (hi.tailLength rem ht) (he.header hne) hrx (fun ha => ?_) ?_ fun hv => ?_, ?_⟩
    · exact (hi.address ha).resolve_left (by rw [he.tail hne]; nofun)
    · exact fun hv => he.noOut (.inl hne) (hst.symm.trans hv)
    · rw [hreg.setup]
      exact he.noServedOut (.inl hne) (hreg.vtrx hv)
    · rw [hcs, (afterChunk_fields _ _ _).1]
      exact hrx
  | none =>
    have hk := invokePostAck_quiet hq
    obtain ⟨hqu, -⟩ := hk.frame hq
    have hcs : (controlTxDone s).cs = { (invokePostAck s).cs with postAckCb := .none, setup := none } := by
      rw [controlTxDone_noTail ht, endTransfer_quiet hqu]
    rw [hk.cs] at hcs
    have ha : (controlTxDone s).cs.pendingAddr = none := by
      rw [hcs]
      by_cases hp : s.cs.pendingAddr = none
      · simp [hp]
      · have htok := (hi.address hp).resolve_right (by rw [hi.tailToken ht]; nofun)
        have hset := hi.postAck (by rw [htok]; nofun)
        simp [htok, hset]
    have hrx' : (controlTxDone s).cs.rxCb = .none := by rw [hcs]; exact hrx
    exact ⟨transferInv_cleared (by rw [hcs]; exact ht) (by rw [hcs]; exact hi.tailToken ht) (by rw [hcs]) ha
      fun hc => absurd hrx' hc, hrx'⟩

/-- Settles O55: the three handlers of endpoint 0. -/
theorem completionsKeepTransferInv : Obligations.CompletionsKeepTransferInv := by
  intro s t hq hi he
  refine ⟨fun h => ?_, fun hv hs h => ?_, fun hrx h => ?_⟩ <;> obtain rfl := Host.Outcome.next.inj h
  · exact handleSetup_transferInv hq
  · obtain ⟨ht, hp⟩ := he.noResponse hv hs
    exact transferInv_setPos (handleOut_transferInv hq hi ht hp) _
  · exact transferInv_setPos (controlTxDone_transferInv hq hi he hrx).1 _

end Sys2Proof.Machine
end

section
/-! SUPPORT. The invariants of R69 along a run (log 28): what keeps `RunInv` when endpoint 0 and ControlState are left alone,
what the events of endpoint 0 and the link agent's moves leave of it, and the step. -/

namespace Sys2Proof.Machine

/-! ### What is served next -/

/-- Only the slot of RX of endpoint 0 has the code 16 (R41, R101). -/
theorem receive_mem_pendingSlots {s : State} : 16#5 ∈ pendingSlots s ↔ Chepr.vtrx s.chepr[(0 : Fin 8)] = true := by
  have hrx : ∀ n : Fin 8, 16#5 = BitVec.ofNat 5 (16 + n.val) → n = 0 := by decide
  have htx : ∀ n : Fin 8, 16#5 ≠ BitVec.ofNat 5 n.val := by decide
  rw [mem_pendingSlots]
  refine ⟨?_, fun h => .inl ⟨0, h, rfl⟩⟩
  rintro (⟨n, h, e⟩ | ⟨n, -, e⟩)
  · rwa [hrx n e] at h
  · exact absurd e (htx n)

/-- Only the slot of TX of endpoint 0 has the code 0 (R41, R101). -/
theorem transmit_mem_pendingSlots {s : State} : 0#5 ∈ pendingSlots s ↔ Chepr.vttx s.chepr[(0 : Fin 8)] = true := by
  have hrx : ∀ n : Fin 8, 0#5 ≠ BitVec.ofNat 5 (16 + n.val) := by decide
  have htx : ∀ n : Fin 8, 0#5 = BitVec.ofNat 5 n.val → n = 0 := by decide
  rw [mem_pendingSlots]
  refine ⟨?_, fun h => .inr ⟨0, h, rfl⟩⟩
  rintro (⟨n, -, e⟩ | ⟨n, h, e⟩)
  · exact absurd e (hrx n)
  · rwa [htx n e] at h

/-- Where no code is forced a read of ISTR with CTR set shows a pending slot (R41). -/
theorem istrValue_pending {s : State} (hb : s.badCode = none) (hv : (istrValue s).getLsbD 15 = true) :
    (istrValue s).extractLsb' 0 5 ∈ pendingSlots s := by
  rw [istrValue_ctr] at hv
  rw [istrValue_code]
  rcases reportedCode_cases hb with ⟨e, -⟩ | ⟨c, e, hc⟩
  · rw [e] at hv
    cases hv
  · rw [e]
    exact hc

/-- The code served next of latched causes (R240). -/
theorem nextCode_causes {s : State} {v : Half} (hp : s.pos = .causes v) :
    nextCode s = if v.getLsbD 15 && !v.getLsbD 10 then some (v.extractLsb' 0 5) else none := by
  simp only [nextCode, hp]

theorem nextCode_code {s : State} {c : BitVec 5} (hp : s.pos = .code c) : nextCode s = some c := by
  simp only [nextCode, hp]

theorem nextCode_idle {s : State} (hp : s.pos = .idle) : nextCode s = none := by simp only [nextCode, hp]

theorem nextCode_reread {s : State} (hp : s.pos = .reread) : nextCode s = none := by simp only [nextCode, hp]

theorem nextCode_request {s : State} {hd : SetupHeader} (hp : s.pos = .request hd) : nextCode s = none := by
  simp only [nextCode, hp]

namespace RunInv
variable {s t : State}

/-! ### Endpoint 0 and ControlState left alone -/

/-- What speaks of the position apart, the invariants look at ControlState and CHEPR[0] only. -/
theorem of_same (h : RunInv s) (hd : DispatchableInv t) (hc : t.cs = s.cs)
    (hr : t.chepr[(0 : Fin 8)] = s.chepr[(0 : Fin 8)]) (hpos : ∀ hd, t.pos = .request hd → s.pos = .request hd)
    (hrec : nextCode t = some 16#5 → Chepr.vtrx s.chepr[(0 : Fin 8)] = true ∨
      s.cs.setup = none ∧ rxbdCount (storedWord t (rxbdAddr 0)) = 0#10)
    (htx : nextCode t = some 0#5 → s.cs.rxCb = .none ∧ ¬SetupPending s) : RunInv t where
  dispatchable := hd
  transfer := h.transfer.congr hc
  endpointZero := h.endpointZero.congr hc hr
  armed := by rw [hc, hr]; exact h.armed
  pending := by rw [SetupPending, hr]; exact h.pending
  request := fun hd hp => by rw [SetupPending, hc, hr]; exact h.request hd (hpos hd hp)
  receive := by rw [hc, hr]; exact hrec
  transmit := by rw [SetupPending, hc, hr]; exact htx

/-- No code is served next that was not before. -/
theorem congr (h : RunInv s) (hd : DispatchableInv t) (hc : t.cs = s.cs)
    (hr : t.chepr[(0 : Fin 8)] = s.chepr[(0 : Fin 8)]) (hpos : ∀ hd, t.pos = .request hd → s.pos = .request hd)
    (hn : ∀ c, nextCode t = some c → nextCode s = some c)
    (hw : storedWord t (rxbdAddr 0) = storedWord s (rxbdAddr 0)) : RunInv t :=
  h.of_same hd hc hr hpos (fun e => by rw [hw]; exact h.receive (hn _ e)) fun e => h.transmit (hn _ e)

/-- No code and no request is latched. -/
theorem unlatched (h : RunInv s) (hd : DispatchableInv t) (hc : t.cs = s.cs)
    (hr : t.chepr[(0 : Fin 8)] = s.chepr[(0 : Fin 8)]) (hpos : t.pos = .idle ∨ t.pos = .reread) : RunInv t := by
  have hn : nextCode t = none := hpos.elim nextCode_idle nextCode_reread
  refine h.of_same hd hc hr (fun hd hp => ?_) (fun e => nomatch hn.symm.trans e) fun e => nomatch hn.symm.trans e
  rcases hpos with e | e <;> cases e.symm.trans hp

/-- Fetching an event word leaves everything the invariants speak of (R181). -/
theorem fetch (hq : Quiet s) (h : RunInv s) {w : EventWord} {s1 : State} (hf : fetch s = some (w, s1)) :
    RunInv s1 ∧ Quiet s1 := by
  rcases fetch_cases hf with ⟨_, _, _, rfl⟩ | ⟨hp, rfl, _⟩ | ⟨_, _, _, _, rfl⟩ | ⟨_, _, _, rfl⟩
  · exact ⟨h, hq⟩
  · have hq' : Quiet (errataDelay s) := hq
    rw [window_quiet hq, window_quiet hq']
    exact ⟨h.congr ⟨h.dispatchable.forced, h.dispatchable.cause, h.dispatchable.code⟩ rfl rfl (fun _ => id) (fun _ => id) rfl,
      hq'⟩
  · exact ⟨h, hq⟩
  · exact ⟨h, hq⟩

/-- A read of ISTR latches a pending slot: an OUT data stage is not armed beside a TX completion, nor does a SETUP wait beside
one (R41, R240). -/
theorem of_read (h : RunInv s) (hd : DispatchableInv t) (hc : t.cs = s.cs)
    (hr : t.chepr[(0 : Fin 8)] = s.chepr[(0 : Fin 8)]) {v : Half} (hp : t.pos = .causes v)
    (hv : v.getLsbD 15 = true → v.extractLsb' 0 5 ∈ pendingSlots s) : RunInv t := by
  have hmem : ∀ c, nextCode t = some c → c ∈ pendingSlots s := by
    intro c hcode
    rw [nextCode_causes hp] at hcode
    split at hcode
    · rename_i hbits
      cases hcode
      exact hv (Bool.and_eq_true_iff.1 hbits).1
    · cases hcode
  refine h.of_same hd hc hr (fun hd hp' => nomatch hp.symm.trans hp') (fun e => ?_) fun e => ?_
  · exact .inl (receive_mem_pendingSlots.1 (hmem _ e))
  · have ht : Chepr.vttx s.chepr[(0 : Fin 8)] = true := transmit_mem_pendingSlots.1 (hmem _ e)
    refine ⟨by_contra fun hne => ?_, fun hs => ?_⟩
    · exact absurd (ht.symm.trans (h.armed hne).1) (by decide)
    · exact absurd (ht.symm.trans (h.pending hs).2.2) (by decide)

/-- Interrupt entry (R242). -/
theorem enterDispatch (hq : Quiet s) (h : RunInv s) : RunInv (enterDispatch s) := by
  have hd := DispatchableInv.enterDispatch (s := s) h.dispatchable.forced
  rw [enterDispatch_quiet hq] at hd ⊢
  exact h.of_read hd rfl rfl rfl (istrValue_pending h.dispatchable.forced)

/-- The re-read of ISTR keeps CTR and the code (R241). -/
theorem rereadIstr (hq : Quiet s) (h : RunInv s) : RunInv (rereadIstr s) := by
  have hd := DispatchableInv.rereadIstr (s := s) h.dispatchable.forced
  unfold Machine.rereadIstr at hd ⊢
  rw [window_quiet hq] at hd ⊢
  refine h.of_read hd rfl rfl rfl ?_
  simp only [peekReg, low_half, istrValue, istrWord_reread]
  rw [(istrWord_fields _ _ _ _).2.2.1, (istrWord_fields _ _ _ _).2.2.2, ← istrValue_ctr, ← istrValue_code]
  exact istrValue_pending h.dispatchable.forced

/-! ### Endpoint 0 written -/

/-- After an event of endpoint 0, and after a move of the link agent, nothing is latched. -/
theorem of_transfer (hd : DispatchableInv t) (h : TransferInv t ∧ EndpointZeroInv t)
    (ha : t.cs.rxCb ≠ .none → Chepr.vttx t.chepr[(0 : Fin 8)] = false ∧ Chepr.stattx t.chepr[(0 : Fin 8)] ≠ stValid)
    (hp : SetupPending t → Chepr.statrx t.chepr[(0 : Fin 8)] ≠ stValid ∧
      Chepr.stattx t.chepr[(0 : Fin 8)] ≠ stValid ∧ Chepr.vttx t.chepr[(0 : Fin 8)] = false)
    (hpos : t.pos = .idle ∨ t.pos = .reread) : RunInv t := by
  have hn : nextCode t = none := hpos.elim nextCode_idle nextCode_reread
  refine ⟨hd, h.1, h.2, ha, hp, fun hd hp => ?_, fun e => (nomatch hn.symm.trans e),
    fun e => (nomatch hn.symm.trans e)⟩
  rcases hpos with e | e <;> cases e.symm.trans hp

/-- What `DeviceInit` leaves: nothing is armed, and the reported length is 0 (R256). -/
theorem of_reinitialised (hd : DispatchableInv t) (hr : Reinitialised s t) (hpos : ∀ hd, t.pos ≠ .request hd) :
    RunInv t := by
  have hcs : t.cs = ControlState.cleared := by rw [hr.state]
  have hv : Chepr.vtrx t.chepr[(0 : Fin 8)] = false := by rw [hr.endpointZero]; simp
  have hn : ¬SetupPending t := fun h => absurd (hv.symm.trans h.1) (by decide)
  have hrx : t.cs.rxCb = .none := by rw [hcs]; rfl
  have hword : rxbdCount (storedWord t (rxbdAddr 0)) = 0#10 := by
    rw [hr.rxDescriptor, ← rxbdWord_armed, rxbdCount_rxbdWord]
  obtain ⟨h1, h2⟩ := transferInv_cleared (s := t) (by rw [hcs]; rfl) (by rw [hcs]; rfl) (by rw [hcs]; rfl) (by rw [hcs]; rfl)
    fun hc => absurd hrx hc
  exact ⟨hd, h1, h2, fun hc => absurd hrx hc, fun hp => absurd hp hn, fun hd hp => absurd hp (hpos hd),
    fun _ => .inr ⟨by rw [hcs]; rfl, hword⟩, fun _ => ⟨hrx, hn⟩⟩

/-- A SETUP completion (R180): a short packet is served, the header of another waits to be classified. -/
theorem handleSetup (hq : Quiet s) (hset : s.rxUnsettled = false) (h : RunInv s) (hp : s.pos = .code 16#5)
    (hs : Chepr.setup s.chepr[(0 : Fin 8)] = true) (hd : DispatchableInv (handleSetup s)) : RunInv (handleSetup s) := by
  have ht := handleSetup_transferInv hq
  have hcs := handleSetup_cs_quiet hq
  have hrx : (Machine.handleSetup s).cs.rxCb = .none := by rw [hcs]; rfl
  by_cases hlt : bdRxCount 0 s < 8
  · obtain ⟨-, hserved⟩ := handleSetup_falls hq
    have hpos : (Machine.handleSetup s).pos = .reread ∧ Chepr.vtrx (Machine.handleSetup s).chepr[(0 : Fin 8)] = false := by
      refine hserved.resolve_right ?_
      rw [handleSetup_quiet hq, if_pos hlt]
      rintro ⟨_, e⟩
      cases e
    exact .of_transfer hd ht (fun hc => absurd hrx hc)
      (fun hp => absurd (hpos.2.symm.trans hp.1) (by decide)) (.inr hpos.1)
  · have hv : Chepr.vtrx s.chepr[(0 : Fin 8)] = true := by
      refine (h.receive (nextCode_code hp)).resolve_right fun hc => hlt ?_
      rw [bdRxCount_settled hset, hc.2]
      decide
    rw [handleSetup_quiet hq, if_neg hlt] at hd ht hrx ⊢
    have hpend := h.pending ⟨hv, hs⟩
    exact ⟨hd, ht.1, ht.2, fun hc => absurd hrx hc, fun _ => hpend,
      fun hd' e => ⟨⟨hv, hs⟩, by cases e; rfl, rfl, rfl, rfl, rfl, rfl⟩,
      fun e => (by cases e), fun e => (by cases e)⟩

/-- An OUT completion (R224): either one is pending, or a bus reset has made the code harmless. -/
theorem handleOut (hq : Quiet s) (h : RunInv s) (hp : s.pos = .code 16#5)
    (hs : Chepr.setup s.chepr[(0 : Fin 8)] = false) (hd : DispatchableInv (setPos .reread (handleOut s))) :
    RunInv (setPos .reread (handleOut s)) := by
  have hno : s.cs.txTail = none ∧ s.cs.postAckCb = .none := by
    rcases h.receive (nextCode_code hp) with hv | ⟨hset, -⟩
    · exact h.endpointZero.noResponse hv hs
    · exact ⟨by_contra fun ht => h.endpointZero.header ht hset, by_contra fun hc => h.transfer.postAck hc hset⟩
  have hv := (handleOut_falls hq).2
  refine .of_transfer hd (transferInv_setPos (handleOut_transferInv hq h.transfer hno.1 hno.2) _) (fun hc => ?_) (fun hp => ?_)
    (.inr rfl)
  · exact absurd (handleOut_cs_quiet hq h.transfer.predicate).1 hc
  · exact absurd (hv.symm.trans hp.1) (by decide)

/-- A TX completion (R220). -/
theorem controlTxDone (hq : Quiet s) (h : RunInv s) (hp : s.pos = .code 0#5)
    (hd : DispatchableInv (setPos .reread (controlTxDone s))) : RunInv (setPos .reread (controlTxDone s)) := by
  obtain ⟨hrx, hns⟩ := h.transmit (nextCode_code hp)
  obtain ⟨ht, hrx'⟩ := controlTxDone_transferInv hq h.transfer h.endpointZero hrx
  obtain ⟨hk, -⟩ := controlTxDone_endpoint hq
  exact .of_transfer hd (transferInv_setPos ht _) (fun hc => absurd hrx' hc)
    (fun hp => absurd ⟨hk.vtrx hp.1, hk.setup.symm.trans hp.2⟩ hns) (.inr rfl)

/-- A request (R185): the header is the one just latched, and TX is idle beside it. -/
theorem request_served (hq : Quiet s) (h : RunInv s) {hdr : SetupHeader} (hp : s.pos = .request hdr) {i : Instr}
    (hi : i.header? = some hdr) (he : exec i s = .next t) (hd : DispatchableInv t) : RunInv t := by
  obtain ⟨hpend, h1, h2, h3, h4, h5, h6⟩ := h.request hdr hp
  obtain ⟨hst, hstx, hvt⟩ := h.pending hpend
  obtain ⟨ht, hv, harm⟩ := exec_request_transferInv hq hi ⟨h1, h2, h3, h4, h6⟩ h5 hst he
  refine .of_transfer hd ht (fun hc => ?_) (fun hp => absurd (hv.symm.trans hp.1) (by decide))
    (.inr ((exec_pos he).of_header hi))
  obtain ⟨e1, e2⟩ := harm.resolve_left hc
  exact ⟨e1.trans hvt, by rw [e2]; exact hstx⟩

/-! ### The events -/

/-- What collaborators leave, and where the invocation stands then. -/
theorem of_capability (h : RunInv s) (f : CapabilityFrame s t) (hd : DispatchableInv t)
    (hpos : ∀ hd, t.pos = .request hd → s.pos = .request hd) (hn : ∀ c, nextCode t = some c → nextCode s = some c) :
    RunInv t :=
  h.congr hd (by rw [f.state]) f.endpointZero hpos hn (f.word_entryZero (by decide))

/-- The causes of one read (R240). -/
theorem exec_causes (hq : Quiet s) (h : RunInv s) {v : Half} (hp : s.pos = .causes v) {i : Instr}
    (hi : decodeIstr v = .ok i) (he : exec i s = .next t) (hd : DispatchableInv t) : RunInv t := by
  have hcode := nextCode_causes hp
  unfold decodeIstr at hi
  split_ifs at hi with h9 h10 h15 <;> obtain rfl := Except.ok.inj hi
  · obtain ⟨t', ht', f, -⟩ := startOfFrame s (v.getLsbD 10) (v.getLsbD 15) (v.extractLsb' 0 5) hq
    obtain rfl := Host.Outcome.next.inj (he.symm.trans ht')
    have hpos := exec_pos he
    have hcs : t.cs = s.cs := by rw [f.state]
    refine h.congr hd hcs f.endpointZero (fun hd e => nomatch e.symm.trans hpos) (fun c hc => ?_)
      (f.word_entryZero (by decide))
    rw [nextCode_causes hpos] at hc
    simpa only [istrWord_fields, hcode] using hc
  · have hpos := exec_pos he
    exact .of_reinitialised hd (exec_irqReset hq he) fun hd e => nomatch e.symm.trans hpos
  · obtain rfl := Host.Outcome.next.inj he
    refine h.congr hd rfl rfl (fun hd e => nomatch e) (fun c hc => ?_) rfl
    rw [nextCode_code rfl] at hc
    rw [hcode, ← hc, h15, (Bool.not_eq_true _).mp h10]
    rfl

/-- The completion codes (R249 to R253). -/
theorem exec_code (hq : Quiet s) (h : RunInv s) {c : BitVec 5} (hp : s.pos = .code c)
    (hset : c = 16#5 → s.rxUnsettled = false) {b : Bool} (hb : c = 16#5 → b = Chepr.setup s.chepr[(0 : Fin 8)])
    (he : exec (decodeCc5 c b) s = .next t) (hd : DispatchableInv t) : RunInv t := by
  have hpos := (exec_pos he).of_code
  have hc0 : ∀ c : BitVec 5, ¬c.getLsbD 3 = true → c.extractLsb' 0 3 = 0#3 →
      c = if c.getLsbD 4 then 16#5 else 0#5 := by decide
  unfold decodeCc5 at he
  dsimp only at he
  split_ifs at he with h3 hep hrx hsetup hrx <;> obtain rfl := Host.Outcome.next.inj he
  · exact h.unlatched hd rfl rfl (.inl rfl)
  · have hc : c = 16#5 := by rw [hc0 c h3 hep, if_pos hrx]
    exact h.handleSetup hq (hset hc) (hc ▸ hp) ((hb hc).symm.trans hsetup) hd
  · have hc : c = 16#5 := by rw [hc0 c h3 hep, if_pos hrx]
    exact h.handleOut hq (hc ▸ hp) ((hb hc).symm.trans ((Bool.not_eq_true _).mp hsetup)) hd
  · have hc : c = 0#5 := by rw [hc0 c h3 hep, if_neg hrx]
    exact h.controlTxDone hq (hc ▸ hp) hd
  · have hq' : Quiet (errataDelay s) := hq
    have f := perform_frame hq' (.rxHandler (capOf (c.extractLsb' 0 3)))
    rw [window_quiet hq] at hd ⊢
    generalize perform (.rxHandler (capOf (c.extractLsb' 0 3))) (errataDelay s) = u at f hd
    exact h.unlatched hd (by rw [setPos_cs, f.state]; rfl) f.endpointZero (.inr rfl)
  · have f := perform_frame hq (.txHandler (capOf (c.extractLsb' 0 3)))
    generalize perform (.txHandler (capOf (c.extractLsb' 0 3))) s = u at f hd
    exact h.unlatched hd (by rw [setPos_cs, f.state]) f.endpointZero (.inr rfl)

/-- Every event keeps the invariants. -/
theorem exec (hq : Quiet s) (h : RunInv s) {w : EventWord} {s1 : State} {i : Instr} (hf : Machine.fetch s = some (w, s1))
    (hdec : decode w = .ok i) (he : Machine.exec i s1 = .next t) : RunInv t := by
  have hd : DispatchableInv t := h.dispatchable.exec hf hdec he
  obtain ⟨h1, hq1⟩ := h.fetch hq hf
  rcases fetch_cases hf with ⟨v, hp, rfl, rfl⟩ | ⟨hp, rfl, rfl⟩ | ⟨c, hp, hc, rfl, rfl⟩ | ⟨hdr, hp, rfl, rfl⟩
  · rw [decode_istrEvent] at hdec
    exact h1.exec_causes hq1 hp hdec he hd
  · have hq' : Quiet (errataDelay s) := hq
    rw [decode_codeEvent] at hdec
    obtain rfl := Except.ok.inj hdec
    rw [window_quiet hq, window_quiet hq'] at he h1
    exact h1.exec_code hq' hp (fun _ => rfl) (fun _ => rfl) he hd
  · rw [decode_codeEvent] at hdec
    obtain rfl := Except.ok.inj hdec
    exact h1.exec_code hq1 hp (fun e => absurd e hc) (fun e => absurd e hc) he hd
  · rw [decode_headerEvent] at hdec
    obtain rfl := Except.ok.inj hdec
    exact h1.request_served hq1 hp (header_decodeHeader hdr) he hd

/-! ### The moves of the link agent -/

/-- A move that leaves the value `v` in CHEPR[0], between invocations. -/
theorem of_register (h : RunInv s) (hd : DispatchableInv t) (hc : t.cs = s.cs) (hpos : t.pos = .idle) {v : Half}
    (hreg : t.chepr[(0 : Fin 8)] = v)
    (hresponse : s.cs.txTail ≠ none ∨ s.cs.postAckCb ≠ .none → Chepr.statrx v ≠ stValid ∧
      (Chepr.vtrx v = true → Chepr.setup v = true))
    (harmed : s.cs.rxCb ≠ .none → Chepr.vttx v = false ∧ Chepr.stattx v ≠ stValid)
    (hpending : Chepr.vtrx v = true ∧ Chepr.setup v = true → Chepr.statrx v ≠ stValid ∧ Chepr.stattx v ≠ stValid ∧
      Chepr.vttx v = false) : RunInv t := by
  have he : EndpointZeroInv t := by
    refine ⟨by rw [hc]; exact h.endpointZero.tail, by rw [hc]; exact h.endpointZero.header, ?_, ?_⟩ <;> rw [hc, hreg]
    · exact fun hr => (hresponse hr).1
    · exact fun hr => (hresponse hr).2
  refine .of_transfer hd ⟨h.transfer.congr hc, he⟩ ?_ ?_ (.inl hpos)
  · rw [hc, hreg]
    exact harmed
  · rw [SetupPending, hreg]
    exact hpending

/-- Every move keeps the invariants, a SETUP packet where no TX completion is unserved (log 28). -/
theorem linkMove (h : RunInv s) (hp : s.pos = .idle) {m : LinkMove} (hm : linkMove m s = .done t)
    (hsetup : ∀ bytes, m = .setupPacket bytes → Chepr.vttx s.chepr[(0 : Fin 8)] = false) : RunInv t := by
  have hf := linkMove_frame hm
  have hpos : t.pos = .idle := hf.pos.trans hp
  have hcs := hf.cs
  have hd : DispatchableInv t := .of_idle (hf.badCode.trans h.dispatchable.forced) hpos
  have hnak : stNak ≠ stValid := by decide
  rcases linkMove_cases hm with ⟨bytes, reg, e, hr, _, _, _, _, rfl⟩ | ⟨_, _, hst, _, rfl⟩ | ⟨_, _, _, rfl⟩ | ⟨_, rfl⟩ |
    ⟨_, rfl⟩ | ⟨k, _, _, _, _, rfl⟩ | ⟨k, _, _, _, _, rfl⟩
  · have hreg : (landPacket bytes reg e s).chepr[(0 : Fin 8)] = reg := by rw [landPacket_chepr]; simp
    refine h.of_register hd hcs hpos hreg ?_ ?_ ?_ <;> rcases hr with ⟨rfl, rfl, _, _⟩ | ⟨rfl, rfl, _, hvalid⟩
    · simp [Chepr.afterSetup, hnak]
    · exact fun hc => absurd hvalid (h.endpointZero.noOut hc)
    · exact fun _ => by simpa [Chepr.afterSetup, hnak] using hsetup bytes rfl
    · simpa [Chepr.afterOut] using h.armed
    · simpa [Chepr.afterSetup, hnak] using hsetup bytes rfl
    · simp [Chepr.afterOut]
  · have hrx : s.cs.rxCb = .none := by_contra fun hc => (h.armed hc).2 hst
    have hns : ¬SetupPending s := fun hc => (h.pending hc).2.1 hst
    refine h.of_register hd rfl hpos (v := Chepr.afterIn s.chepr[(0 : Fin 8)]) (by simp) (fun hc => ?_)
      (fun hc => absurd hrx hc) fun hc => (hns (by simpa [SetupPending, Chepr.afterIn] using hc)).elim
    have h1 := h.endpointZero.noOut hc
    have h2 := h.endpointZero.noServedOut hc
    simpa [Chepr.afterIn] using ⟨h1, h2⟩
  · exact h.unlatched hd rfl rfl (.inl hpos)
  · refine h.of_register hd rfl hpos (v := 0#16) (by simp [linkReset]) ?_ ?_ ?_
    · exact fun _ => ⟨by decide, by decide⟩
    · exact fun _ => ⟨by decide, by decide⟩
    · exact fun _ => ⟨by decide, by decide, by decide⟩
  · exact h.unlatched hd rfl rfl (.inl hpos)
  · exact h.unlatched hd rfl (by simp [capEp]) (.inl hpos)
  · exact h.unlatched hd hcs (by simp [capEp]) (.inl hpos)

end RunInv

/-- Settles O56: the step's cases, a power-on leaving the values of `State.reset`. -/
theorem stepKeepsTransferInv : Obligations.StepKeepsTransferInv := by
  intro s t hq h hsetup hstep
  obtain ⟨u, rfl, hu⟩ := step_cases hstep
  suffices hr : RunInv u from
    hr.congr ⟨hr.dispatchable.forced, hr.dispatchable.cause, hr.dispatchable.code⟩ rfl rfl (fun _ => id) (fun _ => id) rfl
  have hd : DispatchableInv u :=
    let hd := step_keeps_dispatchable h.dispatchable hstep
    ⟨hd.forced, hd.cause, hd.code⟩
  rcases hu with ⟨w, s1, i, hf, hdec, he⟩ | ⟨w, s1, hf, _, rfl⟩ | ⟨_, rfl⟩ | ⟨_, _, rfl⟩ | ⟨hp, line, rest, hs, hl⟩
  · exact h.exec hq hf hdec he
  · exact (h.fetch hq hf).1.unlatched hd rfl rfl (.inl rfl)
  · exact h.rereadIstr hq
  · split
    · exact h.enterDispatch hq
    · exact h
  · have h' : RunInv { s with script := rest } :=
      h.congr ⟨h.dispatchable.forced, h.dispatchable.cause, h.dispatchable.code⟩ rfl rfl (fun _ => id) (fun _ => id) rfl
    have hq' : Quiet { s with script := rest } := hq
    rcases runLine_cases hl with rfl | ⟨m, rfl, hm⟩ | ⟨_, rfl⟩ | ⟨_, rfl⟩ | ⟨_, rfl⟩ | ⟨o, _, _, rfl⟩ | ⟨c, _, rfl⟩
    · exact h'
    · exact h'.linkMove hp hm fun bytes e => hsetup bytes rest hp (by rw [hs, e])
    · exact h'.enterDispatch hq'
    · have hpos : (deviceInit { s with script := rest }).pos = .idle := (deviceInit_access _).pos.trans hp
      exact .of_reinitialised hd (deviceInit_reinitialised hq') fun hdr e => nomatch hpos.symm.trans e
    · obtain ⟨-, -, -, -, -, -, -, hreset⟩ := resetMeetsInvariants
      exact hreset.unlatched hd rfl rfl (.inl rfl)
    · exact h'.unlatched hd rfl rfl (.inl hp)
    · exact h'.unlatched hd rfl rfl (.inl hp)

end Sys2Proof.Machine
end

section
/-! SUPPORT. The packets of a response (R214, R215): a chunk that is armed is the packet the host takes, and after it the tail's
next chunk is armed, by induction on the packets. -/

namespace Sys2Proof.Machine

/-- The lengths of the packets of `n` bytes; a multiple of the packet size ends in an empty packet when the response is short
(R215). -/
def chunkLengths (n : Nat) (short : Bool) : List Nat :=
  List.replicate (n / 64) 64 ++ (if 0 < n % 64 then [n % 64] else []) ++
    (if n = 0 ∨ (n % 64 = 0 ∧ short = true) then [0] else [])

/-- The lengths of R215 are those of the response cut at the requested length. -/
theorem packetLengths_eq (L R : Nat) : packetLengths L R = chunkLengths (min L R) (decide (L < R)) := by
  simp only [packetLengths, chunkLengths, decide_eq_true_eq]

/-- More than one packet is left: the first is full (R214). -/
theorem chunkLengths_tail {n : Nat} {short : Bool} (h : 64 < n ∨ (64 ≤ n ∧ short = true)) :
    chunkLengths n short = 64 :: chunkLengths (n - 64) short := by
  obtain ⟨k, rfl⟩ : ∃ k, n = k + 64 := ⟨n - 64, by omega⟩
  have hz : k + 64 = 0 ∨ (k % 64 = 0 ∧ short = true) ↔ k = 0 ∨ (k % 64 = 0 ∧ short = true) := by
    cases short <;> simp at h ⊢ <;> omega
  simp only [chunkLengths, Nat.add_sub_cancel, Nat.add_div_right _ (by decide : 0 < 64), Nat.add_mod_right, hz]
  rfl

/-- One packet is left (R214). -/
theorem chunkLengths_last {n : Nat} {short : Bool} (h : ¬(64 < n ∨ (64 ≤ n ∧ short = true))) :
    chunkLengths n short = [n] := by
  rw [not_or] at h
  have hn : n ≤ 64 := by omega
  rcases Nat.lt_or_eq_of_le hn with hlt | rfl
  · by_cases h0 : n = 0
    · subst h0
      rfl
    · simp [chunkLengths, Nat.mod_eq_of_lt hlt, Nat.div_eq_of_lt hlt, h0, Nat.pos_of_ne_zero h0]
  · have hs : short = false := by simpa using h.2
    subst hs
    rfl

/-- The first packet of `rem` is armed for the host, and the rest is the tail (R214). -/
structure ChunkArmed (rem : List Byte) (short : Bool) (s : State) : Prop where
  quiet : Quiet s
  enabled : daddrEf s.daddr = true
  valid : Chepr.stattx s.chepr[(0 : Fin 8)] = stValid
  served : Chepr.vttx s.chepr[(0 : Fin 8)] = false
  response : s.cs.short = short
  tail : s.cs.txTail = if 64 < rem.length ∨ (64 ≤ rem.length ∧ short = true) then some (rem.drop 64) else none
  descriptor : txbdFields (storedWord s 0) =
    (BitVec.ofNat 16 s.params.ep0TxOff, BitVec.ofNat 16 (min rem.length 64))
  chunk : ∀ i, i < min rem.length 64 → storedByte s (s.params.ep0TxOff + i) = rem.getD i 0#8

/-- `SendChunk` and the update that makes TX VALID arm the first packet (R211, R214, R223). -/
theorem chunkArmed_sendChunk {s : State} (hq : Quiet s) (hd : daddrEf s.daddr = true) (rem : List Byte) (cb : TxTok)
    {req : EpReq} (hreq : req.stattx = some stValid) (hv : Chepr.vttx s.chepr[(0 : Fin 8)] = false ∨ req.clrTx = true) :
    ChunkArmed rem s.cs.short (epUpdate 0 req (sendChunk rem cb s)) := by
  have hs := sendChunk_state hq rem cb
  have hm := chunkStored_sendChunk hq rem cb
  generalize sendChunk rem cb s = u at hs hm
  have hqu : Quiet u := by rw [hs]; exact hq
  have hreg : u.chepr = s.chepr := by rw [hs]
  rw [epUpdate_quiet hqu]
  have hdesc : txbdFields (storedWord u 0) =
      (BitVec.ofNat 16 s.params.ep0TxOff, BitVec.ofNat 16 (min rem.length 64)) := by
    rw [show 0 = txbdAddr 0 from rfl, hm.descriptor, txbdFields_txbdWord]
  have hparams : u.params = s.params := by rw [hs]
  have hserved : Chepr.vttx (Chepr.updated u.chepr[(0 : Fin 8)] req) = false := by
    rw [hreg]
    rcases hv with hv | hv <;> simp only [Chepr.updated, Chepr.vttx_pack, hv, Bool.false_and, Bool.not_true, Bool.and_false]
  refine ⟨hqu, by rw [hs]; exact hd, by simp [Chepr.updated, hreq], by simpa using hserved, ?_, ?_, ?_, fun i hi => ?_⟩
  · rw [hs]
    exact (afterChunk_fields rem cb s.cs).2.1
  · rw [hs]
    show (afterChunk rem cb s.cs).txTail = _
    unfold afterChunk
    split <;> rfl
  · rw [← hparams] at hdesc
    exact hdesc
  · have hbyte := hm.chunk i hi
    rw [← hparams] at hbyte
    exact hbyte

namespace ChunkArmed
variable {rem : List Byte} {short : Bool} {s : State}

/-- The descriptor's fields as numbers: the offset and the chunk's length fit sixteen bits (R71, R103). -/
theorem fields_toNat (h : ChunkArmed rem short s) : (txbdFields (storedWord s 0)).1.toNat = s.params.ep0TxOff ∧
    (txbdFields (storedWord s 0)).2.toNat = min rem.length 64 := by
  obtain ⟨hsram, -, -, -, htx, -⟩ := Params.layout s.params
  rw [h.descriptor]
  simp only [BitVec.toNat_ofNat]
  omega

/-- The packet the host gets is the chunk (R274). -/
theorem packet (h : ChunkArmed rem short s) : armedPacket s = rem.take 64 := by
  obtain ⟨h1, h2⟩ := h.fields_toNat
  have hlen : (rem.take 64).length = min rem.length 64 := by rw [List.length_take, Nat.min_comm]
  rw [armedPacket, h1, h2, ← hlen]
  refine storedBytes_eq_of_getD _ fun i hi => ?_
  rw [hlen] at hi
  have h64 : i < 64 := by omega
  rw [h.chunk i hi]
  simp [List.getD_eq_getElem?_getD, h64]

/-- The host takes the packet, which changes nothing of the response (R274). -/
theorem linkIn (h : ChunkArmed rem short s) : ∃ t, linkIn s = .done t ∧ Quiet t ∧ t.daddr = s.daddr ∧ t.cs = s.cs := by
  obtain ⟨-, -, -, -, htx, -⟩ := Params.layout s.params
  obtain ⟨h1, h2⟩ := h.fields_toNat
  have hfit : (txbdFields (storedWord s 0)).1.toNat + (txbdFields (storedWord s 0)).2.toNat ≤ s.params.sramBytes := by
    rw [h1, h2]
    omega
  rw [linkIn_enabled h.enabled h.valid h.served, if_pos hfit]
  exact ⟨_, rfl, h.quiet, rfl, rfl⟩

/-- The packets from here on have the lengths of R215 and the bytes of `rem`. -/
theorem delivered (n : Nat) : ∀ {rem : List Byte} {s : State}, ChunkArmed rem short s → rem.length / 64 + 1 ≤ n →
    (delivered n s).map List.length = chunkLengths rem.length short ∧ (delivered n s).flatten = rem := by
  induction n with
  | zero => exact fun _ hn => absurd hn (by omega)
  | succ n ih =>
    intro rem s h hn
    have htail := h.tail
    obtain ⟨t, ht, hq, hdaddr, hcs⟩ := h.linkIn
    rw [← hcs] at htail
    simp only [Machine.delivered, ht, h.packet]
    by_cases hc : 64 < rem.length ∨ (64 ≤ rem.length ∧ short = true)
    · rw [if_pos hc] at htail
      have hrem : 64 ≤ rem.length := by omega
      have hnext : ChunkArmed (rem.drop 64) short (controlTxDone t) := by
        rw [controlTxDone_tail htail, ← h.response, ← hcs]
        exact chunkArmed_sendChunk hq (hdaddr ▸ h.enabled) _ _ rfl (.inr rfl)
      obtain ⟨h1, h2⟩ := ih hnext (by rw [List.length_drop]; omega)
      rw [if_neg (by rw [htail]; nofun), List.map_cons, List.flatten_cons, h1, h2, List.take_append_drop,
        chunkLengths_tail hc, List.length_take, List.length_drop, Nat.min_eq_left hrem]
      exact ⟨rfl, rfl⟩
    · rw [if_neg hc] at htail
      have hrem : rem.length ≤ 64 := by omega
      rw [if_pos htail, chunkLengths_last hc, List.take_of_length_le hrem]
      simp

end ChunkArmed

/-- Settles O44: applying the response arms its first chunk. -/
theorem packetSequence : Obligations.PacketSequence := by
  intro s data cb hd n hq hen hv hn
  have hlen : (data.take (min data.length hd.length.toNat)).length = min data.length hd.length.toNat := by
    rw [List.length_take]
    omega
  have h := chunkArmed_sendChunk (s := { s with cs := { s.cs with short := decide (data.length < hd.length.toNat) } }) hq hen
    (data.take (min data.length hd.length.toNat)) cb (req := { stattx := some stValid, clrRx := true }) rfl (.inl hv)
  obtain ⟨hlengths, hbytes⟩ := h.delivered n (by rw [hlen]; omega)
  rw [packetLengths_eq]
  rw [hlen] at hlengths
  exact ⟨hlengths, hbytes⟩

end Sys2Proof.Machine
end

section
/-! SUPPORT. Every invocation returns (R254): each turn of the loop serves the slot its code names, no event sets a flag, and a
turn begins only on a pending slot, so that the slots still to be served become fewer (R241, R248). -/

namespace Sys2Proof.Machine

/-! ### The slot a code names -/

/-- The endpoint a completion code names (R101). -/
def codeEp (c : BitVec 5) : Fin 8 := (c.extractLsb' 0 3).toFin

/-- A code that names a slot is pending exactly when the slot's flag is set (R41, R101). -/
theorem mem_pendingSlots_iff (s : State) {c : BitVec 5} (h3 : c.getLsbD 3 = false) : c ∈ pendingSlots s ↔
    (if c.getLsbD 4 then Chepr.vtrx s.chepr[codeEp c] else Chepr.vttx s.chepr[codeEp c]) = true := by
  have hrx : ∀ n : Fin 8, (BitVec.ofNat 5 (16 + n.val)).getLsbD 4 = true ∧ codeEp (BitVec.ofNat 5 (16 + n.val)) = n := by
    decide
  have htx : ∀ n : Fin 8, (BitVec.ofNat 5 n.val).getLsbD 4 = false ∧ codeEp (BitVec.ofNat 5 n.val) = n := by decide
  have hcode : ∀ c : BitVec 5, c.getLsbD 3 = false →
      c = BitVec.ofNat 5 (if c.getLsbD 4 then 16 + (codeEp c).val else (codeEp c).val) := by decide
  rw [mem_pendingSlots]
  constructor
  · rintro (⟨n, h, rfl⟩ | ⟨n, h, rfl⟩)
    · simpa only [hrx n, if_true] using h
    · simpa only [htx n, Bool.false_eq_true, if_false] using h
  · intro h
    have e := hcode c h3
    split at h
    · rename_i h4
      rw [h4] at e
      exact .inl ⟨_, h, e⟩
    · rename_i h4
      rw [if_neg h4] at e
      exact .inr ⟨_, h, e⟩

/-- A pending slot has a code that names one (R101). -/
theorem bit3_of_mem_pendingSlots {s : State} {c : BitVec 5} (h : c ∈ pendingSlots s) : c.getLsbD 3 = false := by
  have hrx : ∀ n : Fin 8, (BitVec.ofNat 5 (16 + n.val)).getLsbD 3 = false := by decide
  have htx : ∀ n : Fin 8, (BitVec.ofNat 5 n.val).getLsbD 3 = false := by decide
  rcases (mem_pendingSlots s c).1 h with ⟨n, -, rfl⟩ | ⟨n, -, rfl⟩
  · exact hrx n
  · exact htx n

/-- Two flags for each of eight endpoints. -/
theorem pendingSlots_length (s : State) : (pendingSlots s).length ≤ 16 := by
  have h : ∀ p : Fin 8 → Bool, ((List.finRange 8).filter p).length ≤ 8 := fun p =>
    (List.length_filter_le p _).trans List.length_finRange.le
  have h1 := h fun n => Chepr.vtrx s.chepr[n]
  have h2 := h fun n => Chepr.vttx s.chepr[n]
  simp only [pendingSlots, List.length_append, List.length_map]
  omega

/-! ### Several steps -/

/-- At most `k` steps lead from `s` to `t`, and set no complete flag. -/
structure Reaches (k : Nat) (s t : State) : Prop where
  falls : Falls s t
  run : ∃ m, m ≤ k ∧ Host.Core.run Sys2Proof.core m s = .next t

/-- Steps in two parts. -/
theorem run_add {m n : Nat} : ∀ {s t : State}, Host.Core.run Sys2Proof.core m s = .next t →
    Host.Core.run Sys2Proof.core (m + n) s = Host.Core.run Sys2Proof.core n t := by
  induction m with
  | zero =>
    intro s t h
    obtain rfl := Host.Outcome.next.inj h
    rw [Nat.zero_add]
  | succ m ih =>
    intro s t h
    rw [Nat.add_right_comm]
    simp only [Host.Core.run] at h ⊢
    split at h
    · exact ih h
    · cases h
    · cases h

namespace Reaches

theorem refl (s : State) : Reaches 0 s s := ⟨.refl s, 0, Nat.le_refl 0, rfl⟩

theorem mono {k l : Nat} {s t : State} (h : Reaches k s t) (hkl : k ≤ l) : Reaches l s t :=
  ⟨h.falls, h.run.imp fun _ hm => ⟨hm.1.trans hkl, hm.2⟩⟩

theorem trans {k l : Nat} {s t u : State} (h1 : Reaches k s t) (h2 : Reaches l t u) : Reaches (k + l) s u := by
  obtain ⟨m, hm, hrun⟩ := h1.run
  obtain ⟨n, hn, hrun'⟩ := h2.run
  exact ⟨h1.falls.trans h2.falls, m + n, Nat.add_le_add hm hn, (run_add hrun).trans hrun'⟩

/-- One step, which counts one up. -/
theorem tick {s u : State} (f : Falls s u) (h : step s = .next { u with tick := u.tick + 1 }) :
    Reaches 1 s { u with tick := u.tick + 1 } := by
  refine ⟨f.trans (.of_same rfl rfl rfl rfl rfl rfl), 1, Nat.le_refl 1, ?_⟩
  simp only [Host.Core.run, Sys2Proof.core, h]

end Reaches

/-! ### One turn -/

/-- What an event does to the invocation while a completion is served: no flag is set, and the value to return is kept. -/
structure Serving (s t : State) : Prop where
  falls : Falls s t
  any : t.any = s.any

/-- A TX completion of endpoint 0 clears its flag (R221, R223). -/
theorem controlTxDone_serving {s : State} (hq : Quiet s) : Serving s (controlTxDone s) := by
  refine ⟨(controlTxDone_falls hq).1, ?_⟩
  cases ht : s.cs.txTail with
  | some rem => rw [controlTxDone_tail ht, (epUpdate_access _ _ _).any, sendChunk_state hq]
  | none =>
    have hi := invokePostAck_quiet hq
    rw [controlTxDone_noTail ht, endTransfer, (epUpdate_access _ _ _).any]
    show (invokePostAck s).any = s.any
    generalize invokePostAck s = u at hi
    unfold TokenInvoked at hi
    split at hi
    · rw [hi]
    · rw [hi]
    · split at hi <;> rw [hi]
    · rw [hi.1.state]

/-- An OUT completion clears its flag (R224, R225). -/
theorem handleOut_serving {s : State} (hq : Quiet s) : Serving s (handleOut s) := by
  refine ⟨(handleOut_falls hq).1, ?_⟩
  rcases handleOut_cases hq with ⟨e, -⟩ | ⟨e, u, f, h⟩
  · rw [e, discardOut_quiet hq]
  · have hany : u.any = s.any := by rw [f.state]
    rw [h, ← hany, ← setPos_any .reread]
    cases e with
    | none => rw [(finishOut_accepted (f.quiet hq)).state]
    | some c => rw [finishOut_rejected (f.quiet hq) c]

/-- A SETUP completion up to its header (R180). -/
theorem handleSetup_serving {s : State} (hq : Quiet s) : Serving s (handleSetup s) := by
  refine ⟨(handleSetup_falls hq).1, ?_⟩
  rw [handleSetup_quiet hq]
  split
  · rw [setPos_any, (raiseStall_access _ _).any]
    rfl
  · rfl

/-- A handler of a capability clears the flag it is called for (R251, R252, R322). -/
theorem perform_handler_serving {s : State} (hq : Quiet s) (ho : OracleInv s) (k : Cap) (rx : Bool) :
    let c : Call := if rx then .rxHandler k else .txHandler k
    Serving s (perform c s) ∧ (rx = true → Chepr.vtrx (perform c s).chepr[capEp k] = false) ∧
      (rx = false → Chepr.vttx (perform c s).chepr[capEp k] = false) :=
  ⟨⟨.of_capability (perform_frame hq _), (perform_access _ s).any⟩, perform_handler_clears hq k rx (.inr ho)⟩

namespace Serving
variable {s t u : State}

theorem trans (h1 : Serving s t) (h2 : Serving t u) : Serving s u := ⟨h1.falls.trans h2.falls, h2.any.trans h1.any⟩

theorem setPos (h : Serving s t) (p : Pos) : Serving s (setPos p t) :=
  ⟨h.falls.trans (.of_same rfl rfl rfl rfl rfl rfl), h.any⟩

end Serving

/-- The errata delay changes nothing of the invocation (R95). -/
theorem errataDelay_serving (s : State) : Serving s (errataDelay s) := ⟨.of_same rfl rfl rfl rfl rfl rfl, rfl⟩

/-- The event of a code that names a slot clears the slot's flag, or leaves the header of a SETUP packet to be classified (R248
to R252). -/
theorem exec_code_serving {s t : State} (hq : Quiet s) (ho : OracleInv s) {c : BitVec 5} (h3 : c.getLsbD 3 = false)
    {b : Bool} (he : exec (decodeCc5 c b) s = .next t) :
    Serving s t ∧ (t.pos = .reread ∧ c ∉ pendingSlots t ∨ c = 16#5 ∧ ∃ hd, t.pos = .request hd) := by
  have hzero : ∀ c : BitVec 5, c.extractLsb' 0 3 = 0#3 → codeEp c = 0 ∧
      (c.getLsbD 3 = false → c.getLsbD 4 = true → c = 16#5) := by decide
  have hcap : ∀ c : BitVec 5, c.extractLsb' 0 3 ≠ 0#3 → codeEp c = capEp (capOf (c.extractLsb' 0 3)) := by decide
  have rx_clear : ∀ {u : State} {n : Fin 8}, codeEp c = n → c.getLsbD 4 = true → Chepr.vtrx u.chepr[n] = false →
      c ∉ pendingSlots u := by
    intro u n hn h4 hv
    subst hn
    rw [mem_pendingSlots_iff u h3, if_pos h4, hv]
    decide
  have tx_clear : ∀ {u : State} {n : Fin 8}, codeEp c = n → ¬c.getLsbD 4 = true → Chepr.vttx u.chepr[n] = false →
      c ∉ pendingSlots u := by
    intro u n hn h4 hv
    subst hn
    rw [mem_pendingSlots_iff u h3, if_neg h4, hv]
    decide
  unfold decodeCc5 at he
  dsimp only at he
  split_ifs at he with hbit hep hrx hsetup hrx <;> obtain rfl := Host.Outcome.next.inj he
  · exact absurd (h3.symm.trans hbit) (by decide)
  · obtain ⟨-, h⟩ := handleSetup_falls hq
    refine ⟨handleSetup_serving hq, ?_⟩
    rcases h with ⟨hpos, hv⟩ | h
    · exact .inl ⟨hpos, rx_clear (hzero c hep).1 hrx hv⟩
    · exact .inr ⟨(hzero c hep).2 h3 hrx, h⟩
  · exact ⟨(handleOut_serving hq).setPos _, .inl ⟨rfl, rx_clear (hzero c hep).1 hrx (handleOut_falls hq).2⟩⟩
  · exact ⟨(controlTxDone_serving hq).setPos _, .inl ⟨rfl, tx_clear (hzero c hep).1 hrx (controlTxDone_falls hq).2⟩⟩
  · obtain ⟨hs, hv, -⟩ := perform_handler_serving (s := errataDelay s) hq ho (capOf (c.extractLsb' 0 3)) true
    rw [window_quiet hq]
    exact ⟨((errataDelay_serving s).trans hs).setPos _, .inl ⟨rfl, rx_clear (hcap c hep) hrx (hv rfl)⟩⟩
  · obtain ⟨hs, -, hv⟩ := perform_handler_serving hq ho (capOf (c.extractLsb' 0 3)) false
    exact ⟨hs.setPos _, .inl ⟨rfl, tx_clear (hcap c hep) hrx (hv rfl)⟩⟩

/-- A request serves the SETUP completion in one step (R180). -/
theorem reaches_requestServed {s : State} (hq : Quiet s) {hd : SetupHeader} (hp : s.pos = .request hd) :
    ∃ t, Reaches 1 s t ∧ t.any = s.any ∧ t.pos = .reread ∧ 16#5 ∉ pendingSlots t := by
  obtain ⟨t, ht, f, hv, hpos, hany⟩ := request_falls (header_decodeHeader hd) hq
  have hstep : step s = .next { t with tick := t.tick + 1 } := by
    rw [step_event (stepRunsDecoded.2.2.1 s hd hp) (decode_headerEvent hd), ht]
    rfl
  refine ⟨_, .tick f hstep, hany, hpos, fun hmem => ?_⟩
  exact absurd (hv.symm.trans (receive_mem_pendingSlots.1 hmem)) (by decide)

/-- From a latched code that names a slot, at most two steps serve the slot (R180, R240). -/
theorem reaches_codeServed {s : State} (hq : Quiet s) (ho : OracleInv s) {c : BitVec 5} (h3 : c.getLsbD 3 = false)
    (hp : s.pos = .code c) : ∃ t, Reaches 2 s t ∧ t.any = s.any ∧ t.pos = .reread ∧ c ∉ pendingSlots t := by
  have hfetch : ∃ b s1, fetch s = some (codeEvent c b, s1) ∧ Serving s s1 := by
    by_cases hc : c = 16#5
    · subst hc
      exact ⟨_, _, stepRunsDecoded.2.2.2.2 s hp hq, errataDelay_serving s⟩
    · exact ⟨_, s, stepRunsDecoded.2.2.2.1 s c hp hc, .refl s, rfl⟩
  obtain ⟨b, s1, hf, h1⟩ := hfetch
  obtain ⟨u, hu⟩ := exec_next (decodeCc5 c b) s1
  obtain ⟨h2, hend⟩ := exec_code_serving (h1.falls.quiet hq) (h1.falls.oracleInv ho) h3 hu
  have hs := h1.trans h2
  have hstep : step s = .next { u with tick := u.tick + 1 } := by
    rw [step_event hf (decode_codeEvent c b), hu]
    rfl
  have hreach := Reaches.tick hs.falls hstep
  rcases hend with ⟨hpos, hclear⟩ | ⟨rfl, hd, hpos⟩
  · exact ⟨_, hreach.mono (by decide), hs.any, hpos, hclear⟩
  · obtain ⟨t, hreach', hany, htpos, hclear⟩ :=
      reaches_requestServed (s := { u with tick := u.tick + 1 }) (hreach.falls.quiet hq) hpos
    exact ⟨t, hreach.trans hreach', hany.trans hs.any, htpos, hclear⟩

/-! ### The loop -/

/-- Where no code is forced ISTR shows CTR exactly with a pending slot (R41). -/
theorem reportedCode_isSome {s : State} (hb : s.badCode = none) :
    (reportedCode s).isSome = decide (pendingSlots s ≠ []) := by
  rcases reportedCode_cases hb with ⟨e, hp⟩ | ⟨c, e, hc⟩
  · rw [e, hp]
    rfl
  · rw [e]
    exact (decide_eq_true (List.ne_nil_of_mem hc)).symm

/-- What is left of a read once start of frame and bus reset are served: CTR with a code of `slots`, or nothing and no slot
pending (R240). -/
def Latched (slots : List (BitVec 5)) (ctr : Bool) (s : State) : Prop :=
  (∃ c, s.pos = .causes (istrWord false false ctr c) ∧ (ctr = true → c ∈ slots)) ∧ (ctr = false → pendingSlots s = [])

/-- The re-read of ISTR (R241). -/
theorem reaches_latched {s : State} (hq : Quiet s) (hb : s.badCode = none) (hp : s.pos = .reread) :
    ∃ t ctr, Reaches 1 s t ∧ t.any = s.any ∧ pendingSlots t = pendingSlots s ∧ Latched (pendingSlots s) ctr t := by
  refine ⟨_, (reportedCode s).isSome, .tick (u := { s with
    pos := .causes (istrWord false false (reportedCode s).isSome ((reportedCode s).getD 0#5)) })
    (.of_same rfl rfl rfl rfl rfl rfl) (step_reread hq hp), rfl, rfl, ⟨_, rfl, ?_⟩, ?_⟩
  all_goals rcases reportedCode_cases hb with ⟨e, hnone⟩ | ⟨c, e, hc⟩ <;> rw [e] <;> intro h
  · cases h
  · exact hc
  · exact hnone
  · cases h

/-- A turn of the loop: at most four steps serve the slot of the latched code and latch the next (R248). -/
theorem reaches_turn {s : State} (hq : Quiet s) (ho : OracleInv s) (hb : s.badCode = none) {c : BitVec 5}
    (h3 : c.getLsbD 3 = false) (hp : s.pos = .causes (istrWord false false true c)) :
    ∃ t ctr, Reaches 4 s t ∧ t.any = true ∧ c ∉ pendingSlots t ∧ Latched (pendingSlots t) ctr t := by
  have h1 : Reaches 1 s { s with any := true, pos := .code c, tick := s.tick + 1 } :=
    .tick (u := { s with any := true, pos := .code c }) (.of_same rfl rfl rfl rfl rfl rfl)
      ((causesServedInOrder s false false c).2.2.2.1 hp)
  obtain ⟨u, h2, hany, hpos, hclear⟩ := reaches_codeServed (h1.falls.quiet hq) (h1.falls.oracleInv ho) h3 rfl
  have h12 := h1.trans h2
  obtain ⟨t, ctr, h4, hany', hslots, hl⟩ := reaches_latched (h12.falls.quiet hq) (h12.falls.badCode.trans hb) hpos
  exact ⟨t, ctr, h12.trans h4, hany'.trans hany, by rw [hslots]; exact hclear, by rw [hslots]; exact hl⟩

/-- An invocation that returns `r` from `s` within `k` steps, with nothing left pending and no line read. -/
def Returns (k : Nat) (s : State) (r : Bool) : Prop :=
  ∃ t, Reaches k s t ∧ t.pos = .idle ∧ pendingSlots t = [] ∧ t.returned = some r

theorem Returns.of_reaches {k l : Nat} {s t : State} {r : Bool} (h1 : Reaches k s t) (h2 : Returns l t r) :
    Returns (k + l) s r := by
  obtain ⟨u, hu, h⟩ := h2
  exact ⟨u, h1.trans hu, h⟩

theorem Returns.mono {k l : Nat} {s : State} {r : Bool} (h : Returns k s r) (hkl : k ≤ l) : Returns l s r := by
  obtain ⟨u, hu, h⟩ := h
  exact ⟨u, hu.mono hkl, h⟩

/-- With no cause left the invocation returns (R258). -/
theorem returns_noCause {s : State} {c : BitVec 5} (hp : s.pos = .causes (istrWord false false false c))
    (hn : pendingSlots s = []) : Returns 1 s s.any :=
  ⟨_, .tick (u := { s with pos := .idle, returned := some s.any }) (.of_same rfl rfl rfl rfl rfl rfl)
    ((causesServedInOrder s false false c).2.2.2.2 hp), rfl, hn, rfl⟩

/-- The loop returns after at most four steps for each slot that may be pending: a turn serves one of them, and the next begins
on another (R248, R254). -/
theorem loop_returns (k : Nat) : ∀ {s : State} {slots : List (BitVec 5)} {ctr : Bool}, slots.length ≤ k → Quiet s →
    OracleInv s → s.badCode = none → pendingSlots s ⊆ slots → (∀ c ∈ slots, c.getLsbD 3 = false) → Latched slots ctr s →
    Returns (4 * k + 1) s (s.any || ctr) := by
  induction k with
  | zero =>
    rintro s slots ctr hlen - - - - - ⟨⟨c, hp, hin⟩, hnone⟩
    cases ctr with
    | false => simpa using returns_noCause hp (hnone rfl)
    | true => exact absurd (List.length_pos_of_mem (hin rfl)) (by omega)
  | succ k ih =>
    rintro s slots ctr hlen hq ho hb hsub h3 ⟨⟨c, hp, hin⟩, hnone⟩
    cases ctr with
    | false => simpa using (returns_noCause hp (hnone rfl)).mono (by omega)
    | true =>
      have hc := hin rfl
      obtain ⟨t, ctr', hreach, hany, hclear, ⟨d, hpos, hd⟩, hnone'⟩ := reaches_turn hq ho hb (h3 c hc) hp
      have hrest : pendingSlots t ⊆ slots.erase c := fun d hd =>
        (List.mem_erase_of_ne (ne_of_mem_of_not_mem hd hclear)).2 (hsub (hreach.falls.pendingSlots hd))
      have hnext := ih (by rw [List.length_erase_of_mem hc]; omega) (hreach.falls.quiet hq) (hreach.falls.oracleInv ho)
        (hreach.falls.badCode.trans hb) hrest (fun d hd => h3 d (List.mem_of_mem_erase hd))
        ⟨⟨d, hpos, fun h => hrest (hd h)⟩, hnone'⟩
      rw [hany, Bool.true_or] at hnext
      rw [Bool.or_true]
      exact (Returns.of_reaches hreach hnext).mono (by omega)

/-! ### From entry -/

/-- What a step that begins an invocation leaves: the read of ISTR, latched (R242). -/
theorem step_enters {s u : State} (hq : Quiet s) (hp : s.pos = .idle) (h : step s = .next u) (hu : u.pos ≠ .idle) :
    u.pos = .causes (istrValue s) ∧ u.any = false ∧ Falls { s with script := u.script } u ∧
      pendingSlots u = pendingSlots s := by
  obtain ⟨v, rfl, hv⟩ := step_cases h
  replace hu : v.pos ≠ .idle := hu
  have entered : ∀ rest, v = enterDispatch { s with script := rest } → v.pos = .causes (istrValue s) ∧ v.any = false ∧
      Falls { s with script := v.script } v ∧ pendingSlots v = pendingSlots s := by
    rintro rest rfl
    rw [enterDispatch_quiet (s := { s with script := rest }) hq]
    exact ⟨rfl, rfl, .of_same rfl rfl rfl rfl rfl rfl, rfl⟩
  suffices hs : ∃ rest, v = enterDispatch { s with script := rest } by
    obtain ⟨rest, e⟩ := hs
    obtain ⟨h1, h2, h3, h4⟩ := entered rest e
    exact ⟨h1, h2, h3.trans (.of_same rfl rfl rfl rfl rfl rfl), h4⟩
  rcases hv with ⟨w, s1, i, hf, _⟩ | ⟨w, s1, hf, _⟩ | ⟨hp', _⟩ | ⟨_, hs, rfl⟩ | ⟨_, line, rest, hs, hl⟩
  · simp [fetch, hp] at hf
  · simp [fetch, hp] at hf
  · cases hp.symm.trans hp'
  · split at hu
    · rename_i hirq
      exact ⟨s.script, by rw [if_pos hirq]⟩
    · exact absurd hp hu
  · refine ⟨rest, ?_⟩
    rcases runLine_cases hl with rfl | ⟨m, _, hm⟩ | ⟨_, rfl⟩ | ⟨_, rfl⟩ | ⟨_, rfl⟩ | ⟨o, _, _, rfl⟩ | ⟨c, _, rfl⟩
    · exact absurd hp hu
    · exact absurd ((linkMove_frame hm).pos.trans hp) hu
    · rfl
    · have hpos : (deviceInit { s with script := rest }).pos = .idle := (deviceInit_access _).pos.trans hp
      exact absurd hpos hu
    · exact absurd rfl hu
    · exact absurd hp hu
    · exact absurd hp hu

/-- A latched cause is served in one step (R240). -/
theorem reaches_cause {s u : State} {v : Half} {i : Instr} (hp : s.pos = .causes v) (hd : decodeIstr v = .ok i)
    (he : exec i s = .next u) (f : Falls s u) : Reaches 1 s { u with tick := u.tick + 1 } := by
  refine .tick f ?_
  rw [step_causes hp hd, he]
  rfl

/-- The seven notifications of a start of frame (R244). -/
theorem irqSof_serving {s : State} (hq : Quiet s) (reset ctr : Bool) (c : BitVec 5) :
    ∃ u, exec (.irqSof reset ctr c) s = .next u ∧ Serving s u ∧ u.pos = .causes (istrWord false reset ctr c) := by
  have hs : Serving s (performAll .sof s) := ⟨.of_capability (performAll_frame hq .sof), (performAll_access .sof s).any⟩
  exact ⟨_, rfl, hs.setPos _, rfl⟩

/-- The re-initialisation of a bus reset (R246). -/
theorem irqReset_serving {s : State} (hq : Quiet s) (ctr : Bool) (c : BitVec 5) : ∃ u, exec (.irqReset ctr c) s = .next u ∧
    Serving { s with any := true } u ∧ u.pos = .causes (istrWord false false ctr c) := by
  have hs : Serving { s with any := true } (deviceInit { s with any := true }) :=
    ⟨deviceInit_falls (s := { s with any := true }) hq, (deviceInit_access _).any⟩
  exact ⟨_, rfl, hs.setPos _, rfl⟩

/-- A start of frame, where one is latched (R244). -/
theorem reaches_sofServed {s : State} (hq : Quiet s) {sof reset ctr : Bool} {c : BitVec 5}
    (hp : s.pos = .causes (istrWord sof reset ctr c)) :
    ∃ t, Reaches 1 s t ∧ t.any = s.any ∧ t.pos = .causes (istrWord false reset ctr c) := by
  cases sof with
  | false => exact ⟨s, (Reaches.refl s).mono (by decide), rfl, hp⟩
  | true =>
    obtain ⟨u, he, hs, hpos⟩ := irqSof_serving hq reset ctr c
    exact ⟨_, reaches_cause hp (decodeIstr_word true reset ctr c) he hs.falls, hs.any, hpos⟩

/-- A bus reset, where one is latched: the invocation returns true then (R246, R258). -/
theorem reaches_resetServed {s : State} (hq : Quiet s) {reset ctr : Bool} {c : BitVec 5}
    (hp : s.pos = .causes (istrWord false reset ctr c)) :
    ∃ t, Reaches 1 s t ∧ t.any = (s.any || reset) ∧ t.pos = .causes (istrWord false false ctr c) := by
  cases reset with
  | false => exact ⟨s, (Reaches.refl s).mono (by decide), (Bool.or_false _).symm, hp⟩
  | true =>
    obtain ⟨u, he, hs, hpos⟩ := irqReset_serving hq ctr c
    have hany : Falls s { s with any := true } := .of_same rfl rfl rfl rfl rfl rfl
    exact ⟨_, reaches_cause hp (decodeIstr_word false true ctr c) he (hany.trans hs.falls),
      by rw [Bool.or_true]; exact hs.any, hpos⟩

/-- Settles O22: the start of frame and the bus reset take a step each, the loop four for each slot, the return one. -/
theorem invocationEnds : Obligations.InvocationEnds := by
  intro s u hq ho hb hp hstep hu
  refine ⟨pendingSlots_length s, ?_⟩
  obtain ⟨hpos, hany, hf, hslots⟩ := step_enters hq hp hstep hu
  have hqu : Quiet u := hf.quiet hq
  have hou : OracleInv u := hf.oracleInv ho
  obtain ⟨v, h1, hany1, hpos1⟩ := reaches_sofServed hqu hpos
  obtain ⟨w, h2, hany2, hpos2⟩ := reaches_resetServed (h1.falls.quiet hqu) hpos1
  have h12 := h1.trans h2
  have hsub : pendingSlots w ⊆ pendingSlots s := hslots ▸ h12.falls.pendingSlots
  have hloop := loop_returns (pendingSlots s).length (s := w) (Nat.le_refl _) (h12.falls.quiet hqu) (h12.falls.oracleInv hou)
    (h12.falls.badCode.trans (hf.badCode.trans hb)) hsub (fun c hc => bit3_of_mem_pendingSlots hc)
    ⟨⟨_, hpos2, fun hsome => ?_⟩, fun hnone => ?_⟩
  · obtain ⟨t, hreach, hidle, hempty, hret⟩ := Returns.of_reaches h12 hloop
    obtain ⟨m, hm, hrun⟩ := hreach.run
    refine ⟨m, t, by omega, hrun, hidle, hreach.falls.script, hempty, ?_⟩
    rw [hret, hany2, hany1, hany, reportedCode_isSome hb, Bool.false_or]
  · rcases reportedCode_cases hb with ⟨e, -⟩ | ⟨c, e, hc⟩
    · rw [e] at hsome
      cases hsome
    · rw [e]
      exact hc
  · rw [reportedCode_isSome hb] at hnone
    have hempty : pendingSlots s = [] := by simpa using hnone
    exact List.subset_nil.1 (hempty ▸ hsub)

end Sys2Proof.Machine
end
